-- ==== Sys2Proof/Word.lean ====
section
/-! DEFINITION. The word types of the core (spec/00_scope.md R9). -/

namespace Sys2Proof

/-- A byte, the document's RawByte: "an 8-bit unsigned value from the wire" (R9). -/
abbrev Byte := BitVec 8

/-- The 16-bit raw value of a temperature field (R52, R72). -/
abbrev Raw := BitVec 16

/-- The 10-bit dispatch word `sel` (R79). -/
abbrev Sel := BitVec 10

end Sys2Proof
end

