-- ==== Sys2Proof/Syntax.lean ====
section
/-! DEFINITION. The operations of the core: one constructor of `Instr` per row of spec/opcode_table.json. -/

namespace Sys2Proof

/-- The 9-bit input symbol of a byte event (spec/30_encoding.md R77): the RawByte and the gap flag. -/
structure Symbol where
  /-- The RawByte. -/
  b : Byte
  /-- The gap flag: 1 when the ByteSource observed the minimum silence just before this byte (R105). -/
  g : Bool
deriving DecidableEq, Repr

/-- The fields of the reference frame, row `FRAME.REF` (R71). The two signature bytes are fixed and are no
field. `u2` to `u4`, `u17` to `u19` and `u21` (ten bytes) are the undecoded bytes at those indices. -/
structure RefFrame where
  u2 : Byte
  u3 : Byte
  u4 : Byte
  /-- Temperature 0, bytes 5 and 6. -/
  a : Raw
  /-- Temperature 1, bytes 7 and 8. -/
  b : Raw
  /-- Temperature 2, bytes 9 and 10. -/
  c : Raw
  /-- Temperature 3, bytes 11 and 12. -/
  d : Raw
  /-- Temperature 4, bytes 13 and 14. -/
  e : Raw
  /-- Temperature 5, bytes 15 and 16. -/
  f : Raw
  u17 : Byte
  u18 : Byte
  u19 : Byte
  /-- Bits 7 to 4 of the status byte, not decoded in the reference variant. -/
  statusHigh : BitVec 4
  /-- Relays 3, 2, 1, 0: bits 3 to 0 of the status byte. -/
  r : BitVec 4
  /-- The ten undecoded bytes 21 to 30. -/
  u21 : List Byte
  /-- The checksum byte, index 31. -/
  k : Byte
deriving DecidableEq, Repr

/-- The operations. The first eleven are steps selected by the dispatch word (R80); the four `d` are pure
functions; `pFeed` and `pPoll` are sequences; `frameRef` is the data-format row of the table. -/
inductive Instr where
  /-- `RESET` (R210). -/
  | reset
  /-- `TICK` (R172). -/
  | tick
  /-- `A.SEEK.MISS` (R124). -/
  | aSeekMiss (b : Byte) (g : Bool)
  /-- `A.SEEK.FLUSH` (R125). -/
  | aSeekFlush (b : Byte) (g : Bool)
  /-- `A.SEEK.HIT` (R126). -/
  | aSeekHit (b : Byte)
  /-- `A.SEEK.GAP` (R127); its `g` is 1. -/
  | aSeekGap (b : Byte)
  /-- `A.ACC.STORE` (R128). -/
  | aAccStore (b : Byte)
  /-- `A.ACC.LAST` (R129). -/
  | aAccLast (b : Byte)
  /-- `A.ACC.ABORT` (R130); its `g` is 1. -/
  | aAccAbort (b : Byte)
  /-- `A.VAL.PASS` (R131). -/
  | aValPass
  /-- `A.VAL.FAIL` (R132). -/
  | aValFail
  /-- `D.XOR` (R151). -/
  | dXor (v : Byte)
  /-- `D.TEMP` (R152): a Frame and an index in 0..6. -/
  | dTemp (frame : List Byte) (i : Fin 6)
  /-- `D.RELAY` (R154): a Frame and an index, at most 7. -/
  | dRelay (frame : List Byte) (j : Fin 8)
  /-- `D.FRAME` (R155): a Frame. -/
  | dFrame (frame : List Byte)
  /-- `P.FEED` (R170): one byte event. -/
  | pFeed (b : Byte) (g : Bool)
  /-- `P.POLL` (R171): the byte events one `pull()` returns. -/
  | pPoll (bs : List Symbol)
  /-- `FRAME.REF` (R71): one reference frame. -/
  | frameRef (fr : RefFrame)
deriving DecidableEq, Repr

/-- The eleven operations that the dispatch word selects (R80), without their operands. -/
inductive Operation where
  | reset
  | tick
  | seekMiss
  | seekFlush
  | seekHit
  | seekGap
  | accStore
  | accLast
  | accAbort
  | valPass
  | valFail
deriving DecidableEq, Repr

end Sys2Proof
end

