-- ==== Sys2Proof/WellFormed.lean ====
section
/-! DEFINITION. Which terms of `Instr` the encoding admits. -/

namespace Sys2Proof

/-- A Frame operand has a length that some legal `FRAME_LEN` has (spec/00_scope.md R7: 2 to 255). -/
def frameOperandOk (frame : List Byte) : Bool :=
  decide (2 ≤ frame.length ∧ frame.length ≤ 255)

/-- The reference frame has ten undecoded bytes at indices 21 to 30 (R71). -/
def refFrameOk (fr : RefFrame) : Bool :=
  decide (fr.u21.length = 10)

/-- The check behind `WellFormed`. Indices, bytes and flags are bounded by their types. -/
def wellFormed : Instr → Bool
  | .reset => true
  | .tick => true
  | .aSeekMiss _ _ => true
  | .aSeekFlush _ _ => true
  | .aSeekHit _ => true
  | .aSeekGap _ => true
  | .aAccStore _ => true
  | .aAccLast _ => true
  | .aAccAbort _ => true
  | .aValPass => true
  | .aValFail => true
  | .dXor _ => true
  | .dTemp frame _ => frameOperandOk frame
  | .dRelay frame _ => frameOperandOk frame
  | .dFrame frame => frameOperandOk frame
  | .pFeed _ _ => true
  | .pPoll _ => true
  | .frameRef fr => refFrameOk fr

/-- An operation whose operands the encoding admits. -/
abbrev WellFormed (i : Instr) : Prop :=
  wellFormed i = true

end Sys2Proof
end

