-- ==== Sys2Proof/Decode.lean ====
section
/-! DEFINITION. The dispatch table (spec/30_encoding.md R79, R80), the decoder and the encoder.

An item is a list of bytes: a 16-bit head word, low byte first, and then the operands. Bits 9..0 of the head
are the dispatch word and bits 15..10 a format code. Format 0 is the dispatched operations of R80, whose
operand is the 9-bit symbol of R77 in a 16-bit word. Formats 1 to 7 are the rows of the table that have no
dispatch encoding; their words are this model's own (DESIGN CHOICE, log 8). -/

namespace Sys2Proof

/-- Why bytes encode no operation. -/
inductive DecodeError where
  /-- The bytes end before the item does. -/
  | truncated
  /-- A format code above 7. -/
  | unknownFormat
  /-- A bit that no field uses is 1. -/
  | reservedBits
  /-- An index operand out of its range, or a frame whose length no `FRAME_LEN` has. -/
  | badOperand
  /-- A frame that does not carry the fixed bits of `FRAME.REF`. -/
  | badSignature
  /-- `sel`: no event and nothing pending, the core is idle (R83). -/
  | idle
  /-- `sel`: any event but RESET or TICK while `cfg_error = 1` (R83). -/
  | configError
  /-- `sel`: a byte offered in `VALIDATING` (R83). -/
  | byteWhileValidating
  /-- `sel`: the state code `0b11` (R83). -/
  | unusedStateCode
  /-- Bytes left over after a called item. -/
  | trailingBytes
deriving DecidableEq, Repr

/-! ### The dispatch table -/

/-- One row of R80: an operation is selected when `sel &&& mask = pattern`. -/
structure OpRow where
  op : Operation
  pattern : Sel
  mask : Sel
deriving DecidableEq, Repr

/-- The eleven rows of R80, with the mask of `A.SEEK.HIT` that spec/90_conflicts.md C13 settles. -/
def opRows : List OpRow :=
  [ ⟨.reset, 0x180, 0x180⟩,
    ⟨.tick, 0x100, 0x180⟩,
    ⟨.seekMiss, 0x080, 0x3FC⟩,
    ⟨.seekFlush, 0x084, 0x3FC⟩,
    ⟨.seekHit, 0x088, 0x3F8⟩,
    ⟨.seekGap, 0x090, 0x3F0⟩,
    ⟨.accStore, 0x0A0, 0x3F2⟩,
    ⟨.accLast, 0x0A2, 0x3F2⟩,
    ⟨.accAbort, 0x0B0, 0x3F0⟩,
    ⟨.valPass, 0x041, 0x3E1⟩,
    ⟨.valFail, 0x040, 0x3E1⟩ ]

/-- Whether a row selects a dispatch word (R79, last sentence). -/
def OpRow.selects (row : OpRow) (sel : Sel) : Bool :=
  sel &&& row.mask == row.pattern

/-- The operation a dispatch word selects, if any. -/
def operationOf (sel : Sel) : Option Operation :=
  (opRows.find? fun row => row.selects sel).map OpRow.op

/-- The reason a dispatch word selects nothing, by the rows of R83. -/
def noOperationReason (sel : Sel) : DecodeError :=
  if sel.getLsbD 9 then .configError
  else if sel.extractLsb' 5 2 == 3 then .unusedStateCode
  else if sel.extractLsb' 7 2 == 1 then .byteWhileValidating
  else .idle

/-- The dispatch word that the encoder writes for an operation: the pattern of its row. -/
def Operation.pattern : Operation → Sel
  | .reset => 0x180
  | .tick => 0x100
  | .seekMiss => 0x080
  | .seekFlush => 0x084
  | .seekHit => 0x088
  | .seekGap => 0x090
  | .accStore => 0x0A0
  | .accLast => 0x0A2
  | .accAbort => 0x0B0
  | .valPass => 0x041
  | .valFail => 0x040

/-- Whether a BYTE event triggers the operation, so that a symbol follows the head word. -/
def Operation.takesByte : Operation → Bool
  | .reset => false
  | .tick => false
  | .seekMiss => true
  | .seekFlush => true
  | .seekHit => true
  | .seekGap => true
  | .accStore => true
  | .accLast => true
  | .accAbort => true
  | .valPass => false
  | .valFail => false

/-- The operation with its operands: the `b` and `g` of the event, as far as its rule names them. -/
def Operation.withSymbol (op : Operation) (y : Symbol) : Instr :=
  match op with
  | .reset => .reset
  | .tick => .tick
  | .seekMiss => .aSeekMiss y.b y.g
  | .seekFlush => .aSeekFlush y.b y.g
  | .seekHit => .aSeekHit y.b
  | .seekGap => .aSeekGap y.b
  | .accStore => .aAccStore y.b
  | .accLast => .aAccLast y.b
  | .accAbort => .aAccAbort y.b
  | .valPass => .aValPass
  | .valFail => .aValFail

/-! ### Reading fields -/

/-- A 16-bit word from its two bytes, the low byte first. -/
def word16 (lo hi : Byte) : Nat :=
  lo.toNat + 256 * hi.toNat

/-- The two bytes of a 16-bit word, the low byte first. -/
def bytes16 (w : Nat) : List Byte :=
  [BitVec.ofNat 8 w, BitVec.ofNat 8 (w / 256)]

/-- The symbol word of R77, `g` in bit 8 and `b` in bits 7..0; bits 15..9 are 0. -/
def takeSymbol : List Byte → Except DecodeError (Symbol × List Byte)
  | lo :: hi :: rest =>
    if hi.toNat < 2 then .ok (⟨lo, hi.getLsbD 0⟩, rest) else .error .reservedBits
  | _ => .error .truncated

/-- The symbols of one `pull()`: each word has bit 15 set (the ByteSource offers a byte) and the symbol in bits
8..0; the word 0 ends the list (log 8). -/
def takeSymbols : List Byte → Except DecodeError (List Symbol × List Byte)
  | lo :: hi :: rest =>
    if hi.getLsbD 7 then
      if hi.toNat < 130 then
        match takeSymbols rest with
        | .ok (ys, rest') => .ok (⟨lo, hi.getLsbD 0⟩ :: ys, rest')
        | .error e => .error e
      else .error .reservedBits
    else if hi == 0 && lo == 0 then .ok ([], rest) else .error .reservedBits
  | _ => .error .truncated

/-- A Frame operand: its length in one byte and then its bytes, index 0 first (R70). -/
def takeFrame : List Byte → Except DecodeError (List Byte × List Byte)
  | [] => .error .truncated
  | n :: rest =>
    if n.toNat < 2 then .error .badOperand
    else if rest.length < n.toNat then .error .truncated
    else .ok (rest.take n.toNat, rest.drop n.toNat)

/-- A 16-bit big-endian field of a frame (R52). -/
def rawOf (hi lo : Byte) : Raw :=
  hi ++ lo

/-- The high byte of a 16-bit field, the one at the lower frame index (R52). -/
def rawHigh (t : Raw) : Byte :=
  t.extractLsb' 8 8

/-- The low byte of a 16-bit field (R52). -/
def rawLow (t : Raw) : Byte :=
  t.extractLsb' 0 8

/-- The bytes of a reference frame in index order, by the format table of R71. -/
def RefFrame.bytes (fr : RefFrame) : List Byte :=
  [0xAA, 0x55, fr.u2, fr.u3, fr.u4,
    rawHigh fr.a, rawLow fr.a, rawHigh fr.b, rawLow fr.b, rawHigh fr.c, rawLow fr.c,
    rawHigh fr.d, rawLow fr.d, rawHigh fr.e, rawLow fr.e, rawHigh fr.f, rawLow fr.f,
    fr.u17, fr.u18, fr.u19, fr.statusHigh ++ fr.r]
    ++ fr.u21 ++ [fr.k]

/-- The fields of a reference frame, by the format table of R71: exactly 31 bytes and the checksum byte, which
stands after the ten undecoded bytes. -/
def takeRefFrame : List Byte → Except DecodeError (RefFrame × List Byte)
  | s0 :: s1 :: u2 :: u3 :: u4 :: a0 :: a1 :: b0 :: b1 :: c0 :: c1 :: d0 :: d1 :: e0 :: e1 :: f0 :: f1
      :: u17 :: u18 :: u19 :: status :: rest =>
    if s0 == 0xAA && s1 == 0x55 then
      match rest.drop 10 with
      | k :: rest' =>
        .ok ({ u2, u3, u4, a := rawOf a0 a1, b := rawOf b0 b1, c := rawOf c0 c1, d := rawOf d0 d1,
               e := rawOf e0 e1, f := rawOf f0 f1, u17, u18, u19,
               statusHigh := status.extractLsb' 4 4, r := status.extractLsb' 0 4,
               u21 := rest.take 10, k }, rest')
      | [] => .error .truncated
    else .error .badSignature
  | _ => .error .truncated

/-! ### The decoder -/

/-- An item of format 0: the operation that the dispatch word selects, with its symbol. -/
def decodeSelected (sel : Sel) (rest : List Byte) : Except DecodeError (Instr × List Byte) :=
  match operationOf sel with
  | none => .error (noOperationReason sel)
  | some op =>
    if op.takesByte then
      match takeSymbol rest with
      | .ok (y, rest') => .ok (op.withSymbol y, rest')
      | .error e => .error e
    else .ok (op.withSymbol ⟨0, false⟩, rest)

/-- `D.TEMP`: the index in the head word, then the Frame. -/
def decodeTemp (index : Nat) (rest : List Byte) : Except DecodeError (Instr × List Byte) :=
  if h : index < 6 then
    match takeFrame rest with
    | .ok (frame, rest') => .ok (.dTemp frame ⟨index, h⟩, rest')
    | .error e => .error e
  else .error .badOperand

/-- `D.RELAY`: the index in the head word, then the Frame. -/
def decodeRelay (index : Nat) (rest : List Byte) : Except DecodeError (Instr × List Byte) :=
  if h : index < 8 then
    match takeFrame rest with
    | .ok (frame, rest') => .ok (.dRelay frame ⟨index, h⟩, rest')
    | .error e => .error e
  else .error .badOperand

/-- The formats whose head word has no field: bits 9..0 are 0. -/
def decodePlain (format : Nat) (rest : List Byte) : Except DecodeError (Instr × List Byte) :=
  match format with
  | 1 =>
    match rest with
    | v :: rest' => .ok (.dXor v, rest')
    | [] => .error .truncated
  | 4 =>
    match takeFrame rest with
    | .ok (frame, rest') => .ok (.dFrame frame, rest')
    | .error e => .error e
  | 5 =>
    match takeSymbol rest with
    | .ok (y, rest') => .ok (.pFeed y.b y.g, rest')
    | .error e => .error e
  | 6 =>
    match takeSymbols rest with
    | .ok (ys, rest') => .ok (.pPoll ys, rest')
    | .error e => .error e
  | 7 =>
    match takeRefFrame rest with
    | .ok (fr, rest') => .ok (.frameRef fr, rest')
    | .error e => .error e
  | _ => .error .unknownFormat

/-- The decoder: total on any bytes; answers the operation and the bytes after the item. -/
def decode : List Byte → Except DecodeError (Instr × List Byte)
  | lo :: hi :: rest =>
    let low := word16 lo hi % 1024
    let format := word16 lo hi / 1024
    if format = 0 then decodeSelected (BitVec.ofNat 10 low) rest
    else if format = 2 then decodeTemp low rest
    else if format = 3 then decodeRelay low rest
    else if low = 0 then decodePlain format rest
    else .error .reservedBits
  | _ => .error .truncated

/-! ### The encoder -/

/-- The head word of an item. -/
def encodeHead (format low : Nat) : List Byte :=
  bytes16 (format * 1024 + low)

/-- The head word of a dispatched operation. -/
def encodeOperation (op : Operation) : List Byte :=
  encodeHead 0 op.pattern.toNat

/-- A symbol word. -/
def encodeSymbol (y : Symbol) : List Byte :=
  [y.b, if y.g then 1 else 0]

/-- The symbol words of one `pull()`, and the word 0 that ends them. -/
def encodeSymbols : List Symbol → List Byte
  | [] => [0, 0]
  | y :: ys => y.b :: (if y.g then 0x81 else 0x80) :: encodeSymbols ys

/-- A Frame operand. -/
def encodeFrame (frame : List Byte) : List Byte :=
  BitVec.ofNat 8 frame.length :: frame

/-- The words of an operation. -/
def encode : Instr → List Byte
  | .reset => encodeOperation .reset
  | .tick => encodeOperation .tick
  | .aSeekMiss b g => encodeOperation .seekMiss ++ encodeSymbol ⟨b, g⟩
  | .aSeekFlush b g => encodeOperation .seekFlush ++ encodeSymbol ⟨b, g⟩
  | .aSeekHit b => encodeOperation .seekHit ++ encodeSymbol ⟨b, false⟩
  | .aSeekGap b => encodeOperation .seekGap ++ encodeSymbol ⟨b, true⟩
  | .aAccStore b => encodeOperation .accStore ++ encodeSymbol ⟨b, false⟩
  | .aAccLast b => encodeOperation .accLast ++ encodeSymbol ⟨b, false⟩
  | .aAccAbort b => encodeOperation .accAbort ++ encodeSymbol ⟨b, true⟩
  | .aValPass => encodeOperation .valPass
  | .aValFail => encodeOperation .valFail
  | .dXor v => encodeHead 1 0 ++ [v]
  | .dTemp frame i => encodeHead 2 i.val ++ encodeFrame frame
  | .dRelay frame j => encodeHead 3 j.val ++ encodeFrame frame
  | .dFrame frame => encodeHead 4 0 ++ encodeFrame frame
  | .pFeed b g => encodeHead 5 0 ++ encodeSymbol ⟨b, g⟩
  | .pPoll bs => encodeHead 6 0 ++ encodeSymbols bs
  | .frameRef fr => encodeHead 7 0 ++ fr.bytes

/-! ### The table's words -/

/-- The `n` low bytes of `w`, the lowest first. -/
def bytesLow : (n w : Nat) → List Byte
  | 0, _ => []
  | n + 1, w => BitVec.ofNat 8 w :: bytesLow n (w / 256)

/-- The bytes of a word of the operation table as the model stores an item: `nbits` bits of `w`, and zeros up to
the length of the longest item but for `P.POLL`'s, which has no bound. -/
def tableBytes (nbits w : Nat) : List Byte :=
  bytesLow ((nbits + 7) / 8) w ++ List.replicate 260 0

/-- What the decoder reads from a word of the operation table. -/
def decodeTableWord (nbits w : Nat) : Option Instr :=
  match decode (tableBytes nbits w) with
  | .ok (i, _) => some i
  | .error _ => none

end Sys2Proof
end

