-- ==== Sys2Proof/Machine/Memory.lean ====
section
/-! DEFINITION. The frame space as a list of cells in one canonical form (spec/20_memory.md R50).

The cells are the bytes of `buf` that some operation has written since reset, addresses strictly rising. A byte
that is not listed has no value of its own (R36): reading one is `State.bufByte`'s business (log 3). -/

namespace Sys2Proof.Machine

/-- The written bytes of the frame space, by index. -/
abbrev Memory := List Host.Cell

/-- The byte written at index `a`, if one is. -/
def Memory.lookup : Memory → Nat → Option Byte
  | [], _ => none
  | (x, v) :: m, a => if x = a then some v else Memory.lookup m a

/-- Write the byte at index `a`, keeping the canonical form. -/
def Memory.write : Memory → Nat → Byte → Memory
  | [], a, b => [(a, b)]
  | (x, v) :: m, a, b =>
    if a < x then (a, b) :: (x, v) :: m
    else if x = a then (a, b) :: m
    else (x, v) :: Memory.write m a b

/-- The canonical form: strictly rising indices. There is no value that an unlisted index reads as, so no cell
can equal it. -/
def Memory.wf : Memory → Bool
  | [] => true
  | [_] => true
  | c :: c' :: m => decide (c.1 < c'.1) && Memory.wf (c' :: m)

/-- Every written index lies in the frame space `0..n`. -/
def Memory.within (n : Nat) (m : Memory) : Bool :=
  m.all fun c => decide (c.1 < n)

end Sys2Proof.Machine
end

