-- ==== Sys2Proof/Config.lean ====
section
/-! DEFINITION. The configuration record `cfg` of spec/00_scope.md R6, and the values the spec leaves open
as constants without a body. -/

namespace Sys2Proof

/-- The two start modes of R6: a sentinel byte sequence, or the gap flag of the ByteSource. -/
inductive StartMode where
  | sentinel
  | gap
deriving DecidableEq, Repr

/-- The configuration record of R6, one field per parameter. Legal values are those of `Machine.cfgOk` (R7);
an illegal value is not coerced (R30). -/
structure Cfg where
  /-- `FRAME_LEN`: every byte of a frame, the checksum included. -/
  frameLen : Nat
  /-- `START_MODE`. -/
  startMode : StartMode
  /-- `SYNC`; its length is `SYNC_LEN`. -/
  sync : List Byte
  /-- `SEEK_WINDOW`. -/
  seekWindow : Nat
  /-- `TEMP_OFFSET[0..6)`. -/
  tempOffset : Vector Nat 6
  /-- `RELAY_OFFSET`. -/
  relayOffset : Nat
  /-- `N_RELAYS`. -/
  nRelays : Nat
  /-- `XOR_EN`. -/
  xorEn : Bool
  /-- `XOR_MASK`. -/
  xorMask : Byte
  /-- `TEMP_SIGNED`. -/
  tempSigned : Bool
  /-- `CNT_W`: the width of the two error counters. -/
  cntW : Nat
deriving DecidableEq, Repr

namespace Config

/-- `XOR_MASK` of the reset configuration: OPEN in the spec (D15), so it has no value here (log 2). -/
opaque xorMask : Byte

/-- `TEMP_SIGNED` of the reset configuration: OPEN in the spec (D14), so it has no value here (log 2). -/
opaque tempSigned : Bool

/-- What byte `i` of `buf` holds when nothing has written it since the `epoch`-th RESET: unspecified (R36, U10),
so it has no value here (log 3). -/
opaque unspecifiedByte : (epoch i : Nat) → Byte

end Config

end Sys2Proof
end

