-- ==== Sys2Proof/Machine/Validation.lean ====
section
/-! DEFINITION. The well-formedness of a configuration (spec/00_scope.md R7) and the reference variant (R8). -/

namespace Sys2Proof.Machine

/-- `SYNC_LEN` (R6). -/
def syncLen (cfg : Cfg) : Nat :=
  cfg.sync.length

/-- The start-signature clause of R7: `SYNC` leaves room for the checksum in sentinel mode and is empty in gap
mode. -/
def syncOk (cfg : Cfg) : Bool :=
  match cfg.startMode with
  | .sentinel => decide (1 ≤ syncLen cfg ∧ syncLen cfg ≤ cfg.frameLen - 1)
  | .gap => decide (syncLen cfg = 0)

/-- The field-offset clauses of R7: no decoded byte lies outside the frame or on its checksum byte. -/
def offsetsOk (cfg : Cfg) : Bool :=
  cfg.tempOffset.toList.all (fun o => decide (o + 1 ≤ cfg.frameLen - 2))
    && decide (cfg.relayOffset ≤ cfg.frameLen - 2)

/-- `cfg_ok(cfg)`, the conjunction of every legal-value clause (R7). -/
def cfgOk (cfg : Cfg) : Bool :=
  decide (2 ≤ cfg.frameLen ∧ cfg.frameLen ≤ 255)
    && syncOk cfg
    && decide (1 ≤ cfg.seekWindow)
    && offsetsOk cfg
    && decide (cfg.nRelays = 4 ∨ cfg.nRelays = 8)
    && decide (1 ≤ cfg.cntW)

/-- The reference variant (R8); `TEMP_SIGNED` and `XOR_MASK` are left open there (log 2). -/
def referenceCfg : Cfg where
  frameLen := 32
  startMode := .sentinel
  sync := [0xAA, 0x55]
  seekWindow := 64
  tempOffset := #v[5, 7, 9, 11, 13, 15]
  relayOffset := 20
  nRelays := 4
  xorEn := false
  xorMask := Config.xorMask
  tempSigned := Config.tempSigned
  cntW := 32

end Sys2Proof.Machine
end

