-- ==== Sys2Proof/Machine/State.lean ====
section
/-! DEFINITION. The state of one core instance, its events, and the reasons a step can stop. -/

namespace Sys2Proof.Machine

/-- The assembler states (spec/10_state.md R26). The code `0b11` of R78 does not exist (R83, U14). -/
inductive AsmState where
  | seekingStart
  | accumulating
  | validating
deriving DecidableEq, Repr

/-- The payload of a `READINGS` event (R34): six raw temperatures and the relay bits, index 0 first. -/
structure Readings where
  temps : List Raw
  relays : List Bool
deriving DecidableEq, Repr

/-- The output events of R34. ConfigurationError is no event but the level `cfg_error`. -/
inductive OutEvent where
  | readings (r : Readings)
  | errFraming
  | errChecksum
deriving DecidableEq, Repr

/-- The three errors of the taxonomy (spec/60_exceptions.md R185). -/
inductive ErrorKind where
  | framing
  | checksum
  | configuration
deriving DecidableEq, Repr

/-- The value of a decoder function that the host evaluated by itself (log 10). -/
inductive FuncResult where
  /-- `D.XOR` (R151). -/
  | byte (v : Byte)
  /-- `D.TEMP` (R152): the raw value and the integer it denotes. -/
  | temp (raw : Raw) (t : Int)
  /-- `D.RELAY` (R154). -/
  | relay (r : Bool)
  /-- `D.FRAME` (R155). -/
  | readings (r : Readings)
deriving DecidableEq, Repr

/-- The input events of spec/00_scope.md R13. -/
inductive InEvent where
  | reset
  | tick
  | byte (y : Symbol)
deriving DecidableEq, Repr

/-- What waits at the core's inputs: an event, or a host's call of an operation that has no dispatch encoding,
as the bytes of its item (log 9). -/
inductive Input where
  | event (e : InEvent)
  | call (code : List Byte)
deriving DecidableEq, Repr

/-- The state: the configuration, the tuple of spec/10_state.md R20, and the model's own fields. -/
structure State where
  /-- The configuration (R6, R30). No operation writes it (log 1). -/
  cfg : Cfg
  /-- `cfg_error` (R28). -/
  cfgError : Bool
  /-- `st` (R26). -/
  st : AsmState
  /-- `count` (R23). -/
  count : Nat
  /-- `buf` (R22): the bytes written since the last RESET. -/
  buf : Memory
  /-- `match_len` (R24). -/
  matchLen : Nat
  /-- `seek_count` (R25). -/
  seekCount : Nat
  /-- `framing_errors` (R31). -/
  framingErrors : Nat
  /-- `checksum_errors` (R32). -/
  checksumErrors : Nat
  /-- The model's own: how many RESETs there were; the free value of an unwritten byte depends on it (log 4). -/
  bufEpoch : Nat
  /-- The model's own: the inputs that have not been taken yet, in order (log 6). -/
  input : List Input
  /-- The model's own: the output events of the last step (R34, R81, R82; log 5). -/
  out : List OutEvent
  /-- The model's own: the output trace (R34, R173; log 5). -/
  trace : List OutEvent
  /-- The model's own: the value of the last decoder function the host evaluated by itself (log 10). -/
  funcResult : Option FuncResult
deriving DecidableEq, Repr

/-- Why a step stops with a fault. -/
inductive Fault where
  /-- A byte index outside the frame space `0..FRAME_LEN`. Raised by every operation that reads or writes a
  frame byte. Safe: the spec says such an access cannot occur under `cfg_ok` and must not be given a value
  (spec/20_memory.md R55). -/
  | outsideFrameSpace (index : Nat)
  /-- An operand of `D.TEMP`, `D.RELAY` or `D.FRAME` that is no Frame of this configuration: its length is not
  `FRAME_LEN` (spec/42_frame_decoder.md R157, spec/30_encoding.md R85). Safe: the model stops. -/
  | notAFrame (length : Nat)
  /-- An index operand of `D.RELAY` that is not in `0..N_RELAYS` (R154). Safe: the model stops. -/
  | noSuchRelay (j : Nat)
deriving DecidableEq, Repr

/-- Why a step is refused. -/
inductive Refusal where
  /-- An operation that has no meaning in the model yet. No arm of `exec` answers with it. Safe. -/
  | notModelled (mnemonic : String)
  /-- A called item whose bytes encode no operation (spec/30_encoding.md R83). Raised by the fetch. Safe. -/
  | undecodable (e : DecodeError)
  /-- A called item that names one of the dispatched operations: only the dispatch word selects those
  (R79, R80). Raised by the fetch. Safe. -/
  | notCallable
deriving DecidableEq, Repr

/-- The core right after RESET in the reference variant (R36, R8): nothing of `buf` is written, nothing is
pending at the inputs, nothing has been emitted. -/
def State.reset : State where
  cfg := referenceCfg
  cfgError := !cfgOk referenceCfg
  st := .seekingStart
  count := 0
  buf := []
  matchLen := 0
  seekCount := 0
  framingErrors := 0
  checksumErrors := 0
  bufEpoch := 0
  input := []
  out := []
  trace := []
  funcResult := none

end Sys2Proof.Machine
end

