-- ==== Sys2Proof/Machine/Operands.lean ====
section
/-! DEFINITION. How operands are formed: the signature matcher (spec/41_frame_assembler.md R121), the XOR
transform (spec/30_encoding.md R76), the fields of a frame (R72, R73). -/

namespace Sys2Proof.Machine

/-- The largest `k' ≤ k` such that the last `k'` bytes of `w` (whose length is `n`) are the first `k'` bytes of
`sync`. -/
def longestOverlap (sync w : List Byte) (n : Nat) : Nat → Nat
  | 0 => 0
  | k + 1 =>
    if w.drop (n - (k + 1)) = sync.take (k + 1) then k + 1 else longestOverlap sync w n k

/-- `advance(m, b)` (R121): the length of the longest prefix of `SYNC` that is a suffix of the bytes matched so
far followed by `b`. -/
def advance (sync : List Byte) (m : Nat) (b : Byte) : Nat :=
  longestOverlap sync (sync.take m ++ [b]) (m + 1) (m + 1)

/-- `m'` (R122): the match progress after the byte `b`. -/
def nextMatch (s : State) (b : Byte) : Nat :=
  match s.cfg.startMode with
  | .sentinel => advance s.cfg.sync s.matchLen b
  | .gap => 0

/-- `x(v)`, the XOR-decode transform of one byte (R76, R151). -/
def xorTransform (cfg : Cfg) (v : Byte) : Byte :=
  if cfg.xorEn then v ^^^ cfg.xorMask else v

/-- `t_i` (R72, R152): the integer a raw temperature denotes, in tenths of a degree. -/
def tempValue (cfg : Cfg) (raw : Raw) : Int :=
  if cfg.tempSigned then raw.toInt else (raw.toNat : Int)

/-- The temperature that `t` denotes, in degrees Celsius: the exact rational `t / 10` (R153). The core does not
compute it. -/
def celsius (t : Int) : Rat :=
  (t : Rat) / 10

/-- `(status >> j) & 0x1` (R73, R154). -/
def relayBit (status : Byte) (j : Nat) : Bool :=
  (status >>> j) &&& 1 == 1

end Sys2Proof.Machine
end

