-- ==== Sys2Proof/Machine/Flags.lean ====
section
/-! DEFINITION. The conditions the dispatch word is made of (spec/41_frame_assembler.md R122), the checksum
(spec/00_scope.md R11), and `in_ready` (spec/10_state.md R29). The core has no arithmetic condition codes (R29). -/

namespace Sys2Proof.Machine

/-- `sum8(s)` (R11): the sum of the bytes modulo 256. -/
def sum8 (s : List Byte) : Byte :=
  BitVec.ofNat 8 (s.map BitVec.toNat).sum

/-- Whether the last byte of a frame is the checksum of the others (R70, R74). -/
def checksumOk (frame : List Byte) : Bool :=
  frame[frame.length - 1]? == some (sum8 (frame.take (frame.length - 1)))

/-- Byte `i` of `buf`: the byte written there, or the free value of a byte nothing has written (R22, R36, log 3). -/
def State.bufByte (s : State) (i : Nat) : Byte :=
  (Memory.lookup s.buf i).getD (Config.unspecifiedByte s.bufEpoch i)

/-- The Frame `buf[0..FRAME_LEN)` (spec/20_memory.md R50). -/
def State.frame (s : State) : List Byte :=
  (List.range s.cfg.frameLen).map s.bufByte

/-- `in_ready` (R29, R104): whether a byte event is accepted. -/
def State.inReady (s : State) : Bool :=
  !s.cfgError && s.st != .validating

/-- `gapm` (R122): a flagged byte in gap mode. -/
def gapm (s : State) (y : Symbol) : Bool :=
  s.cfg.startMode == .gap && y.g

/-- `hit` (R122): the byte completes the start signature in sentinel mode. -/
def hit (s : State) (y : Symbol) : Bool :=
  s.cfg.startMode == .sentinel && advance s.cfg.sync s.matchLen y.b == syncLen s.cfg

/-- `over` (R122): one more byte exceeds the seek window. -/
def overWindow (s : State) : Bool :=
  decide (s.seekCount + 1 > s.cfg.seekWindow)

/-- `last` (R122): one more byte fills the frame. -/
def lastByte (s : State) : Bool :=
  decide (s.count + 1 = s.cfg.frameLen)

/-- `ok` (R122): the checksum of the buffer matches. It is looked at only in `VALIDATING` (R79) and is taken as 0
elsewhere, as the vectors of spec/95_test_vectors.md do (log 13). -/
def sumPasses (s : State) : Bool :=
  s.st == .validating && checksumOk s.frame

end Sys2Proof.Machine
end

