-- ==== Sys2Proof/Machine/Select.lean ====
section
/-! DEFINITION. The dispatch word `sel` (spec/30_encoding.md R78, R79) and the operation it selects (R80). -/

namespace Sys2Proof.Machine

/-- The code of `st` (R78). -/
def stCode : AsmState → BitVec 2
  | .seekingStart => 0b00
  | .accumulating => 0b01
  | .validating => 0b10

/-- The code of the event kind `ev` (R78); no event is `0b00`. -/
def evCode : Option InEvent → BitVec 2
  | none => 0b00
  | some (.byte _) => 0b01
  | some .tick => 0b10
  | some .reset => 0b11

/-- A condition of R79 that holds only for a byte event. -/
def onByte (test : Symbol → Bool) : Option InEvent → Bool
  | some (.byte y) => test y
  | some .tick => false
  | some .reset => false
  | none => false

/-- `sel` (R79), bit 9 first. -/
def dispatchWord (s : State) (ev : Option InEvent) : Sel :=
  BitVec.ofBool s.cfgError ++ evCode ev ++ stCode s.st ++ BitVec.ofBool (onByte (gapm s) ev)
    ++ BitVec.ofBool (onByte (hit s) ev) ++ BitVec.ofBool (overWindow s) ++ BitVec.ofBool (lastByte s)
    ++ BitVec.ofBool (sumPasses s)

/-- The operation that an event selects in a state (R80). -/
def selected (s : State) (ev : Option InEvent) : Option Operation :=
  operationOf (dispatchWord s ev)

/-- The item the dispatch presents to the decoder: the dispatch word, and the symbol of a byte event. -/
def dispatchBytes (s : State) (ev : Option InEvent) : List Byte :=
  encodeHead 0 (dispatchWord s ev).toNat
    ++ (match ev with
        | some (.byte y) => encodeSymbol y
        | some .tick => []
        | some .reset => []
        | none => [])

end Sys2Proof.Machine
end

