-- ==== Sys2Proof/Machine/Ops.lean ====
section
/-! DEFINITION. The shared operations: access to the frame space (spec/20_memory.md), emitting an output event
(spec/00_scope.md R12), raising an error (spec/60_exceptions.md R186 to R188). Raising is the whole of taking an
error: nothing is saved or vectored (R193), and there is no return operation (R194). -/

namespace Sys2Proof.Machine

/-- The outcome of a computation that may fault. -/
def finish : Except Fault State → Host.Outcome State Fault Refusal
  | .ok s => .next s
  | .error f => .fault f

/-- Run `k` from the next state of an outcome; a stop stays a stop. -/
def andThen (o : Host.Outcome State Fault Refusal) (k : State → Host.Outcome State Fault Refusal) :
    Host.Outcome State Fault Refusal :=
  match o with
  | .next s => k s
  | .fault f => .fault f
  | .refused r => .refused r

/-! ### The frame space -/

/-- `buf[i] <- b` (R12), for an index in `0..FRAME_LEN` (R55). -/
def writeByte (s : State) (i : Nat) (b : Byte) : Except Fault State :=
  if i < s.cfg.frameLen then .ok { s with buf := Memory.write s.buf i b }
  else .error (.outsideFrameSpace i)

/-- `buf[i] <- b0, buf[i+1] <- b1, ...`: single-byte writes in ascending order (R51). -/
def writeBytes (s : State) (i : Nat) : List Byte → Except Fault State
  | [] => .ok s
  | b :: bs =>
    match writeByte s i b with
    | .ok s' => writeBytes s' (i + 1) bs
    | .error f => .error f

/-- `MemRead(a, 1)` over a Frame (R53). -/
def memRead1 (frame : List Byte) (a : Nat) : Except Fault Byte :=
  match frame[a]? with
  | some b => .ok b
  | none => .error (.outsideFrameSpace a)

/-! ### Steps, output events and errors -/

/-- The start of a step: nothing has been emitted in it yet (R34). -/
def beginStep (s : State) : State :=
  { s with out := [] }

/-- `emit E` (R12): append the event to the output list of the step, and so to the trace. -/
def emit (e : OutEvent) (s : State) : State :=
  { s with out := s.out ++ [e], trace := s.trace ++ [e] }

/-- An error counter after one more error: modulo `2^CNT_W` (R31, R32). -/
def bump (cfg : Cfg) (n : Nat) : Nat :=
  (n + 1) % 2 ^ cfg.cntW

/-- `raise X` (R186, R187, R188): all that an error records. -/
def raise (x : ErrorKind) (s : State) : State :=
  match x with
  | .framing => emit .errFraming { s with framingErrors := bump s.cfg s.framingErrors }
  | .checksum => emit .errChecksum { s with checksumErrors := bump s.cfg s.checksumErrors }
  | .configuration => { s with cfgError := true }

/-! ### The environment's side of the handshake -/

/-- Whether an input waits while `in_ready = 0`. A byte does (spec/40_bytesource_interface.md R104), and so does a
host's call: it may carry bytes, which must not pass the ones before or after them (R103), and no decoder operation
runs under `cfg_error` (spec/60_exceptions.md R190). `RESET` and `TICK` are legal in every state (R172, R210) and
never wait (log 7, log 9). -/
def Input.waits : Input → Bool
  | .event (.byte _) => true
  | .event .reset => false
  | .event .tick => false
  | .call _ => true

/-- The byte event of a symbol. -/
def Input.ofSymbol (y : Symbol) : Input :=
  .event (.byte y)

/-- The ByteSource keeps bytes that are not accepted and offers them again, after all that arrived before them
(spec/40_bytesource_interface.md R103, R104). It says what feeding a core with `in_ready = 0` does, which R170
leaves out; no step of the machine comes to it (log 7). Nothing is emitted. -/
def hold (ys : List Symbol) (s : State) : State :=
  { beginStep s with input := s.input ++ ys.map Input.ofSymbol }

end Sys2Proof.Machine
end

