-- ==== Sys2Proof/Machine/Decoder.lean ====
section
/-! DEFINITION. The FrameDecoder (spec/42_frame_decoder.md): `D.XOR`, `D.TEMP`, `D.RELAY`, `D.FRAME`. The functions
read a Frame and the configuration only (R156). `A.VAL.PASS` evaluates `readFrame`; the meanings at the end are a
host's evaluation of one function by itself, whose value is kept in `funcResult` (log 10). -/

namespace Sys2Proof.Machine

/-- `D.TEMP(F, i).raw` (R152): two bytes at `TEMP_OFFSET[i]`, transformed one by one, the first the high byte. -/
def readTemp (cfg : Cfg) (frame : List Byte) (i : Fin 6) : Except Fault Raw := do
  let hi ← memRead1 frame cfg.tempOffset[i]
  let lo ← memRead1 frame (cfg.tempOffset[i] + 1)
  return rawOf (xorTransform cfg hi) (xorTransform cfg lo)

/-- `D.RELAY(F, j)` (R154): bit `j` of the transformed status byte. -/
def readRelay (cfg : Cfg) (frame : List Byte) (j : Nat) : Except Fault Bool := do
  let status ← memRead1 frame cfg.relayOffset
  return relayBit (xorTransform cfg status) j

/-- `D.FRAME(F, cfg)` (R155): six temperatures and `N_RELAYS` relays, in index order. -/
def readFrame (cfg : Cfg) (frame : List Byte) : Except Fault Readings := do
  let temps ← (List.finRange 6).mapM (readTemp cfg frame)
  let relays ← (List.range cfg.nRelays).mapM (readRelay cfg frame)
  return { temps, relays }

/-- The value of a decoder function of a Frame: a list of another length than `FRAME_LEN` is no Frame of this
configuration (R85, R157). -/
def ofFrame {α : Type} (cfg : Cfg) (frame : List Byte) (value : Except Fault α) : Except Fault α :=
  if frame.length = cfg.frameLen then value else .error (.notAFrame frame.length)

/-- Keep the value of a decoder function that the host evaluated (log 10). No state element of the core changes
and nothing is emitted (R150, R158). -/
def returnValue (v : FuncResult) (s : State) : State :=
  { beginStep s with funcResult := some v }

/-- `D.XOR` (R151). -/
def execDXor (v : Byte) (s : State) : Host.Outcome State Fault Refusal :=
  .next (returnValue (.byte (xorTransform s.cfg v)) s)

/-- `D.TEMP` (R152): the raw value and the integer it denotes. -/
def execDTemp (frame : List Byte) (i : Fin 6) (s : State) : Host.Outcome State Fault Refusal :=
  finish do
    let raw ← ofFrame s.cfg frame (readTemp s.cfg frame i)
    return returnValue (.temp raw (tempValue s.cfg raw)) s

/-- `D.RELAY` (R154), for an index in `0..N_RELAYS`. -/
def execDRelay (frame : List Byte) (j : Fin 8) (s : State) : Host.Outcome State Fault Refusal :=
  finish do
    let r ← if j.val < s.cfg.nRelays then ofFrame s.cfg frame (readRelay s.cfg frame j.val)
      else .error (.noSuchRelay j.val)
    return returnValue (.relay r) s

/-- `D.FRAME` (R155). -/
def execDFrame (frame : List Byte) (s : State) : Host.Outcome State Fault Refusal :=
  finish do
    let r ← ofFrame s.cfg frame (readFrame s.cfg frame)
    return returnValue (.readings r) s

end Sys2Proof.Machine
end

