-- ==== Sys2Proof/Machine/Assembler.lean ====
section
/-! DEFINITION. The nine operations of the FrameAssembler (spec/41_frame_assembler.md R124 to R132). Each is the
pseudocode of its rule; which one an event selects is the dispatch's business (R79, R80; log 14). -/

namespace Sys2Proof.Machine

/-- Begin accumulating with `n` bytes of the new frame in `buf` (R126, R127). -/
def startFrame (n : Nat) (s : State) : State :=
  { s with count := n, seekCount := 0, st := .accumulating }

/-- Back to `SEEKING_START` with nothing held (R131, R132). -/
def resync (s : State) : State :=
  { s with count := 0, matchLen := 0, seekCount := 0, st := .seekingStart }

/-- `A.SEEK.MISS` (R124): the byte starts no frame and is discarded. -/
def execASeekMiss (b : Byte) (_g : Bool) (s : State) : Host.Outcome State Fault Refusal :=
  .next { beginStep s with matchLen := nextMatch s b, seekCount := s.seekCount + 1 }

/-- `A.SEEK.FLUSH` (R125): the seek window is exceeded; the match progress is kept; FramingError. -/
def execASeekFlush (b : Byte) (_g : Bool) (s : State) : Host.Outcome State Fault Refusal :=
  .next (raise .framing { beginStep s with matchLen := nextMatch s b, seekCount := 0 })

/-- `A.SEEK.HIT` (R126): the signature is complete; its bytes are the first of the frame. -/
def execASeekHit (_b : Byte) (s : State) : Host.Outcome State Fault Refusal :=
  finish do
    let s' ← writeBytes (beginStep s) 0 s.cfg.sync
    return { startFrame (syncLen s.cfg) s' with matchLen := 0 }

/-- `A.SEEK.GAP` (R127): the flagged byte is byte 0 of a frame. -/
def execASeekGap (b : Byte) (s : State) : Host.Outcome State Fault Refusal :=
  finish do
    let s' ← writeByte (beginStep s) 0 b
    return startFrame 1 s'

/-- `A.ACC.STORE` (R128): append a byte that does not fill the frame. -/
def execAAccStore (b : Byte) (s : State) : Host.Outcome State Fault Refusal :=
  finish do
    let s' ← writeByte (beginStep s) s.count b
    return { s' with count := s.count + 1 }

/-- `A.ACC.LAST` (R129): append the byte that fills the frame. -/
def execAAccLast (b : Byte) (s : State) : Host.Outcome State Fault Refusal :=
  finish do
    let s' ← writeByte (beginStep s) s.count b
    return { s' with count := s.cfg.frameLen, st := .validating }

/-- `A.ACC.ABORT` (R130): the partial frame is discarded, FramingError, and the flagged byte is byte 0 of the
next frame. -/
def execAAccAbort (b : Byte) (s : State) : Host.Outcome State Fault Refusal :=
  finish do
    let s' ← writeByte (beginStep s) 0 b
    return raise .framing { s' with count := 1, seekCount := 0 }

/-- `A.VAL.PASS` (R131): the Frame is decoded and its readings emitted in the same step. -/
def execAValPass (s : State) : Host.Outcome State Fault Refusal :=
  finish do
    let r ← readFrame s.cfg s.frame
    return emit (.readings r) (resync (beginStep s))

/-- `A.VAL.FAIL` (R132): ChecksumError, and the buffer is discarded. -/
def execAValFail (s : State) : Host.Outcome State Fault Refusal :=
  .next (raise .checksum (resync (beginStep s)))

end Sys2Proof.Machine
end

