-- ==== Sys2Proof/Machine/Reset.lean ====
section
/-! DEFINITION. `RESET` (spec/70_reset_and_hazards.md R210) and `TICK` (spec/43_poll_cycle.md R172). -/

namespace Sys2Proof.Machine

/-- Every element but `cfg_error` at its reset value (R36); `buf` is unspecified, so no byte is listed and the
free values are those of a new epoch (log 3). The trace, the pending inputs and the host's last function value
are no state of the core and stay (log 15). -/
def clearCore (s : State) : State :=
  { beginStep s with
    cfgError := false
    st := .seekingStart
    count := 0
    buf := []
    matchLen := 0
    seekCount := 0
    framingErrors := 0
    checksumErrors := 0
    bufEpoch := s.bufEpoch + 1 }

/-- `RESET` (R210): every element at its reset value; ConfigurationError when `cfg_ok(cfg)` is false. -/
def execReset (s : State) : Host.Outcome State Fault Refusal :=
  .next (if cfgOk s.cfg then clearCore s else raise .configuration (clearCore s))

/-- `TICK` (R172): no state element changes; emits nothing. -/
def execTick (s : State) : Host.Outcome State Fault Refusal :=
  .next (beginStep s)

end Sys2Proof.Machine
end

