-- ==== Sys2Proof/Machine/PollCycle.lean ====
section
/-! DEFINITION. The sequencing operations `P.FEED` and `P.POLL` (spec/43_poll_cycle.md R170, R171), and the feeding
of a reference frame (spec/30_encoding.md R70, R71, R87). -/

namespace Sys2Proof.Machine

/-- The step of a selected operation, with the symbol of the event (0 where there is none). -/
def runOperation (op : Operation) (y : Symbol) (s : State) : Host.Outcome State Fault Refusal :=
  match op with
  | .reset => execReset s
  | .tick => execTick s
  | .seekMiss => execASeekMiss y.b y.g s
  | .seekFlush => execASeekFlush y.b y.g s
  | .seekHit => execASeekHit y.b s
  | .seekGap => execASeekGap y.b s
  | .accStore => execAAccStore y.b s
  | .accLast => execAAccLast y.b s
  | .accAbort => execAAccAbort y.b s
  | .valPass => execAValPass s
  | .valFail => execAValFail s

/-- The internal step, where one is pending (R13, R170): in `VALIDATING` the operation that the absence of an
event selects. -/
def settle (s : State) : Host.Outcome State Fault Refusal :=
  if s.st = .validating then
    match selected s none with
    | some op => runOperation op ⟨0, false⟩ s
    | none => .next s
  else .next s

/-- `P.FEED` of one symbol (R170): the operation the byte selects and then the internal step if one is pending.
R170 requires `in_ready = 1`; where it is 0 the byte stays with the ByteSource (R104, log 7). -/
def feed (y : Symbol) (s : State) : Host.Outcome State Fault Refusal :=
  if s.inReady then
    match selected s (some (.byte y)) with
    | some op => andThen (runOperation op y s) settle
    | none => .next (hold [y] s)
  else .next (hold [y] s)

/-- `P.FEED` of one symbol after the other, in order (R171); from the first that is not accepted on, the
ByteSource keeps them. -/
def feedAll (ys : List Symbol) (s : State) : Host.Outcome State Fault Refusal :=
  match ys with
  | [] => .next s
  | y :: ys => if s.inReady then andThen (feed y s) (feedAll ys) else .next (hold (y :: ys) s)

/-- `P.FEED` (R170). -/
def execPFeed (b : Byte) (g : Bool) (s : State) : Host.Outcome State Fault Refusal :=
  feed ⟨b, g⟩ s

/-- `P.POLL` (R171): `TICK`, then `P.FEED` per pulled byte. -/
def execPPoll (bs : List Symbol) (s : State) : Host.Outcome State Fault Refusal :=
  andThen (execTick s) (feedAll bs)

/-- The symbols of bytes without a gap flag (R87, `BYTES`). -/
def plainSymbols (bytes : List Byte) : List Symbol :=
  bytes.map fun b => ⟨b, false⟩

/-- `FRAME.REF` (R71): a frame is transmitted in index order, byte 0 first (R70), so its 32 bytes are fed one by
one, as the `FRAME` line of a stimulus program does (R87; log 11). -/
def execFrameRef (fr : RefFrame) (s : State) : Host.Outcome State Fault Refusal :=
  feedAll (plainSymbols fr.bytes) s

end Sys2Proof.Machine
end

