-- ==== Sys2Proof/Machine/Dispatch.lean ====
section
/-! DEFINITION. The meaning of every operation: one arm per constructor of `Instr`. -/

namespace Sys2Proof.Machine

def exec (i : Instr) (s : State) : Host.Outcome State Fault Refusal :=
  match i with
  | .reset => Sys2Proof.Machine.execReset s
  | .tick => Sys2Proof.Machine.execTick s
  | .aSeekMiss b g => Sys2Proof.Machine.execASeekMiss b g s
  | .aSeekFlush b g => Sys2Proof.Machine.execASeekFlush b g s
  | .aSeekHit b => Sys2Proof.Machine.execASeekHit b s
  | .aSeekGap b => Sys2Proof.Machine.execASeekGap b s
  | .aAccStore b => Sys2Proof.Machine.execAAccStore b s
  | .aAccLast b => Sys2Proof.Machine.execAAccLast b s
  | .aAccAbort b => Sys2Proof.Machine.execAAccAbort b s
  | .aValPass => Sys2Proof.Machine.execAValPass s
  | .aValFail => Sys2Proof.Machine.execAValFail s
  | .dXor v => Sys2Proof.Machine.execDXor v s
  | .dTemp frame k => Sys2Proof.Machine.execDTemp frame k s
  | .dRelay frame j => Sys2Proof.Machine.execDRelay frame j s
  | .dFrame frame => Sys2Proof.Machine.execDFrame frame s
  | .pFeed b g => Sys2Proof.Machine.execPFeed b g s
  | .pPoll bs => Sys2Proof.Machine.execPPoll bs s
  | .frameRef fr => Sys2Proof.Machine.execFrameRef fr s

end Sys2Proof.Machine
end

