-- ==== Sys2Proof/Machine/Fetch.lean ====
section
/-! DEFINITION. What the next step runs: which input is taken (spec/30_encoding.md R83,
spec/40_bytesource_interface.md R104, spec/60_exceptions.md R192), the item that is decoded, and the preparation of
a state in which a given operation comes next. -/

namespace Sys2Proof.Machine

/-- What a step is about to do. -/
inductive Fetched where
  /-- Run an operation, the input it consumes taken away. -/
  | run (i : Instr) (s : State)
  /-- Nothing: the core is idle and its state holds (R83, R109, R202). -/
  | idle (s : State)
  /-- Refuse an item. -/
  | refuse (r : Refusal)
deriving DecidableEq, Repr

/-- The first input that does not wait; those before it stay, in order (log 7). -/
def takePastWaiting : List Input → Option (Input × List Input)
  | [] => none
  | x :: xs =>
    if Input.waits x then (takePastWaiting xs).map fun p => (p.1, x :: p.2) else some (x, xs)

/-- The input this step takes and what stays pending, in the order of arrival. With `in_ready = 1` the first one
is taken, whatever it is. In `VALIDATING` a byte or a call waits and the internal step goes first (R192). Under
`cfg_error = 1` bytes and calls wait for ever, and only `RESET` and `TICK` are taken (R190). -/
def takeInput (s : State) : Option (Input × List Input) :=
  if s.cfgError then takePastWaiting s.input
  else
    match s.input with
    | [] => none
    | x :: xs => if s.st = .validating ∧ Input.waits x = true then none else some (x, xs)

/-- Whether a host may call the operation: it has no dispatch encoding (R80; log 9). -/
def callable : Instr → Bool
  | .reset => false
  | .tick => false
  | .aSeekMiss _ _ => false
  | .aSeekFlush _ _ => false
  | .aSeekHit _ => false
  | .aSeekGap _ => false
  | .aAccStore _ => false
  | .aAccLast _ => false
  | .aAccAbort _ => false
  | .aValPass => false
  | .aValFail => false
  | .dXor _ => true
  | .dTemp _ _ => true
  | .dRelay _ _ => true
  | .dFrame _ => true
  | .pFeed _ _ => true
  | .pPoll _ => true
  | .frameRef _ => true

/-- The operation that an event, or the absence of one, selects through the dispatch word (R79, R80). A dispatch
word that selects nothing without an event is the idle core (R83). -/
def fetchSelected (s : State) (ev : Option InEvent) : Fetched :=
  match decode (dispatchBytes s ev) with
  | .ok (i, _) => .run i s
  | .error .idle => .idle (beginStep s)
  | .error .configError => .idle (beginStep s)
  | .error e => .refuse (.undecodable e)

/-- The operation that a host's call names. -/
def fetchCalled (s : State) (code : List Byte) : Fetched :=
  match decode code with
  | .ok (i, []) => if callable i then .run i s else .refuse .notCallable
  | .ok (_, _ :: _) => .refuse (.undecodable .trailingBytes)
  | .error e => .refuse (.undecodable e)

/-- What the next step does. -/
def fetch (s : State) : Fetched :=
  match takeInput s with
  | some (.event e, rest) => fetchSelected { s with input := rest } (some e)
  | some (.call code, rest) => fetchCalled { s with input := rest } code
  | none => fetchSelected s none

/-! ### Preparing a state in which a given operation comes next (log 17) -/

/-- Put an input in front of the pending ones. -/
def offer (x : Input) (s : State) : State :=
  { s with input := x :: s.input }

/-- A state in which a call is taken, with the call offered. -/
def offerCall (code : List Byte) (s : State) : State :=
  offer (.call code)
    { s with cfgError := false, st := if s.st = .validating then .seekingStart else s.st }

/-- A state that accepts bytes, in the assembler state `st`, with the byte `y` offered. -/
def offerByte (st : AsmState) (y : Symbol) (s : State) : State :=
  offer (Input.ofSymbol y) { s with cfgError := false, st := st }

/-- Make the byte start no frame: a one-byte signature that differs from it, unless it starts none already. -/
def withoutStart (y : Symbol) (s : State) : State :=
  if gapm s y || hit s y then
    { s with cfg := { s.cfg with startMode := .sentinel, sync := [~~~y.b] }, matchLen := 0 }
  else s

/-- Make the byte complete the signature: a one-byte signature equal to it, unless it completes one already. -/
def withHit (y : Symbol) (s : State) : State :=
  if hit s y then s
  else { s with cfg := { s.cfg with startMode := .sentinel, sync := [y.b] }, matchLen := 0 }

/-- Gap mode, whose signature is empty (R6). -/
def withGapMode (s : State) : State :=
  { s with cfg := { s.cfg with startMode := .gap, sync := [] } }

/-- Make the seek window exceeded by the next byte, or not. -/
def withWindow (exceeded : Bool) (s : State) : State :=
  if exceeded then { s with seekCount := s.cfg.seekWindow }
  else { s with seekCount := 0, cfg := { s.cfg with seekWindow := max 1 s.cfg.seekWindow } }

/-- Make the next byte fill the frame, or not. -/
def withLast (fills : Bool) (s : State) : State :=
  if fills then
    { s with count := s.cfg.frameLen - 1, cfg := { s.cfg with frameLen := max 1 s.cfg.frameLen } }
  else if lastByte s then { s with count := s.cfg.frameLen }
  else s

/-- A complete frame in `VALIDATING` with no event to take first: all bytes 0, which is valid, or with the
checksum byte 1, which is not. -/
def withFrame (valid : Bool) (s : State) : State :=
  let n := max 1 s.cfg.frameLen
  { s with
    cfgError := false
    st := .validating
    cfg := { s.cfg with frameLen := n }
    count := n
    buf := (List.range n).map fun i => (i, if valid || i + 1 < n then (0 : Byte) else 1)
    input := s.input.dropWhile fun x => !Input.waits x }

/-- The state `s` changed so that the next step runs `i`. -/
def State.selecting (s : State) (i : Instr) : State :=
  match i with
  | .reset => offer (.event .reset) s
  | .tick => offer (.event .tick) s
  | .aSeekMiss b g => withoutStart ⟨b, g⟩ (withWindow false (offerByte .seekingStart ⟨b, g⟩ s))
  | .aSeekFlush b g => withoutStart ⟨b, g⟩ (withWindow true (offerByte .seekingStart ⟨b, g⟩ s))
  | .aSeekHit b => withHit ⟨b, false⟩ (offerByte .seekingStart ⟨b, false⟩ s)
  | .aSeekGap b => withGapMode (offerByte .seekingStart ⟨b, true⟩ s)
  | .aAccStore b => withLast false (offerByte .accumulating ⟨b, false⟩ s)
  | .aAccLast b => withLast true (offerByte .accumulating ⟨b, false⟩ s)
  | .aAccAbort b => withGapMode (offerByte .accumulating ⟨b, true⟩ s)
  | .aValPass => withFrame true s
  | .aValFail => withFrame false s
  | .dXor v => offerCall (encode (.dXor v)) s
  | .dTemp frame k => offerCall (encode (.dTemp frame k)) s
  | .dRelay frame j => offerCall (encode (.dRelay frame j)) s
  | .dFrame frame => offerCall (encode (.dFrame frame)) s
  | .pFeed b g => offerCall (encode (.pFeed b g)) s
  | .pPoll bs => offerCall (encode (.pPoll bs)) s
  | .frameRef fr => offerCall (encode (.frameRef fr)) s

/-- The state `s` with a word of the operation table placed where the next step finds it; a word that decodes to
nothing is offered as a call, which the step refuses. -/
def placeWord (s : State) (nbits w : Nat) : State :=
  match decodeTableWord nbits w with
  | some i => s.selecting i
  | none => offerCall (bytesLow ((nbits + 7) / 8) w) s

end Sys2Proof.Machine
end

