-- ==== Sys2Proof/Machine/Stimulus.lean ====
section
/-! DEFINITION. Stimulus programs (spec/30_encoding.md R86, R87): how a test bench places events at the inputs. -/

namespace Sys2Proof.Machine

/-- A line of a stimulus program (R86). The lists of R86 have at least one element, here the first argument. -/
inductive StimulusLine where
  | reset
  | tick
  | byte (b : Byte) (gap : Bool)
  | bytes (h0 : Byte) (hs : List Byte)
  | frame (h0 : Byte) (hs : List Byte)
  | gframe (h0 : Byte) (hs : List Byte)
deriving DecidableEq, Repr

/-- The operations of a line (R86, R87): every byte is fed with `P.FEED`; `FRAME` and `GFRAME` append the correct
checksum. -/
def StimulusLine.expand : StimulusLine → List Instr
  | .reset => [.reset]
  | .tick => [.tick]
  | .byte b gap => [.pFeed b gap]
  | .bytes h0 hs => (h0 :: hs).map fun b => .pFeed b false
  | .frame h0 hs => (h0 :: hs ++ [sum8 (h0 :: hs)]).map fun b => .pFeed b false
  | .gframe h0 hs => .pFeed h0 true :: (hs ++ [sum8 (h0 :: hs)]).map fun b => .pFeed b false

/-- The input that makes a step run an operation of a stimulus program: an event, or a call. -/
def Input.ofInstr : Instr → Input
  | .reset => .event .reset
  | .tick => .event .tick
  | i => .call (encode i)

/-- Place a stimulus program behind the inputs that are pending (log 6). -/
def loadStimulus (program : List StimulusLine) (s : State) : State :=
  { s with input := s.input ++ (program.flatMap StimulusLine.expand).map Input.ofInstr }

end Sys2Proof.Machine
end

