-- ==== Sys2Proof/Machine/Ports.lean ====
section
/-! DEFINITION. The output ports and the status outputs of the core (spec/40_bytesource_interface.md R101,
spec/10_state.md R33, spec/30_encoding.md R81, R82), all functions of the state after a step. -/

namespace Sys2Proof.Machine

/-- `err_code` (R81): 3 while `cfg_error = 1`, else the code of the error raised in the last step, else 0. -/
def errCode (s : State) : BitVec 2 :=
  if s.cfgError then 3
  else if s.out.contains .errFraming then 1
  else if s.out.contains .errChecksum then 2
  else 0

/-- The readings of the last step, where it emitted any (R82). -/
def outReadings (s : State) : Option Readings :=
  s.out.findSome? fun e =>
    match e with
    | .readings r => some r
    | .errFraming => none
    | .errChecksum => none

/-- The outputs of R101. `outTemp` and `outRelay` carry no meaning when `outValid` is 0 (R82) and are then
absent. -/
structure Ports where
  inReady : Bool
  outValid : Bool
  outTemp : Option (List Raw)
  outRelay : Option (List Bool)
  errCode : BitVec 2
  cfgError : Bool
  st : BitVec 2
  count : Nat
  framingErrors : Nat
  checksumErrors : Nat
deriving DecidableEq, Repr

/-- The outputs after a step. `match_len` and `seek_count` are no outputs (R33, R35). -/
def ports (s : State) : Ports where
  inReady := s.inReady
  outValid := (outReadings s).isSome
  outTemp := (outReadings s).map Readings.temps
  outRelay := (outReadings s).map Readings.relays
  errCode := errCode s
  cfgError := s.cfgError
  st := stCode s.st
  count := s.count
  framingErrors := s.framingErrors
  checksumErrors := s.checksumErrors

end Sys2Proof.Machine
end

