-- ==== Sys2Proof/Safety.lean ====
section
/-! DEFINITION. What claims about the machine are stated with: the invariants of spec/41_frame_assembler.md R133 and
spec/60_exceptions.md R190, and views of a state that leave the model's own fields out. -/

namespace Sys2Proof.Machine

/-- `cfg_error` says whether the configuration is ill-formed (spec/10_state.md R28). -/
abbrev CfgErrorAgrees (s : State) : Prop :=
  s.cfgError = !cfgOk s.cfg

/-- Under `cfg_error` every element keeps its reset value and nothing has been emitted (R190). -/
abbrev InertUnderError (s : State) : Prop :=
  s.cfgError = true → s.st = .seekingStart ∧ s.framingErrors = 0 ∧ s.checksumErrors = 0 ∧ s.matchLen = 0
    ∧ s.seekCount = 0 ∧ s.buf = [] ∧ s.trace = []

/-- The invariant of `count` (R23). -/
abbrev CountInv (s : State) : Prop :=
  (s.st = .seekingStart → s.count = 0)
    ∧ (s.st = .accumulating → max 1 (syncLen s.cfg) ≤ s.count ∧ s.count + 1 ≤ s.cfg.frameLen)
    ∧ (s.st = .validating → s.count = s.cfg.frameLen)

/-- The invariants of `match_len` and `seek_count` (R24, R25). -/
abbrev SeekInv (s : State) : Prop :=
  s.matchLen ≤ syncLen s.cfg - 1 ∧ s.seekCount ≤ s.cfg.seekWindow
    ∧ (s.st ≠ .seekingStart → s.matchLen = 0 ∧ s.seekCount = 0)

/-- The error counters have `CNT_W` bits (R31, R32). -/
abbrev CountersFit (s : State) : Prop :=
  s.framingErrors < 2 ^ s.cfg.cntW ∧ s.checksumErrors < 2 ^ s.cfg.cntW

/-- `buf` is in its canonical form, inside the frame space, and holds the partial frame `buf[0..count)`
(R22, R23, spec/20_memory.md R50). -/
abbrev BufInv (s : State) : Prop :=
  Memory.wf s.buf = true ∧ Memory.within s.cfg.frameLen s.buf = true
    ∧ ∀ i, i < s.count → (Memory.lookup s.buf i).isSome = true

/-- The invariant of the core (R133, R190). -/
abbrev Inv (s : State) : Prop :=
  CfgErrorAgrees s ∧ InertUnderError s ∧ CountInv s ∧ SeekInv s ∧ CountersFit s ∧ BufInv s

/-- The core's state without the model's own fields: the tuple of spec/10_state.md R20 with the configuration. -/
def coreView (s : State) : State :=
  { s with bufEpoch := 0, input := [], out := [], trace := [], funcResult := none }

/-- Two states that differ at most in bytes of `buf` the spec says are never observed: those at indices `count`
and above, and those nothing has written (R22, R36, U10). -/
abbrev SameObserved (s t : State) : Prop :=
  { s with buf := t.buf, bufEpoch := t.bufEpoch } = t
    ∧ ∀ i, i < s.count → Memory.lookup s.buf i = Memory.lookup t.buf i

/-- The state without the output events of the last step. -/
def quiet (s : State) : State :=
  { s with out := [] }

/-- A property of the next state of an outcome, where there is one. -/
def HasNext (o : Host.Outcome State Fault Refusal) (p : State → Prop) : Prop :=
  ∃ t, o = .next t ∧ p t

/-- Apply a view to the next state of an outcome. -/
def mapNext (f : State → State) (o : Host.Outcome State Fault Refusal) : Host.Outcome State Fault Refusal :=
  andThen o fun s => .next (f s)

/-- `k` steps of the machine. -/
def runSteps (k : Nat) (s : State) : Host.Outcome State Fault Refusal :=
  match k with
  | 0 => .next s
  | k + 1 => andThen (step s) (runSteps k)

/-- A sequence of operations, one after the other (spec/43_poll_cycle.md R173). -/
def runInstrs (is : List Instr) (s : State) : Host.Outcome State Fault Refusal :=
  match is with
  | [] => .next s
  | i :: is => andThen (exec i s) (runInstrs is)

/-- The symbols of a frame whose first byte alone is flagged (spec/43_poll_cycle.md R177 (a)). -/
def flaggedFrame : List Byte → List Symbol
  | [] => []
  | b :: bs => ⟨b, true⟩ :: plainSymbols bs

/-- The edges of the transition graph of `st` that a byte step can take (R27). -/
def byteEdge : AsmState → AsmState → Bool
  | .seekingStart, .seekingStart => true
  | .seekingStart, .accumulating => true
  | .seekingStart, .validating => false
  | .accumulating, .seekingStart => false
  | .accumulating, .accumulating => true
  | .accumulating, .validating => true
  | .validating, .seekingStart => false
  | .validating, .accumulating => false
  | .validating, .validating => false

end Sys2Proof.Machine
end

