-- ==== Sys2Proof/Certificates/Slice0/Obligations.lean ====
section
/-! DEFINITION. The statements about the model, one `def Obligations.<Name> : Prop` each. -/

open Sys2Proof Sys2Proof.Machine

/-! ### Encoding and dispatch -/

/-- Decode and encode agree: no bit of an operand is dropped. The item words are partly the model's own (log 8). -/
def Obligations.DecodeOfEncodeIsInstruction : Prop :=
  ∀ (i : Instr) (rest : List Byte), WellFormed i → decode (encode i ++ rest) = .ok (i, rest)

/-- Words written out from the table of R80 and the symbol of R77, and what they decode to; that the symbol
follows the dispatch word is the model's choice (log 8). -/
def Obligations.TableWordsDecode : Prop :=
  decodeTableWord 16 0b0000000110000000 = some .reset ∧
  decodeTableWord 16 0b0000000100000000 = some .tick ∧
  decodeTableWord 32 0b00000001010101010000000010000100 = some (.aSeekFlush 0x55 true) ∧
  decodeTableWord 32 0b00000001000100000000000010110000 = some (.aAccAbort 0x10) ∧
  decodeTableWord 16 0b0000000001000001 = some .aValPass ∧
  decodeTableWord 16 0b0000000000000000 = none

/-- The match and mask of each row of R80: a dispatch word selects an operation exactly when its masked bits are
the row's. -/
def Obligations.OperationMapMasks : Prop :=
  ∀ sel : Sel,
    (operationOf sel = some .reset ↔ sel &&& 0x180 = 0x180) ∧
    (operationOf sel = some .tick ↔ sel &&& 0x180 = 0x100) ∧
    (operationOf sel = some .seekMiss ↔ sel &&& 0x3FC = 0x080) ∧
    (operationOf sel = some .seekFlush ↔ sel &&& 0x3FC = 0x084) ∧
    (operationOf sel = some .seekHit ↔ sel &&& 0x3F8 = 0x088) ∧
    (operationOf sel = some .seekGap ↔ sel &&& 0x3F0 = 0x090) ∧
    (operationOf sel = some .accStore ↔ sel &&& 0x3F2 = 0x0A0) ∧
    (operationOf sel = some .accLast ↔ sel &&& 0x3F2 = 0x0A2) ∧
    (operationOf sel = some .accAbort ↔ sel &&& 0x3F0 = 0x0B0) ∧
    (operationOf sel = some .valPass ↔ sel &&& 0x3E1 = 0x041) ∧
    (operationOf sel = some .valFail ↔ sel &&& 0x3E1 = 0x040)

/-- R80: the rows are disjoint, and every dispatch word that a state with `in_ready` respected presents selects
exactly one row. -/
def Obligations.DispatchSelectsExactlyOneRow : Prop :=
  (∀ (sel : Sel) (row row' : OpRow), row ∈ opRows → row' ∈ opRows → row.selects sel = true →
    row'.selects sel = true → row = row') ∧
  ∀ (s : State) (ev : Option InEvent),
    (∀ y, ev = some (.byte y) → s.inReady = true) →
    (ev = none → s.cfgError = false ∧ s.st = .validating) →
    ∃ row ∈ opRows, row.selects (dispatchWord s ev) = true ∧
      ∀ row' ∈ opRows, row'.selects (dispatchWord s ev) = true → row' = row

/-- R83: the dispatch words that select nothing are those of its first four rows. -/
def Obligations.NonSelectingWords : Prop :=
  ∀ sel : Sel, operationOf sel = none ↔
    (sel.getLsbD 9 = true ∧ sel.getLsbD 8 = false) ∨
    (sel.getLsbD 8 = false ∧ sel.extractLsb' 5 2 = 0b11#2) ∨
    (sel.extractLsb' 7 2 = 0b01#2 ∧ sel.extractLsb' 5 2 = 0b10#2) ∨
    (sel.extractLsb' 7 2 = 0b00#2 ∧ sel.extractLsb' 5 2 ≠ 0b10#2)

/-! ### What a step runs -/

/-- A step whose event makes the dispatch word decode to an operation runs that operation, with the event taken
away; without an event the pending inputs stay. The queue and the call items are the model's (log 6, log 8, log 9). -/
def Obligations.StepRunsTheDecodedOperation : Prop :=
  (∀ (s : State) (e : InEvent) (rest : List Input) (i : Instr) (more : List Byte),
    takeInput s = some (.event e, rest) →
    decode (dispatchBytes { s with input := rest } (some e)) = .ok (i, more) →
    step s = exec i { s with input := rest }) ∧
  (∀ (s : State) (i : Instr) (more : List Byte), takeInput s = none →
    decode (dispatchBytes s none) = .ok (i, more) → step s = exec i s) ∧
  ∀ (s : State) (code : List Byte) (rest : List Input) (i : Instr),
    takeInput s = some (.call code, rest) → decode code = .ok (i, []) → callable i = true →
    step s = exec i { s with input := rest }

/-- Every well-formed operation is one that a step can come to run: the state prepared for it fetches exactly it.
The preparation is the model's choice (log 17). -/
def Obligations.EveryOperationCanBeFetched : Prop :=
  ∀ (s : State) (i : Instr), WellFormed i → ∃ t, fetch (s.selecting i) = .run i t

/-- With nothing to take and no internal step pending, the core is idle and its state holds. That a
step then answers a next state is the model's choice (log 18). -/
def Obligations.IdleCoreHolds : Prop :=
  ∀ s : State, s.input = [] → s.st ≠ .validating → step s = .next { s with out := [] }

/-- A byte or a host's call offered while `in_ready = 0` is not taken: in `VALIDATING` the internal step runs and it
waits; under `cfg_error` nothing runs and all such inputs wait (that calls wait too is log 9; log 7, log 18). -/
def Obligations.ByteWaitsWhileNotReady : Prop :=
  (∀ (s : State) (x : Input) (rest : List Input), s.cfgError = false → s.st = .validating →
    Input.waits x = true → s.input = x :: rest →
    step s = exec (if checksumOk s.frame then .aValPass else .aValFail) s) ∧
  ∀ s : State, s.cfgError = true → (∀ x ∈ s.input, Input.waits x = true) →
    step s = .next { s with out := [] }

/-! ### RESET and TICK -/

/-- R210: `RESET` in every state. What it leaves in `buf` is `ResetLeavesBufferUnspecified`. -/
def Obligations.ResetResult : Prop :=
  ∀ s : State, selected s (some .reset) = some .reset ∧
    HasNext (exec .reset s) fun t =>
      t.cfg = s.cfg ∧ t.cfgError = !cfgOk s.cfg ∧ t.st = .seekingStart ∧ t.count = 0 ∧ t.matchLen = 0 ∧
      t.seekCount = 0 ∧ t.framingErrors = 0 ∧ t.checksumErrors = 0 ∧ t.out = [] ∧ t.trace = s.trace

/-- The model's own choices about `RESET`: a byte of `buf` reads as the free value of the new epoch afterwards
(log 3, log 4), and the pending inputs and the host's last function value stay (log 15). -/
def Obligations.ResetLeavesBufferUnspecified : Prop :=
  ∀ s : State, HasNext (exec .reset s) fun t =>
    (∀ i, Memory.lookup t.buf i = none ∧ t.bufByte i = Config.unspecifiedByte (s.bufEpoch + 1) i) ∧
    t.bufEpoch = s.bufEpoch + 1 ∧ t.input = s.input ∧ t.funcResult = s.funcResult

/-- `TICK` in every state: no state element changes and nothing is emitted. -/
def Obligations.TickChangesNothing : Prop :=
  ∀ s : State, selected s (some .tick) = some .tick ∧ exec .tick s = .next { s with out := [] }

/-! ### The assembler -/

/-- R124: `A.SEEK.MISS`, when it is selected and all it does. -/
def Obligations.SeekMissResult : Prop :=
  ∀ (s : State) (b : Byte) (g : Bool),
    (selected s (some (.byte ⟨b, g⟩)) = some .seekMiss ↔
      s.cfgError = false ∧ s.st = .seekingStart ∧ gapm s ⟨b, g⟩ = false ∧ hit s ⟨b, g⟩ = false ∧
      s.seekCount + 1 ≤ s.cfg.seekWindow) ∧
    exec (.aSeekMiss b g) s =
      .next { s with
        matchLen := (match s.cfg.startMode with
          | .sentinel => advance s.cfg.sync s.matchLen b
          | .gap => 0)
        seekCount := s.seekCount + 1
        out := [] }

/-- R125: `A.SEEK.FLUSH`, when it is selected and all it does. -/
def Obligations.SeekFlushResult : Prop :=
  ∀ (s : State) (b : Byte) (g : Bool),
    (selected s (some (.byte ⟨b, g⟩)) = some .seekFlush ↔
      s.cfgError = false ∧ s.st = .seekingStart ∧ gapm s ⟨b, g⟩ = false ∧ hit s ⟨b, g⟩ = false ∧
      s.cfg.seekWindow < s.seekCount + 1) ∧
    exec (.aSeekFlush b g) s =
      .next { s with
        matchLen := (match s.cfg.startMode with
          | .sentinel => advance s.cfg.sync s.matchLen b
          | .gap => 0)
        seekCount := 0
        framingErrors := (s.framingErrors + 1) % 2 ^ s.cfg.cntW
        out := [.errFraming]
        trace := s.trace ++ [.errFraming] }

/-- R126: `A.SEEK.HIT`, when it is selected (whatever the seek window says) and all it does. -/
def Obligations.SeekHitResult : Prop :=
  ∀ (s : State) (b : Byte),
    (∀ g, selected s (some (.byte ⟨b, g⟩)) = some .seekHit ↔
      s.cfgError = false ∧ s.st = .seekingStart ∧ s.cfg.startMode = .sentinel ∧
      advance s.cfg.sync s.matchLen b = s.cfg.sync.length) ∧
    (s.cfg.sync.length ≤ s.cfg.frameLen →
      HasNext (exec (.aSeekHit b) s) fun t =>
        { t with buf := s.buf } = { s with
          count := s.cfg.sync.length
          matchLen := 0
          seekCount := 0
          st := .accumulating
          out := [] } ∧
        ∀ a, t.bufByte a = (s.cfg.sync[a]?).getD (s.bufByte a))

/-- R127: `A.SEEK.GAP`, when it is selected (whatever the seek window says) and all it does. -/
def Obligations.SeekGapResult : Prop :=
  ∀ (s : State) (b : Byte),
    (∀ g, selected s (some (.byte ⟨b, g⟩)) = some .seekGap ↔
      s.cfgError = false ∧ s.st = .seekingStart ∧ s.cfg.startMode = .gap ∧ g = true) ∧
    (1 ≤ s.cfg.frameLen →
      HasNext (exec (.aSeekGap b) s) fun t =>
        { t with buf := s.buf } = { s with
          count := 1
          seekCount := 0
          st := .accumulating
          out := [] } ∧
        ∀ a, t.bufByte a = if a = 0 then b else s.bufByte a)

/-- R128: `A.ACC.STORE`, when it is selected and all it does. -/
def Obligations.AccStoreResult : Prop :=
  ∀ (s : State) (b : Byte),
    (∀ g, selected s (some (.byte ⟨b, g⟩)) = some .accStore ↔
      s.cfgError = false ∧ s.st = .accumulating ∧ gapm s ⟨b, g⟩ = false ∧ s.count + 1 ≠ s.cfg.frameLen) ∧
    (s.count < s.cfg.frameLen →
      HasNext (exec (.aAccStore b) s) fun t =>
        { t with buf := s.buf } = { s with count := s.count + 1, out := [] } ∧
        ∀ a, t.bufByte a = if a = s.count then b else s.bufByte a)

/-- R129: `A.ACC.LAST`, when it is selected and all it does. -/
def Obligations.AccLastResult : Prop :=
  ∀ (s : State) (b : Byte),
    (∀ g, selected s (some (.byte ⟨b, g⟩)) = some .accLast ↔
      s.cfgError = false ∧ s.st = .accumulating ∧ gapm s ⟨b, g⟩ = false ∧ s.count + 1 = s.cfg.frameLen) ∧
    (s.count < s.cfg.frameLen →
      HasNext (exec (.aAccLast b) s) fun t =>
        { t with buf := s.buf } =
          { s with count := s.cfg.frameLen, st := .validating, out := [] } ∧
        t.inReady = false ∧
        ∀ a, t.bufByte a = if a = s.count then b else s.bufByte a)

/-- R130: `A.ACC.ABORT`, when it is selected (even on the byte that would fill the frame) and all it does. -/
def Obligations.AccAbortResult : Prop :=
  ∀ (s : State) (b : Byte),
    (∀ g, selected s (some (.byte ⟨b, g⟩)) = some .accAbort ↔
      s.cfgError = false ∧ s.st = .accumulating ∧ s.cfg.startMode = .gap ∧ g = true) ∧
    (1 ≤ s.cfg.frameLen →
      HasNext (exec (.aAccAbort b) s) fun t =>
        { t with buf := s.buf } = { s with
          framingErrors := (s.framingErrors + 1) % 2 ^ s.cfg.cntW
          count := 1
          seekCount := 0
          out := [.errFraming]
          trace := s.trace ++ [.errFraming] } ∧
        ∀ a, t.bufByte a = if a = 0 then b else s.bufByte a)

/-- R131: `A.VAL.PASS`, when it is selected and all it does; the readings are those of the bytes of `buf`. -/
def Obligations.ValPassResult : Prop :=
  ∀ s : State,
    (1 ≤ s.cfg.frameLen →
      (selected s none = some .valPass ↔ s.cfgError = false ∧ s.st = .validating ∧
        s.bufByte (s.cfg.frameLen - 1) = sum8 ((List.range (s.cfg.frameLen - 1)).map s.bufByte))) ∧
    (cfgOk s.cfg = true →
      ∃ r : Readings,
        exec .aValPass s = .next { s with
          out := [.readings r]
          trace := s.trace ++ [.readings r]
          count := 0
          matchLen := 0
          seekCount := 0
          st := .seekingStart } ∧
        r.temps = (List.finRange 6).map (fun i =>
          (xorTransform s.cfg (s.bufByte s.cfg.tempOffset[i]) ++
            xorTransform s.cfg (s.bufByte (s.cfg.tempOffset[i] + 1)) : Raw)) ∧
        r.relays = (List.range s.cfg.nRelays).map fun j =>
          (xorTransform s.cfg (s.bufByte s.cfg.relayOffset)).getLsbD j)

/-- R132: `A.VAL.FAIL`, when it is selected and all it does. -/
def Obligations.ValFailResult : Prop :=
  ∀ s : State,
    (1 ≤ s.cfg.frameLen →
      (selected s none = some .valFail ↔ s.cfgError = false ∧ s.st = .validating ∧
        s.bufByte (s.cfg.frameLen - 1) ≠ sum8 ((List.range (s.cfg.frameLen - 1)).map s.bufByte))) ∧
    exec .aValFail s = .next { s with
      checksumErrors := (s.checksumErrors + 1) % 2 ^ s.cfg.cntW
      out := [.errChecksum]
      trace := s.trace ++ [.errChecksum]
      count := 0
      matchLen := 0
      seekCount := 0
      st := .seekingStart }

/-- R121: `advance` is the length of the longest prefix of `SYNC` that ends the matched bytes followed by `b`, and
it is `m + 1` exactly when `b` is the next signature byte. -/
def Obligations.AdvanceIsTheLongestOverlap : Prop :=
  ∀ (sync : List Byte) (m : Nat) (b : Byte), m < sync.length →
    advance sync m b ≤ m + 1 ∧
    sync.take (advance sync m b) <:+ sync.take m ++ [b] ∧
    (∀ k, k ≤ m + 1 → sync.take k <:+ sync.take m ++ [b] → k ≤ advance sync m b) ∧
    (advance sync m b = m + 1 ↔ sync[m]? = some b)

/-! ### The decoder -/

/-- R151: `D.XOR`, its value and that it is its own inverse; it changes no state of the core.
The value is kept in the model's own field (log 10). -/
def Obligations.XorResult : Prop :=
  ∀ (s : State) (v : Byte),
    exec (.dXor v) s = .next { s with
      out := []
      funcResult := some (.byte (if s.cfg.xorEn then v ^^^ s.cfg.xorMask else v)) } ∧
    xorTransform s.cfg (xorTransform s.cfg v) = v

/-- R152: `D.TEMP` of a Frame; it changes no state of the core. The value is kept in the model's own field
(log 10). -/
def Obligations.TempResult : Prop :=
  ∀ (s : State) (frame : List Byte) (i : Fin 6) (hi lo : Byte),
    frame.length = s.cfg.frameLen → frame[s.cfg.tempOffset[i]]? = some hi →
    frame[s.cfg.tempOffset[i] + 1]? = some lo →
    ∃ raw : Raw,
      raw.toNat = 256 * (xorTransform s.cfg hi).toNat + (xorTransform s.cfg lo).toNat ∧
      exec (.dTemp frame i) s = .next { s with
        out := []
        funcResult := some (.temp raw
          (if s.cfg.tempSigned = true ∧ 32768 ≤ raw.toNat then (raw.toNat : Int) - 65536
            else (raw.toNat : Int))) }

/-- R154: `D.RELAY` of a Frame; it changes no state of the core. The value is kept in the model's own field
(log 10). -/
def Obligations.RelayResult : Prop :=
  ∀ (s : State) (frame : List Byte) (j : Fin 8) (status : Byte),
    frame.length = s.cfg.frameLen → frame[s.cfg.relayOffset]? = some status → j.val < s.cfg.nRelays →
    exec (.dRelay frame j) s = .next { s with
      out := []
      funcResult := some (.relay ((xorTransform s.cfg status).getLsbD j.val)) }

/-- R155: `D.FRAME` of a Frame is the six `D.TEMP` raw values and the `N_RELAYS` `D.RELAY` bits, in index order;
it changes no state of the core. The value is kept in the model's own field (log 10). -/
def Obligations.FrameResult : Prop :=
  ∀ (s : State) (frame : List Byte), cfgOk s.cfg = true → frame.length = s.cfg.frameLen →
    ∃ r : Readings,
      exec (.dFrame frame) s = .next { s with out := [], funcResult := some (.readings r) } ∧
      r.temps.length = 6 ∧ r.relays.length = s.cfg.nRelays ∧
      (∀ i : Fin 6, ∃ raw t, r.temps[i.val]? = some raw ∧
        HasNext (exec (.dTemp frame i) s) fun u => u.funcResult = some (.temp raw t)) ∧
      ∀ j : Fin 8, j.val < s.cfg.nRelays → ∃ bit, r.relays[j.val]? = some bit ∧
        HasNext (exec (.dRelay frame j) s) fun u => u.funcResult = some (.relay bit)

/-- An operand that is no Frame of the configuration stops `D.TEMP`, `D.FRAME` and `D.RELAY` by name, and an index
that is no relay of it stops `D.RELAY` whatever the other operand is (the model's own stops, log 12). -/
def Obligations.DecoderStopsOnForeignOperands : Prop :=
  ∀ (s : State) (frame : List Byte),
    (frame.length ≠ s.cfg.frameLen →
      (∀ i, exec (.dTemp frame i) s = .fault (.notAFrame frame.length)) ∧
      exec (.dFrame frame) s = .fault (.notAFrame frame.length) ∧
      ∀ j : Fin 8, j.val < s.cfg.nRelays →
        exec (.dRelay frame j) s = .fault (.notAFrame frame.length)) ∧
    ∀ j : Fin 8, s.cfg.nRelays ≤ j.val → exec (.dRelay frame j) s = .fault (.noSuchRelay j.val)

/-- R52, R53: the 16-bit field of a frame at index `o` is its one-byte reads at `o` and `o + 1`, each transformed by
itself (R72), the one at the lower index in the high byte. -/
def Obligations.FieldBytesAreConsistent : Prop :=
  (∀ (cfg : Cfg) (frame : List Byte) (i : Fin 6) (hi lo : Byte),
    memRead1 frame cfg.tempOffset[i] = .ok hi → memRead1 frame (cfg.tempOffset[i] + 1) = .ok lo →
    ∃ raw, readTemp cfg frame i = .ok raw ∧
      raw.extractLsb' 8 8 = xorTransform cfg hi ∧ raw.extractLsb' 0 8 = xorTransform cfg lo) ∧
  ∀ hi lo : Byte, (rawOf hi lo).extractLsb' 8 8 = hi ∧ (rawOf hi lo).extractLsb' 0 8 = lo ∧
    (rawOf hi lo).toNat = hi.toNat * 256 + lo.toNat

/-- R159: the readings depend on the bytes at the configured positions alone. -/
def Obligations.ReadingsDependOnDecodedBytesOnly : Prop :=
  ∀ (cfg : Cfg) (frame frame' : List Byte),
    (∀ i : Fin 6, frame[cfg.tempOffset[i]]? = frame'[cfg.tempOffset[i]]? ∧
      frame[cfg.tempOffset[i] + 1]? = frame'[cfg.tempOffset[i] + 1]?) →
    frame[cfg.relayOffset]? = frame'[cfg.relayOffset]? →
    readFrame cfg frame = readFrame cfg frame'

/-! ### The poll cycle -/

/-- R170: `P.FEED` runs the operation that the byte selects and then the internal step if one is pending; it
completes from every state of the invariant with `in_ready = 1`, ends with `in_ready = 1`, and emits at most one
event. -/
def Obligations.FeedRunsToQuiescence : Prop :=
  ∀ (s : State) (b : Byte) (g : Bool), Inv s → s.inReady = true →
    ∃ (op : Operation) (s1 t : State),
      selected s (some (.byte ⟨b, g⟩)) = some op ∧
      exec (op.withSymbol ⟨b, g⟩) s = .next s1 ∧
      exec (.pFeed b g) s = .next t ∧
      (s1.st ≠ .validating → t = s1) ∧
      (s1.st = .validating → ∃ op2 : Operation, selected s1 none = some op2 ∧
        exec (op2.withSymbol ⟨0, false⟩) s1 = .next t) ∧
      t.inReady = true ∧
      (t.trace = s.trace ∨ ∃ e, t.trace = s.trace ++ [e])

/-- R171: `P.POLL` is a `TICK` and then one `P.FEED` per pulled byte, in order; it completes from every state of
the invariant with `in_ready = 1`. -/
def Obligations.PollFeedsInOrder : Prop :=
  ∀ (s : State) (bs : List Symbol), Inv s → s.inReady = true →
    exec (.pPoll bs) s = runInstrs (.tick :: bs.map fun y => .pFeed y.b y.g) s ∧
    ∃ t, exec (.pPoll bs) s = .next t

/-- A byte fed while `in_ready = 0` changes no element of the core and stays with the ByteSource, behind all that
arrived before it. R170 leaves this case out, and no step of the machine comes to it (the model's reading of R103
and R104, log 7). -/
def Obligations.FeedWhileNotReadyHoldsTheByte : Prop :=
  ∀ (s : State) (b : Byte) (g : Bool), s.inReady = false →
    exec (.pFeed b g) s = .next { s with out := [], input := s.input ++ [.event (.byte ⟨b, g⟩)] }

/-- `FRAME.REF`: in the reference variant, fed to a core that seeks with no match progress, a reference frame
gives the readings of its fields if its checksum byte is right and `ERR_CHECKSUM` if it is not; its bytes are
those of `buf` afterwards, and nothing else changes (log 11). -/
def Obligations.ReferenceFrameDecodesToItsFields : Prop :=
  ∀ (s : State) (fr : RefFrame), s.cfg = referenceCfg → s.cfgError = false → s.st = .seekingStart →
    s.matchLen = 0 → s.seekCount < 64 → WellFormed (.frameRef fr) →
    HasNext (exec (.frameRef fr) s) fun t =>
      t.st = .seekingStart ∧ t.count = 0 ∧ t.matchLen = 0 ∧ t.seekCount = 0 ∧
      t.framingErrors = s.framingErrors ∧ t.cfg = s.cfg ∧ t.cfgError = false ∧ t.bufEpoch = s.bufEpoch ∧
      t.input = s.input ∧ t.funcResult = s.funcResult ∧
      (∀ a, t.bufByte a = (fr.bytes[a]?).getD (s.bufByte a)) ∧ t.trace = s.trace ++ t.out ∧
      if fr.k = sum8 (fr.bytes.take 31) then
        t.checksumErrors = s.checksumErrors ∧
        t.out = [.readings {
          temps := [fr.a, fr.b, fr.c, fr.d, fr.e, fr.f]
          relays := [fr.r.getLsbD 0, fr.r.getLsbD 1, fr.r.getLsbD 2, fr.r.getLsbD 3] }]
      else
        t.checksumErrors = (s.checksumErrors + 1) % 2 ^ 32 ∧ t.out = [.errChecksum]

/-! ### Invariants and rules of the whole machine -/

/-- The reset state meets the invariant and accepts bytes. That it has the reference variant is the model's choice
(log 2). -/
def Obligations.ResetStateIsInvariant : Prop :=
  Inv State.reset ∧ State.reset.inReady = true ∧ State.reset.cfgError = false

/-- From every state of the invariant, a step ends in a state of the invariant; `RESET` ends in a state with the
invariants of R23, R24 and R25 from any state (R133). The invariant also holds the clauses of R22, R28, R31, R32 and
R190. Its part about the list form of `buf` is the model's own (log 3), and so is the form of the bounds on elements
that are naturals in the model (log 19). -/
def Obligations.StepKeepsTheInvariant : Prop :=
  (∀ s t : State, Inv s → step s = .next t → Inv t) ∧
  ∀ s : State, HasNext (exec .reset s) fun t => CountInv t ∧ SeekInv t

/-- From every state of the invariant a step has a next state, unless a host's call is taken. Where the core is idle,
or waits under `cfg_error`, the spec gives no step (R83), and that the step answers a next state is the model's choice
(log 18). -/
def Obligations.EventStepsComplete : Prop :=
  ∀ s : State, Inv s → (∀ code rest, takeInput s ≠ some (.call code, rest)) → ∃ t, step s = .next t

/-- R30, R216: no step writes the configuration. -/
def Obligations.ConfigurationIsImmutable : Prop :=
  ∀ s t : State, step s = .next t → t.cfg = s.cfg

/-- R27: the transition graph of `st`, for the steps that events and the internal step take. -/
def Obligations.TransitionGraph : Prop :=
  ∀ s t : State, step s = .next t →
    (∀ y rest, takeInput s = some (.event (.byte y), rest) → byteEdge s.st t.st = true) ∧
    (∀ rest, takeInput s = some (.event .reset, rest) → t.st = .seekingStart) ∧
    (∀ rest, takeInput s = some (.event .tick, rest) → t.st = s.st) ∧
    (takeInput s = none → s.cfgError = false → s.st = .validating → t.st = .seekingStart) ∧
    (takeInput s = none → (s.cfgError = true ∨ s.st ≠ .validating) → t.st = s.st)

/-- R34, R192: a step that takes an event, or the internal step, emits at most one event, and the output trace
grows by exactly what the step emits. -/
def Obligations.EachStepEmitsAtMostOneEvent : Prop :=
  ∀ s t : State, (∀ code rest, takeInput s ≠ some (.call code, rest)) → step s = .next t →
    t.out.length ≤ 1 ∧ t.trace = s.trace ++ t.out

/-- R31, R32, R34: the counters move only with their events, by one modulo `2^CNT_W`, but for `RESET`. -/
def Obligations.CountersCountTheErrors : Prop :=
  ∀ s t : State, (∀ code rest, takeInput s ≠ some (.call code, rest)) →
    (∀ rest, takeInput s ≠ some (.event .reset, rest)) → step s = .next t →
    t.framingErrors = (if .errFraming ∈ t.out then (s.framingErrors + 1) % 2 ^ s.cfg.cntW
      else s.framingErrors) ∧
    t.checksumErrors = (if .errChecksum ∈ t.out then (s.checksumErrors + 1) % 2 ^ s.cfg.cntW
      else s.checksumErrors)

/-- R190: under `cfg_error` no step changes an element of the core, no host's call is taken, so no decoder function
is evaluated, nothing is ever emitted, and `err_code` stays 3. -/
def Obligations.ConfigurationErrorIsInert : Prop :=
  ∀ s t : State, Inv s → s.cfgError = true → step s = .next t →
    (∀ code rest, takeInput s ≠ some (.call code, rest)) ∧ t.funcResult = s.funcResult ∧
    coreView t = coreView s ∧ t.out = [] ∧ t.trace = [] ∧ t.inReady = false ∧ errCode t = 3

/-- R81: `err_code` after a step that raises each error, and after one that raises none. -/
def Obligations.ErrorCodes : Prop :=
  ∀ s : State, s.cfgError = false →
    (∀ b g, HasNext (exec (.aSeekFlush b g) s) fun t => errCode t = 1) ∧
    (∀ b, 1 ≤ s.cfg.frameLen → HasNext (exec (.aAccAbort b) s) fun t => errCode t = 1) ∧
    HasNext (exec .aValFail s) (fun t => errCode t = 2) ∧
    HasNext (exec .tick s) (fun t => errCode t = 0) ∧
    HasNext (exec .reset s) (fun t => errCode t = if cfgOk s.cfg then 0 else 3)

/-- R22, R36: bytes of `buf` at indices `count` and above, and bytes nothing has written, are never observed: two
states of the invariant that differ in nothing else stay so, step by step. -/
def Obligations.UnspecifiedBytesAreNeverObserved : Prop :=
  ∀ s s' t : State, Inv s → Inv s' → SameObserved s s' → step s = .next t →
    ∃ t', step s' = .next t' ∧ SameObserved t t'

/-- The output record, the trace and the host's last function value are written and never read: the core's next
state and the events of the step do not depend on them (R21, R34; the fields are the model's own, log 5, log 10). -/
def Obligations.OutputsAreNeverRead : Prop :=
  ∀ (s t : State) (out trace : List OutEvent) (v : Option FuncResult), step s = .next t →
    ∃ t' new, step { s with out := out, trace := trace, funcResult := v } = .next t' ∧
      { coreView t' with bufEpoch := t'.bufEpoch, input := t'.input }
        = { coreView t with bufEpoch := t.bufEpoch, input := t.input } ∧
      t.trace = s.trace ++ new ∧ t'.trace = trace ++ new ∧ t'.out = t.out

/-! ### The testable properties -/

/-- R175: for any two ways of cutting a byte sequence into ticks, the final state and the output trace are equal.
It ranges over every state; where `in_ready = 0`, what `P.POLL` does with its bytes is the model's choice
(log 7). -/
def Obligations.TickInvariance : Prop :=
  ∀ (s : State) (ticks ticks' : List (List Symbol)), ticks.flatten = ticks'.flatten →
    mapNext quiet (runInstrs (ticks.map .pPoll) s) = mapNext quiet (runInstrs (ticks'.map .pPoll) s)

/-- R106: in sentinel mode the gap flag is ignored; in gap mode the signature is. -/
def Obligations.UnusedStartMethodIsIgnored : Prop :=
  (∀ (s : State) (b : Byte) (g g' : Bool), s.cfg.startMode = .sentinel → s.inReady = true →
    exec (.pFeed b g) s = exec (.pFeed b g') s ∧
    selected s (some (.byte ⟨b, g⟩)) ≠ some .seekGap ∧
    selected s (some (.byte ⟨b, g⟩)) ≠ some .accAbort) ∧
  ∀ (s : State) (b : Byte) (g : Bool) (sync : List Byte), s.cfg.startMode = .gap →
    selected s (some (.byte ⟨b, g⟩)) ≠ some .seekHit ∧
    exec (.pFeed b g) { s with cfg := { s.cfg with sync := sync } }
      = mapNext (fun t => { t with cfg := { t.cfg with sync := sync } }) (exec (.pFeed b g) s)

/-- R177 (a): in gap mode, a frame's worth of bytes whose first is flagged and no other gives exactly one event,
its readings if the last byte is the sum of the others and `ERR_CHECKSUM` otherwise. -/
def Obligations.ChecksumPropertyInGapMode : Prop :=
  ∀ (s : State) (b0 : Byte) (bs : List Byte), s.cfg.startMode = .gap → cfgOk s.cfg = true →
    s.cfgError = false → s.st = .seekingStart → s.matchLen = 0 →
    (b0 :: bs).length = s.cfg.frameLen →
    HasNext (exec (.pPoll (⟨b0, true⟩ :: plainSymbols bs)) s) fun t =>
      t.st = .seekingStart ∧ t.count = 0 ∧
      if (b0 :: bs).getLast? = some (sum8 (b0 :: bs).dropLast) then
        ∃ r, readFrame s.cfg (b0 :: bs) = .ok r ∧ t.trace = s.trace ++ [.readings r]
      else t.trace = s.trace ++ [.errChecksum]

/-- R177 (b): the same in sentinel mode for bytes that begin with `SYNC`, whatever the gap flags. Every time the
partial match exceeds the seek window there is one leading `ERR_FRAMING`: none under the rule's proviso
`seek_count + SYNC_LEN - 1 <= SEEK_WINDOW`, and as many as R125 gives where the proviso fails (log 23). -/
def Obligations.ChecksumPropertyInSentinelMode : Prop :=
  ∀ (s : State) (ys : List Symbol), s.cfg.startMode = .sentinel → cfgOk s.cfg = true →
    s.cfgError = false → s.st = .seekingStart → s.matchLen = 0 → s.seekCount ≤ s.cfg.seekWindow →
    ys.length = s.cfg.frameLen → s.cfg.sync <+: ys.map Symbol.b →
    HasNext (exec (.pPoll ys) s) fun t =>
      t.st = .seekingStart ∧ t.count = 0 ∧
      t.trace = s.trace
        ++ List.replicate ((s.seekCount + (s.cfg.sync.length - 1)) / (s.cfg.seekWindow + 1)) .errFraming
        ++ t.out ∧
      if (ys.map Symbol.b).getLast? = some (sum8 (ys.map Symbol.b).dropLast) then
        ∃ r, readFrame s.cfg (ys.map Symbol.b) = .ok r ∧ t.out = [.readings r]
      else t.out = [.errChecksum]

/-- R178 in sentinel mode: after junk in which no signature ends before the one of a valid frame, taking the kept
match progress into account, the valid frame is accepted and decoded, from every seeking state of the invariant; only
FramingErrors come before it. The other mode is `ResynchronizesOnTheNextFlaggedFrame`. -/
def Obligations.ResynchronizesOnTheNextValidFrame : Prop :=
  ∀ (s : State) (junk frame : List Byte), Inv s → s.cfgError = false → s.st = .seekingStart →
    s.cfg.startMode = .sentinel →
    frame.length = s.cfg.frameLen → s.cfg.sync <+: frame →
    frame.getLast? = some (sum8 frame.dropLast) →
    (∀ k, k < s.matchLen + junk.length →
      ¬ s.cfg.sync <+: (s.cfg.sync.take s.matchLen ++ junk ++ frame).drop k) →
    HasNext (exec (.pPoll (plainSymbols (junk ++ frame))) s) fun t =>
      t.st = .seekingStart ∧ t.count = 0 ∧ t.matchLen = 0 ∧ t.seekCount = 0 ∧
      ∃ n r, readFrame s.cfg frame = .ok r ∧
        t.trace = s.trace ++ List.replicate n .errFraming ++ [.readings r]

/-- R178: an accumulating core is back in `SEEKING_START` after the bytes its frame still lacks, none of them a
start by the gap flag. -/
def Obligations.SeekingIsReachedWithinOneFrame : Prop :=
  ∀ (s : State) (ys : List Symbol), Inv s → s.st = .accumulating →
    s.count + ys.length = s.cfg.frameLen → (∀ y ∈ ys, gapm s y = false) →
    HasNext (exec (.pPoll ys) s) fun t => t.st = .seekingStart ∧ t.count = 0 ∧ t.inReady = true

/-- R180: the reference scenario: the readings, and the temperatures in degrees Celsius that they denote. -/
def Obligations.ReferenceScenario : Prop :=
  HasNext (exec (.pPoll (plainSymbols
    [0xAA, 0x55, 0x00, 0x00, 0x00, 0x00, 0x64, 0x00, 0xC8, 0x01, 0x2C, 0x01, 0x90, 0x01, 0xF4, 0x02,
      0x58, 0x00, 0x00, 0x00, 0x0D, 0x00, 0x00, 0x00, 0x00, 0x00, 0x00, 0x00, 0x00, 0x00, 0x00, 0x45]))
    State.reset) fun t =>
      t.trace = [.readings { temps := [100, 200, 300, 400, 500, 600]
                             relays := [true, false, true, true] }] ∧
      ([100, 200, 300, 400, 500, 600] : List Raw).map (fun raw => celsius (tempValue t.cfg raw))
        = [10, 20, 30, 40, 50, 60] ∧
      t.st = .seekingStart ∧ t.count = 0

/-- R181: the reference scenario with any other last byte. -/
def Obligations.CorruptedChecksumScenario : Prop :=
  ∀ k : Byte, k ≠ 0x45 →
    HasNext (exec (.pPoll (plainSymbols
      [0xAA, 0x55, 0x00, 0x00, 0x00, 0x00, 0x64, 0x00, 0xC8, 0x01, 0x2C, 0x01, 0x90, 0x01, 0xF4, 0x02,
        0x58, 0x00, 0x00, 0x00, 0x0D, 0x00, 0x00, 0x00, 0x00, 0x00, 0x00, 0x00, 0x00, 0x00, 0x00, k]))
      State.reset) fun t =>
        t.trace = [.errChecksum] ∧ t.checksumErrors = 1 ∧ t.framingErrors = 0 ∧
        t.st = .seekingStart ∧ t.count = 0

/-- R182: a valid frame, three bytes and another valid frame, from every seeking state with nothing held, when the
seek window has room for the three bytes and a signature: both frames are decoded and nothing else is emitted. In
sentinel mode no signature starts before the second frame's own; in gap mode the first byte of each frame is flagged
and no other byte. -/
def Obligations.GarbageBetweenFramesIsHarmless : Prop :=
  ∀ (s : State) (v1 v2 : List Byte) (j0 j1 j2 : Byte), cfgOk s.cfg = true → s.cfgError = false →
    s.st = .seekingStart → s.matchLen = 0 → s.seekCount = 0 →
    v1.length = s.cfg.frameLen → v2.length = s.cfg.frameLen →
    v1.getLast? = some (sum8 v1.dropLast) → v2.getLast? = some (sum8 v2.dropLast) →
    ∃ r1 r2, readFrame s.cfg v1 = .ok r1 ∧ readFrame s.cfg v2 = .ok r2 ∧
      (s.cfg.startMode = .sentinel → s.cfg.sync.length + 2 ≤ s.cfg.seekWindow →
        s.cfg.sync <+: v1 → s.cfg.sync <+: v2 →
        (∀ k, k < 3 → ¬ s.cfg.sync <+: ([j0, j1, j2] ++ v2).drop k) →
        HasNext (exec (.pPoll (plainSymbols (v1 ++ [j0, j1, j2] ++ v2))) s) fun t =>
          t.trace = s.trace ++ [.readings r1, .readings r2] ∧ t.st = .seekingStart ∧ t.count = 0) ∧
      (s.cfg.startMode = .gap → 3 ≤ s.cfg.seekWindow →
        HasNext (exec (.pPoll (flaggedFrame v1 ++ plainSymbols [j0, j1, j2] ++ flaggedFrame v2)) s) fun t =>
          t.trace = s.trace ++ [.readings r1, .readings r2] ∧ t.st = .seekingStart ∧ t.count = 0)

/-- R183: after the first `n` bytes of a valid frame, the core waits and ticks leave it as it is. With at least the
signature's bytes and at least one it is in `ACCUMULATING` with `count n`, and the remaining bytes, unflagged in gap
mode, complete the frame. With fewer bytes than the signature's it is in `SEEKING_START` with `match_len n`, and the
remaining bytes complete the frame too; only FramingErrors of the seek window come before its readings. -/
def Obligations.ShortStreamCompletesLater : Prop :=
  ∀ (s : State) (ys : List Symbol) (n ticks : Nat), CountInv s → cfgOk s.cfg = true → s.cfgError = false →
    s.st = .seekingStart → s.matchLen = 0 → ys.length = s.cfg.frameLen →
    s.cfg.sync <+: ys.map Symbol.b →
    (∀ y ∈ ys.tail, gapm s y = false) →
    (s.cfg.startMode = .gap → ∀ y ∈ ys.head?, y.g = true) →
    (ys.map Symbol.b).getLast? = some (sum8 (ys.map Symbol.b).dropLast) →
    (max 1 s.cfg.sync.length ≤ n → n + 1 ≤ s.cfg.frameLen →
      HasNext (exec (.pPoll (ys.take n)) s) fun t =>
        t.st = .accumulating ∧ t.count = n ∧
        HasNext (runInstrs (List.replicate ticks .tick) t) fun u =>
          quiet u = quiet t ∧
          HasNext (exec (.pPoll (ys.drop n)) u) fun v =>
            v.st = .seekingStart ∧ v.count = 0 ∧
            ∃ r, readFrame s.cfg (ys.map Symbol.b) = .ok r ∧ v.trace = t.trace ++ [.readings r]) ∧
    (n < s.cfg.sync.length →
      HasNext (exec (.pPoll (ys.take n)) s) fun t =>
        t.st = .seekingStart ∧ t.count = 0 ∧ t.matchLen = n ∧
        HasNext (runInstrs (List.replicate ticks .tick) t) fun u =>
          quiet u = quiet t ∧
          HasNext (exec (.pPoll (ys.drop n)) u) fun v =>
            v.st = .seekingStart ∧ v.count = 0 ∧
            ∃ k r, readFrame s.cfg (ys.map Symbol.b) = .ok r ∧
              v.trace = t.trace ++ List.replicate k .errFraming ++ [.readings r])

/-- R178 in gap mode: from every seeking state of the invariant, after any bytes without a flag, a valid frame whose
first byte alone is flagged is accepted and decoded, only FramingErrors coming before it; in the middle of a frame it
aborts that frame with one FramingError and is accepted and decoded all the same. -/
def Obligations.ResynchronizesOnTheNextFlaggedFrame : Prop :=
  ∀ (s : State) (junk frame : List Byte), Inv s → s.cfgError = false → s.cfg.startMode = .gap →
    frame.length = s.cfg.frameLen → frame.getLast? = some (sum8 frame.dropLast) →
    ∃ r, readFrame s.cfg frame = .ok r ∧
      (s.st = .seekingStart →
        HasNext (exec (.pPoll (plainSymbols junk ++ flaggedFrame frame)) s) fun t =>
          t.st = .seekingStart ∧ t.count = 0 ∧ t.matchLen = 0 ∧ t.seekCount = 0 ∧
          ∃ n, t.trace = s.trace ++ List.replicate n .errFraming ++ [.readings r]) ∧
      (s.st = .accumulating →
        HasNext (exec (.pPoll (flaggedFrame frame)) s) fun t =>
          t.st = .seekingStart ∧ t.count = 0 ∧ t.matchLen = 0 ∧ t.seekCount = 0 ∧
          t.trace = s.trace ++ [.errFraming, .readings r])

/-! ### The configuration, the ports and the order of the inputs -/

/-- R7: `cfg_ok`, clause by clause. A bound `FRAME_LEN - 2` on an offset is written as a sum. -/
def Obligations.WellFormedConfiguration : Prop :=
  ∀ cfg : Cfg, cfgOk cfg = true ↔
    2 ≤ cfg.frameLen ∧ cfg.frameLen ≤ 255 ∧
    (cfg.startMode = .sentinel → 1 ≤ cfg.sync.length ∧ cfg.sync.length + 1 ≤ cfg.frameLen) ∧
    (cfg.startMode = .gap → cfg.sync.length = 0) ∧
    1 ≤ cfg.seekWindow ∧
    (∀ i : Fin 6, cfg.tempOffset[i] + 3 ≤ cfg.frameLen) ∧
    cfg.relayOffset + 2 ≤ cfg.frameLen ∧
    (cfg.nRelays = 4 ∨ cfg.nRelays = 8) ∧
    1 ≤ cfg.cntW

/-- R81, R82: the output ports after each of the eleven dispatched operations, in every state: `out_valid` is 1
exactly after `A.VAL.PASS`, which alone gives `out_temp` and `out_relay`, the temperatures and relays of the frame in
`buf`; `err_code` is 1 after `A.SEEK.FLUSH` and `A.ACC.ABORT`, 2 after `A.VAL.FAIL`, 3 while `cfg_error`, else 0. -/
def Obligations.PortsAfterEachOperation : Prop :=
  ∀ (op : Operation) (y : Symbol) (s t : State), exec (op.withSymbol y) s = .next t →
    ((ports t).outValid = true ↔ op = .valPass) ∧
    (op = .valPass → ∃ r, readFrame s.cfg s.frame = .ok r ∧ (ports t).outTemp = some r.temps ∧
      (ports t).outRelay = some r.relays) ∧
    (op ≠ .valPass → (ports t).outTemp = none ∧ (ports t).outRelay = none) ∧
    (ports t).errCode =
      if t.cfgError then 3
      else if op = .seekFlush ∨ op = .accAbort then 1
      else if op = .valFail then 2
      else 0

/-- R60 (a), R103, R104: inputs are taken in the order of arrival and never reordered. A step takes one input away,
the first one unless `cfg_error` holds those before it, or takes none; what stays is in its order. An input that
waits, a byte among them, is taken only with `in_ready = 1`. -/
def Obligations.InputsAreTakenInArrivalOrder : Prop :=
  ∀ s t : State, step s = .next t →
    t.input = s.input ∨
    ∃ before x after, s.input = before ++ x :: after ∧ t.input = before ++ after ∧
      (∀ c ∈ before, Input.waits c = true) ∧ (s.cfgError = false → before = []) ∧
      (Input.waits x = true → s.inReady = true)
end

