-- ==== Sys2Proof/Laws/Memory.lean ====
section
/-! SUPPORT. The laws of the frame space: read after write, and that a write keeps the canonical form. -/

namespace Sys2Proof.Machine

@[simp] theorem Memory.lookup_nil (a : Nat) : Memory.lookup [] a = none := rfl

@[simp] theorem Memory.lookup_write_same (m : Memory) (a : Nat) (b : Byte) :
    Memory.lookup (Memory.write m a b) a = some b := by
  induction m with
  | nil => simp [Memory.write, Memory.lookup]
  | cons c m ih =>
    obtain ⟨x, v⟩ := c
    simp only [Memory.write]
    split
    · simp [Memory.lookup]
    · split
      · simp [Memory.lookup]
      · next h => simp [Memory.lookup, h, ih]

theorem Memory.lookup_write_ne (m : Memory) {a a' : Nat} (b : Byte) (h : a' ≠ a) :
    Memory.lookup (Memory.write m a b) a' = Memory.lookup m a' := by
  induction m with
  | nil => simp [Memory.write, Memory.lookup, Ne.symm h]
  | cons c m ih =>
    obtain ⟨x, v⟩ := c
    simp only [Memory.write]
    split
    · simp [Memory.lookup, Ne.symm h]
    · split
      · next hx => subst hx; simp [Memory.lookup, Ne.symm h]
      · simp [Memory.lookup, ih]

/-- Reading after a write, in one equation. -/
theorem Memory.lookup_write (m : Memory) (a a' : Nat) (b : Byte) :
    Memory.lookup (Memory.write m a b) a' = if a' = a then some b else Memory.lookup m a' := by
  split
  · next h => subst h; simp
  · next h => exact Memory.lookup_write_ne m b h

theorem Memory.wf_cons_iff (c : Host.Cell) (m : Memory) :
    Memory.wf (c :: m) = true ↔ Memory.wf m = true ∧ ∀ c' ∈ m.head?, c.1 < c'.1 := by
  cases m with
  | nil => simp [Memory.wf]
  | cons c' m => simp [Memory.wf, and_comm]

theorem Memory.head_write (m : Memory) (a : Nat) (b : Byte) (c : Host.Cell)
    (h : c ∈ (Memory.write m a b).head?) : c.1 = a ∨ c ∈ m.head? := by
  cases m with
  | nil =>
    simp only [Memory.write, List.head?_cons, Option.mem_def, Option.some.injEq] at h
    exact .inl (h ▸ rfl)
  | cons d m =>
    obtain ⟨x, v⟩ := d
    simp only [Memory.write] at h
    split at h
    · simp only [List.head?_cons, Option.mem_def, Option.some.injEq] at h
      exact .inl (h ▸ rfl)
    · split at h
      · simp only [List.head?_cons, Option.mem_def, Option.some.injEq] at h
        exact .inl (h ▸ rfl)
      · exact .inr (by simpa using h)

/-- A write keeps the canonical form. -/
theorem Memory.write_wf {m : Memory} (a : Nat) (b : Byte) (h : Memory.wf m = true) :
    Memory.wf (Memory.write m a b) = true := by
  induction m with
  | nil => rfl
  | cons c m ih =>
    obtain ⟨x, v⟩ := c
    obtain ⟨hm, hx⟩ := (Memory.wf_cons_iff _ _).1 h
    simp only [Memory.write]
    split
    · next ha => exact (Memory.wf_cons_iff _ _).2 ⟨h, by simpa using ha⟩
    · split
      · next hxa => subst hxa; exact (Memory.wf_cons_iff _ _).2 ⟨hm, hx⟩
      · next hlt hne =>
        refine (Memory.wf_cons_iff _ _).2 ⟨ih hm, fun c' hc' => ?_⟩
        rcases Memory.head_write m a b c' hc' with h1 | h1
        · simp only [h1]; omega
        · exact hx c' h1

/-- A write inside the frame space keeps every written index inside. -/
theorem Memory.write_within {n : Nat} {m : Memory} {a : Nat} (b : Byte) (ha : a < n)
    (h : Memory.within n m = true) : Memory.within n (Memory.write m a b) = true := by
  induction m with
  | nil => simp [Memory.write, Memory.within, ha]
  | cons c m ih =>
    obtain ⟨x, v⟩ := c
    simp only [Memory.within, List.all_cons, Bool.and_eq_true, decide_eq_true_eq] at h ih ⊢
    simp only [Memory.write]
    split
    · simp [ha, h.1, h.2]
    · split
      · simp [ha, h.2]
      · simp [h.1, ih h.2]

end Sys2Proof.Machine
end

