-- ==== Sys2Proof/Laws/State.lean ====
section
/-! SUPPORT. One lemma per field per update of the state. -/

namespace Sys2Proof.Machine

/-! ### beginStep -/

@[simp] theorem beginStep_cfg (s : State) : (beginStep s).cfg = s.cfg := rfl
@[simp] theorem beginStep_cfgError (s : State) : (beginStep s).cfgError = s.cfgError := rfl
@[simp] theorem beginStep_st (s : State) : (beginStep s).st = s.st := rfl
@[simp] theorem beginStep_count (s : State) : (beginStep s).count = s.count := rfl
@[simp] theorem beginStep_buf (s : State) : (beginStep s).buf = s.buf := rfl
@[simp] theorem beginStep_matchLen (s : State) : (beginStep s).matchLen = s.matchLen := rfl
@[simp] theorem beginStep_seekCount (s : State) : (beginStep s).seekCount = s.seekCount := rfl
@[simp] theorem beginStep_framingErrors (s : State) : (beginStep s).framingErrors = s.framingErrors := rfl
@[simp] theorem beginStep_checksumErrors (s : State) : (beginStep s).checksumErrors = s.checksumErrors := rfl
@[simp] theorem beginStep_bufEpoch (s : State) : (beginStep s).bufEpoch = s.bufEpoch := rfl
@[simp] theorem beginStep_input (s : State) : (beginStep s).input = s.input := rfl
@[simp] theorem beginStep_out (s : State) : (beginStep s).out = [] := rfl
@[simp] theorem beginStep_trace (s : State) : (beginStep s).trace = s.trace := rfl
@[simp] theorem beginStep_funcResult (s : State) : (beginStep s).funcResult = s.funcResult := rfl

/-! ### emit -/

@[simp] theorem emit_cfg (e : OutEvent) (s : State) : (emit e s).cfg = s.cfg := rfl
@[simp] theorem emit_cfgError (e : OutEvent) (s : State) : (emit e s).cfgError = s.cfgError := rfl
@[simp] theorem emit_st (e : OutEvent) (s : State) : (emit e s).st = s.st := rfl
@[simp] theorem emit_count (e : OutEvent) (s : State) : (emit e s).count = s.count := rfl
@[simp] theorem emit_buf (e : OutEvent) (s : State) : (emit e s).buf = s.buf := rfl
@[simp] theorem emit_matchLen (e : OutEvent) (s : State) : (emit e s).matchLen = s.matchLen := rfl
@[simp] theorem emit_seekCount (e : OutEvent) (s : State) : (emit e s).seekCount = s.seekCount := rfl
@[simp] theorem emit_framingErrors (e : OutEvent) (s : State) : (emit e s).framingErrors = s.framingErrors := rfl
@[simp] theorem emit_checksumErrors (e : OutEvent) (s : State) : (emit e s).checksumErrors = s.checksumErrors := rfl
@[simp] theorem emit_bufEpoch (e : OutEvent) (s : State) : (emit e s).bufEpoch = s.bufEpoch := rfl
@[simp] theorem emit_input (e : OutEvent) (s : State) : (emit e s).input = s.input := rfl
@[simp] theorem emit_out (e : OutEvent) (s : State) : (emit e s).out = s.out ++ [e] := rfl
@[simp] theorem emit_trace (e : OutEvent) (s : State) : (emit e s).trace = s.trace ++ [e] := rfl
@[simp] theorem emit_funcResult (e : OutEvent) (s : State) : (emit e s).funcResult = s.funcResult := rfl

/-! ### raise -/

@[simp] theorem raise_framing_cfg (s : State) : (raise .framing s).cfg = s.cfg := rfl
@[simp] theorem raise_framing_cfgError (s : State) : (raise .framing s).cfgError = s.cfgError := rfl
@[simp] theorem raise_framing_st (s : State) : (raise .framing s).st = s.st := rfl
@[simp] theorem raise_framing_count (s : State) : (raise .framing s).count = s.count := rfl
@[simp] theorem raise_framing_buf (s : State) : (raise .framing s).buf = s.buf := rfl
@[simp] theorem raise_framing_matchLen (s : State) : (raise .framing s).matchLen = s.matchLen := rfl
@[simp] theorem raise_framing_seekCount (s : State) : (raise .framing s).seekCount = s.seekCount := rfl
@[simp] theorem raise_framing_framingErrors (s : State) : (raise .framing s).framingErrors = bump s.cfg s.framingErrors := rfl
@[simp] theorem raise_framing_checksumErrors (s : State) : (raise .framing s).checksumErrors = s.checksumErrors := rfl
@[simp] theorem raise_framing_bufEpoch (s : State) : (raise .framing s).bufEpoch = s.bufEpoch := rfl
@[simp] theorem raise_framing_input (s : State) : (raise .framing s).input = s.input := rfl
@[simp] theorem raise_framing_out (s : State) : (raise .framing s).out = s.out ++ [.errFraming] := rfl
@[simp] theorem raise_framing_trace (s : State) : (raise .framing s).trace = s.trace ++ [.errFraming] := rfl
@[simp] theorem raise_framing_funcResult (s : State) : (raise .framing s).funcResult = s.funcResult := rfl

@[simp] theorem raise_checksum_cfg (s : State) : (raise .checksum s).cfg = s.cfg := rfl
@[simp] theorem raise_checksum_cfgError (s : State) : (raise .checksum s).cfgError = s.cfgError := rfl
@[simp] theorem raise_checksum_st (s : State) : (raise .checksum s).st = s.st := rfl
@[simp] theorem raise_checksum_count (s : State) : (raise .checksum s).count = s.count := rfl
@[simp] theorem raise_checksum_buf (s : State) : (raise .checksum s).buf = s.buf := rfl
@[simp] theorem raise_checksum_matchLen (s : State) : (raise .checksum s).matchLen = s.matchLen := rfl
@[simp] theorem raise_checksum_seekCount (s : State) : (raise .checksum s).seekCount = s.seekCount := rfl
@[simp] theorem raise_checksum_framingErrors (s : State) : (raise .checksum s).framingErrors = s.framingErrors := rfl
@[simp] theorem raise_checksum_checksumErrors (s : State) : (raise .checksum s).checksumErrors = bump s.cfg s.checksumErrors := rfl
@[simp] theorem raise_checksum_bufEpoch (s : State) : (raise .checksum s).bufEpoch = s.bufEpoch := rfl
@[simp] theorem raise_checksum_input (s : State) : (raise .checksum s).input = s.input := rfl
@[simp] theorem raise_checksum_out (s : State) : (raise .checksum s).out = s.out ++ [.errChecksum] := rfl
@[simp] theorem raise_checksum_trace (s : State) : (raise .checksum s).trace = s.trace ++ [.errChecksum] := rfl
@[simp] theorem raise_checksum_funcResult (s : State) : (raise .checksum s).funcResult = s.funcResult := rfl

@[simp] theorem raise_configuration_cfg (s : State) : (raise .configuration s).cfg = s.cfg := rfl
@[simp] theorem raise_configuration_cfgError (s : State) : (raise .configuration s).cfgError = true := rfl
@[simp] theorem raise_configuration_st (s : State) : (raise .configuration s).st = s.st := rfl
@[simp] theorem raise_configuration_count (s : State) : (raise .configuration s).count = s.count := rfl
@[simp] theorem raise_configuration_buf (s : State) : (raise .configuration s).buf = s.buf := rfl
@[simp] theorem raise_configuration_matchLen (s : State) : (raise .configuration s).matchLen = s.matchLen := rfl
@[simp] theorem raise_configuration_seekCount (s : State) : (raise .configuration s).seekCount = s.seekCount := rfl
@[simp] theorem raise_configuration_framingErrors (s : State) : (raise .configuration s).framingErrors = s.framingErrors := rfl
@[simp] theorem raise_configuration_checksumErrors (s : State) : (raise .configuration s).checksumErrors = s.checksumErrors := rfl
@[simp] theorem raise_configuration_bufEpoch (s : State) : (raise .configuration s).bufEpoch = s.bufEpoch := rfl
@[simp] theorem raise_configuration_input (s : State) : (raise .configuration s).input = s.input := rfl
@[simp] theorem raise_configuration_out (s : State) : (raise .configuration s).out = s.out := rfl
@[simp] theorem raise_configuration_trace (s : State) : (raise .configuration s).trace = s.trace := rfl
@[simp] theorem raise_configuration_funcResult (s : State) : (raise .configuration s).funcResult = s.funcResult := rfl

/-! ### hold -/

@[simp] theorem hold_cfg (ys : List Symbol) (s : State) : (hold ys s).cfg = s.cfg := rfl
@[simp] theorem hold_cfgError (ys : List Symbol) (s : State) : (hold ys s).cfgError = s.cfgError := rfl
@[simp] theorem hold_st (ys : List Symbol) (s : State) : (hold ys s).st = s.st := rfl
@[simp] theorem hold_count (ys : List Symbol) (s : State) : (hold ys s).count = s.count := rfl
@[simp] theorem hold_buf (ys : List Symbol) (s : State) : (hold ys s).buf = s.buf := rfl
@[simp] theorem hold_matchLen (ys : List Symbol) (s : State) : (hold ys s).matchLen = s.matchLen := rfl
@[simp] theorem hold_seekCount (ys : List Symbol) (s : State) : (hold ys s).seekCount = s.seekCount := rfl
@[simp] theorem hold_framingErrors (ys : List Symbol) (s : State) : (hold ys s).framingErrors = s.framingErrors := rfl
@[simp] theorem hold_checksumErrors (ys : List Symbol) (s : State) : (hold ys s).checksumErrors = s.checksumErrors := rfl
@[simp] theorem hold_bufEpoch (ys : List Symbol) (s : State) : (hold ys s).bufEpoch = s.bufEpoch := rfl
@[simp] theorem hold_input (ys : List Symbol) (s : State) :
    (hold ys s).input = s.input ++ ys.map Input.ofSymbol := rfl
@[simp] theorem hold_out (ys : List Symbol) (s : State) : (hold ys s).out = [] := rfl
@[simp] theorem hold_trace (ys : List Symbol) (s : State) : (hold ys s).trace = s.trace := rfl
@[simp] theorem hold_funcResult (ys : List Symbol) (s : State) : (hold ys s).funcResult = s.funcResult := rfl

/-! ### clearCore -/

@[simp] theorem clearCore_cfg (s : State) : (clearCore s).cfg = s.cfg := rfl
@[simp] theorem clearCore_cfgError (s : State) : (clearCore s).cfgError = false := rfl
@[simp] theorem clearCore_st (s : State) : (clearCore s).st = .seekingStart := rfl
@[simp] theorem clearCore_count (s : State) : (clearCore s).count = 0 := rfl
@[simp] theorem clearCore_buf (s : State) : (clearCore s).buf = [] := rfl
@[simp] theorem clearCore_matchLen (s : State) : (clearCore s).matchLen = 0 := rfl
@[simp] theorem clearCore_seekCount (s : State) : (clearCore s).seekCount = 0 := rfl
@[simp] theorem clearCore_framingErrors (s : State) : (clearCore s).framingErrors = 0 := rfl
@[simp] theorem clearCore_checksumErrors (s : State) : (clearCore s).checksumErrors = 0 := rfl
@[simp] theorem clearCore_bufEpoch (s : State) : (clearCore s).bufEpoch = s.bufEpoch + 1 := rfl
@[simp] theorem clearCore_input (s : State) : (clearCore s).input = s.input := rfl
@[simp] theorem clearCore_out (s : State) : (clearCore s).out = [] := rfl
@[simp] theorem clearCore_trace (s : State) : (clearCore s).trace = s.trace := rfl
@[simp] theorem clearCore_funcResult (s : State) : (clearCore s).funcResult = s.funcResult := rfl

/-! ### startFrame -/

@[simp] theorem startFrame_cfg (n : Nat) (s : State) : (startFrame n s).cfg = s.cfg := rfl
@[simp] theorem startFrame_cfgError (n : Nat) (s : State) : (startFrame n s).cfgError = s.cfgError := rfl
@[simp] theorem startFrame_st (n : Nat) (s : State) : (startFrame n s).st = .accumulating := rfl
@[simp] theorem startFrame_count (n : Nat) (s : State) : (startFrame n s).count = n := rfl
@[simp] theorem startFrame_buf (n : Nat) (s : State) : (startFrame n s).buf = s.buf := rfl
@[simp] theorem startFrame_matchLen (n : Nat) (s : State) : (startFrame n s).matchLen = s.matchLen := rfl
@[simp] theorem startFrame_seekCount (n : Nat) (s : State) : (startFrame n s).seekCount = 0 := rfl
@[simp] theorem startFrame_framingErrors (n : Nat) (s : State) : (startFrame n s).framingErrors = s.framingErrors := rfl
@[simp] theorem startFrame_checksumErrors (n : Nat) (s : State) : (startFrame n s).checksumErrors = s.checksumErrors := rfl
@[simp] theorem startFrame_bufEpoch (n : Nat) (s : State) : (startFrame n s).bufEpoch = s.bufEpoch := rfl
@[simp] theorem startFrame_input (n : Nat) (s : State) : (startFrame n s).input = s.input := rfl
@[simp] theorem startFrame_out (n : Nat) (s : State) : (startFrame n s).out = s.out := rfl
@[simp] theorem startFrame_trace (n : Nat) (s : State) : (startFrame n s).trace = s.trace := rfl
@[simp] theorem startFrame_funcResult (n : Nat) (s : State) : (startFrame n s).funcResult = s.funcResult := rfl

/-! ### resync -/

@[simp] theorem resync_cfg (s : State) : (resync s).cfg = s.cfg := rfl
@[simp] theorem resync_cfgError (s : State) : (resync s).cfgError = s.cfgError := rfl
@[simp] theorem resync_st (s : State) : (resync s).st = .seekingStart := rfl
@[simp] theorem resync_count (s : State) : (resync s).count = 0 := rfl
@[simp] theorem resync_buf (s : State) : (resync s).buf = s.buf := rfl
@[simp] theorem resync_matchLen (s : State) : (resync s).matchLen = 0 := rfl
@[simp] theorem resync_seekCount (s : State) : (resync s).seekCount = 0 := rfl
@[simp] theorem resync_framingErrors (s : State) : (resync s).framingErrors = s.framingErrors := rfl
@[simp] theorem resync_checksumErrors (s : State) : (resync s).checksumErrors = s.checksumErrors := rfl
@[simp] theorem resync_bufEpoch (s : State) : (resync s).bufEpoch = s.bufEpoch := rfl
@[simp] theorem resync_input (s : State) : (resync s).input = s.input := rfl
@[simp] theorem resync_out (s : State) : (resync s).out = s.out := rfl
@[simp] theorem resync_trace (s : State) : (resync s).trace = s.trace := rfl
@[simp] theorem resync_funcResult (s : State) : (resync s).funcResult = s.funcResult := rfl

/-! ### returnValue -/

@[simp] theorem returnValue_cfg (v : FuncResult) (s : State) : (returnValue v s).cfg = s.cfg := rfl
@[simp] theorem returnValue_cfgError (v : FuncResult) (s : State) : (returnValue v s).cfgError = s.cfgError := rfl
@[simp] theorem returnValue_st (v : FuncResult) (s : State) : (returnValue v s).st = s.st := rfl
@[simp] theorem returnValue_count (v : FuncResult) (s : State) : (returnValue v s).count = s.count := rfl
@[simp] theorem returnValue_buf (v : FuncResult) (s : State) : (returnValue v s).buf = s.buf := rfl
@[simp] theorem returnValue_matchLen (v : FuncResult) (s : State) : (returnValue v s).matchLen = s.matchLen := rfl
@[simp] theorem returnValue_seekCount (v : FuncResult) (s : State) : (returnValue v s).seekCount = s.seekCount := rfl
@[simp] theorem returnValue_framingErrors (v : FuncResult) (s : State) : (returnValue v s).framingErrors = s.framingErrors := rfl
@[simp] theorem returnValue_checksumErrors (v : FuncResult) (s : State) : (returnValue v s).checksumErrors = s.checksumErrors := rfl
@[simp] theorem returnValue_bufEpoch (v : FuncResult) (s : State) : (returnValue v s).bufEpoch = s.bufEpoch := rfl
@[simp] theorem returnValue_input (v : FuncResult) (s : State) : (returnValue v s).input = s.input := rfl
@[simp] theorem returnValue_out (v : FuncResult) (s : State) : (returnValue v s).out = [] := rfl
@[simp] theorem returnValue_trace (v : FuncResult) (s : State) : (returnValue v s).trace = s.trace := rfl
@[simp] theorem returnValue_funcResult (v : FuncResult) (s : State) : (returnValue v s).funcResult = some v := rfl

/-! ### offer -/

@[simp] theorem offer_cfg (x : Input) (s : State) : (offer x s).cfg = s.cfg := rfl
@[simp] theorem offer_cfgError (x : Input) (s : State) : (offer x s).cfgError = s.cfgError := rfl
@[simp] theorem offer_st (x : Input) (s : State) : (offer x s).st = s.st := rfl
@[simp] theorem offer_count (x : Input) (s : State) : (offer x s).count = s.count := rfl
@[simp] theorem offer_buf (x : Input) (s : State) : (offer x s).buf = s.buf := rfl
@[simp] theorem offer_matchLen (x : Input) (s : State) : (offer x s).matchLen = s.matchLen := rfl
@[simp] theorem offer_seekCount (x : Input) (s : State) : (offer x s).seekCount = s.seekCount := rfl
@[simp] theorem offer_framingErrors (x : Input) (s : State) : (offer x s).framingErrors = s.framingErrors := rfl
@[simp] theorem offer_checksumErrors (x : Input) (s : State) : (offer x s).checksumErrors = s.checksumErrors := rfl
@[simp] theorem offer_bufEpoch (x : Input) (s : State) : (offer x s).bufEpoch = s.bufEpoch := rfl
@[simp] theorem offer_input (x : Input) (s : State) : (offer x s).input = x :: s.input := rfl
@[simp] theorem offer_out (x : Input) (s : State) : (offer x s).out = s.out := rfl
@[simp] theorem offer_trace (x : Input) (s : State) : (offer x s).trace = s.trace := rfl
@[simp] theorem offer_funcResult (x : Input) (s : State) : (offer x s).funcResult = s.funcResult := rfl

/-! ### coreView and quiet -/

@[simp] theorem coreView_cfg (s : State) : (coreView s).cfg = s.cfg := rfl
@[simp] theorem coreView_cfgError (s : State) : (coreView s).cfgError = s.cfgError := rfl
@[simp] theorem coreView_st (s : State) : (coreView s).st = s.st := rfl
@[simp] theorem coreView_count (s : State) : (coreView s).count = s.count := rfl
@[simp] theorem coreView_buf (s : State) : (coreView s).buf = s.buf := rfl
@[simp] theorem coreView_matchLen (s : State) : (coreView s).matchLen = s.matchLen := rfl
@[simp] theorem coreView_seekCount (s : State) : (coreView s).seekCount = s.seekCount := rfl
@[simp] theorem coreView_framingErrors (s : State) : (coreView s).framingErrors = s.framingErrors := rfl
@[simp] theorem coreView_checksumErrors (s : State) : (coreView s).checksumErrors = s.checksumErrors := rfl
@[simp] theorem coreView_bufEpoch (s : State) : (coreView s).bufEpoch = 0 := rfl
@[simp] theorem coreView_input (s : State) : (coreView s).input = [] := rfl
@[simp] theorem coreView_out (s : State) : (coreView s).out = [] := rfl
@[simp] theorem coreView_trace (s : State) : (coreView s).trace = [] := rfl
@[simp] theorem coreView_funcResult (s : State) : (coreView s).funcResult = none := rfl

@[simp] theorem quiet_cfg (s : State) : (quiet s).cfg = s.cfg := rfl
@[simp] theorem quiet_cfgError (s : State) : (quiet s).cfgError = s.cfgError := rfl
@[simp] theorem quiet_st (s : State) : (quiet s).st = s.st := rfl
@[simp] theorem quiet_count (s : State) : (quiet s).count = s.count := rfl
@[simp] theorem quiet_buf (s : State) : (quiet s).buf = s.buf := rfl
@[simp] theorem quiet_matchLen (s : State) : (quiet s).matchLen = s.matchLen := rfl
@[simp] theorem quiet_seekCount (s : State) : (quiet s).seekCount = s.seekCount := rfl
@[simp] theorem quiet_framingErrors (s : State) : (quiet s).framingErrors = s.framingErrors := rfl
@[simp] theorem quiet_checksumErrors (s : State) : (quiet s).checksumErrors = s.checksumErrors := rfl
@[simp] theorem quiet_bufEpoch (s : State) : (quiet s).bufEpoch = s.bufEpoch := rfl
@[simp] theorem quiet_input (s : State) : (quiet s).input = s.input := rfl
@[simp] theorem quiet_out (s : State) : (quiet s).out = [] := rfl
@[simp] theorem quiet_trace (s : State) : (quiet s).trace = s.trace := rfl
@[simp] theorem quiet_funcResult (s : State) : (quiet s).funcResult = s.funcResult := rfl

/-! ### offerCall -/

@[simp] theorem offerCall_cfg (code : List Byte) (s : State) : (offerCall code s).cfg = s.cfg := rfl
@[simp] theorem offerCall_count (code : List Byte) (s : State) : (offerCall code s).count = s.count := rfl
@[simp] theorem offerCall_buf (code : List Byte) (s : State) : (offerCall code s).buf = s.buf := rfl
@[simp] theorem offerCall_matchLen (code : List Byte) (s : State) : (offerCall code s).matchLen = s.matchLen := rfl
@[simp] theorem offerCall_seekCount (code : List Byte) (s : State) : (offerCall code s).seekCount = s.seekCount := rfl
@[simp] theorem offerCall_framingErrors (code : List Byte) (s : State) : (offerCall code s).framingErrors = s.framingErrors := rfl
@[simp] theorem offerCall_checksumErrors (code : List Byte) (s : State) : (offerCall code s).checksumErrors = s.checksumErrors := rfl
@[simp] theorem offerCall_bufEpoch (code : List Byte) (s : State) : (offerCall code s).bufEpoch = s.bufEpoch := rfl
@[simp] theorem offerCall_out (code : List Byte) (s : State) : (offerCall code s).out = s.out := rfl
@[simp] theorem offerCall_trace (code : List Byte) (s : State) : (offerCall code s).trace = s.trace := rfl
@[simp] theorem offerCall_funcResult (code : List Byte) (s : State) : (offerCall code s).funcResult = s.funcResult := rfl
@[simp] theorem offerCall_cfgError (code : List Byte) (s : State) : (offerCall code s).cfgError = false := rfl
@[simp] theorem offerCall_st (code : List Byte) (s : State) :
    (offerCall code s).st = if s.st = .validating then .seekingStart else s.st := rfl
@[simp] theorem offerCall_input (code : List Byte) (s : State) :
    (offerCall code s).input = .call code :: s.input := rfl

end Sys2Proof.Machine
end

