-- ==== Sys2Proof/Laws/Ops.lean ====
section
/-! SUPPORT. What each shared operation can do, said once. -/

namespace Sys2Proof.Machine

/-! ### Outcomes -/

@[simp] theorem finish_ok (s : State) : finish (.ok s) = .next s := rfl

@[simp] theorem finish_error (f : Fault) : finish (.error f) = .fault f := rfl

theorem finish_eq_next {x : Except Fault State} {t : State} (h : finish x = .next t) : x = .ok t := by
  cases x <;> simp_all [finish]

@[simp] theorem andThen_next (s : State) (k : State → Host.Outcome State Fault Refusal) :
    andThen (.next s) k = k s := rfl

@[simp] theorem andThen_fault (f : Fault) (k : State → Host.Outcome State Fault Refusal) :
    andThen (.fault f) k = .fault f := rfl

@[simp] theorem andThen_refused (r : Refusal) (k : State → Host.Outcome State Fault Refusal) :
    andThen (.refused r) k = .refused r := rfl

/-- A sequence answers a next state only through a next state of its first part. -/
theorem andThen_eq_next {o : Host.Outcome State Fault Refusal}
    {k : State → Host.Outcome State Fault Refusal} {t : State} (h : andThen o k = .next t) :
    ∃ s, o = .next s ∧ k s = .next t := by
  cases o <;> simp_all [andThen]

theorem andThen_assoc (o : Host.Outcome State Fault Refusal)
    (k l : State → Host.Outcome State Fault Refusal) :
    andThen (andThen o k) l = andThen o fun s => andThen (k s) l := by
  cases o <;> rfl

/-! ### The frame space -/

/-- All a byte write can do. -/
theorem writeByte_eq_ok {s t : State} {i : Nat} {b : Byte} :
    writeByte s i b = .ok t ↔ i < s.cfg.frameLen ∧ t = { s with buf := Memory.write s.buf i b } := by
  unfold writeByte
  split <;> simp_all [eq_comm]

theorem writeByte_of_lt {s : State} {i : Nat} (b : Byte) (h : i < s.cfg.frameLen) :
    writeByte s i b = .ok { s with buf := Memory.write s.buf i b } := by
  simp [writeByte, h]

theorem writeByte_outside {s : State} {i : Nat} (b : Byte) (h : ¬ i < s.cfg.frameLen) :
    writeByte s i b = .error (.outsideFrameSpace i) := by
  simp [writeByte, h]

/-- Ascending writes complete when the last index is in the frame space; they change `buf` alone, in the bytes
they write. -/
theorem writeBytes_of_le (bs : List Byte) : ∀ {s : State} {i : Nat}, i + bs.length ≤ s.cfg.frameLen →
    ∃ m, writeBytes s i bs = .ok { s with buf := m } ∧
      (∀ a, Memory.lookup m a =
        if i ≤ a ∧ a < i + bs.length then bs[a - i]? else Memory.lookup s.buf a) ∧
      (Memory.wf s.buf = true → Memory.wf m = true) ∧
      (Memory.within s.cfg.frameLen s.buf = true → Memory.within s.cfg.frameLen m = true) := by
  induction bs with
  | nil =>
    intro s i _
    refine ⟨s.buf, rfl, fun a => ?_, id, id⟩
    rw [if_neg]; simp
  | cons b bs ih =>
    intro s i h
    simp only [List.length_cons] at h
    have hi : i < s.cfg.frameLen := by omega
    obtain ⟨m, hm, hl, hw, hin⟩ :=
      ih (s := { s with buf := Memory.write s.buf i b }) (i := i + 1) (by simp only; omega)
    refine ⟨m, ?_, fun a => ?_, fun h1 => hw (Memory.write_wf i b h1),
      fun h1 => hin (Memory.write_within b hi h1)⟩
    · simp only [writeBytes, writeByte_of_lt b hi, hm]
    · rw [hl a, Memory.lookup_write]
      simp only [List.length_cons]
      by_cases h1 : i + 1 ≤ a ∧ a < i + 1 + bs.length
      · rw [if_pos h1, if_pos (by omega)]
        obtain ⟨k, rfl⟩ : ∃ k, a = i + 1 + k := ⟨a - (i + 1), by omega⟩
        have e1 : i + 1 + k - (i + 1) = k := by omega
        have e2 : i + 1 + k - i = k + 1 := by omega
        rw [e1, e2, List.getElem?_cons_succ]
      · rw [if_neg h1]
        by_cases h2 : a = i
        · subst h2; simp
        · rw [if_neg h2, if_neg (by omega)]

/-- Ascending writes change `buf` alone. -/
theorem writeBytes_eq_ok : ∀ {bs : List Byte} {s t : State} {i : Nat}, writeBytes s i bs = .ok t →
    ∃ m, t = { s with buf := m }
  | [], s, t, i, h => ⟨s.buf, (Except.ok.inj h).symm⟩
  | b :: bs, s, t, i, h => by
    simp only [writeBytes] at h
    split at h
    · next u hu =>
      obtain ⟨-, rfl⟩ := writeByte_eq_ok.1 hu
      obtain ⟨m, rfl⟩ := writeBytes_eq_ok h
      exact ⟨m, rfl⟩
    · cases h

theorem memRead1_of_lt {frame : List Byte} {a : Nat} (h : a < frame.length) :
    memRead1 frame a = .ok frame[a] := by
  simp [memRead1, h]

theorem memRead1_outside {frame : List Byte} {a : Nat} (h : frame.length ≤ a) :
    memRead1 frame a = .error (.outsideFrameSpace a) := by
  simp [memRead1, h]

/-! ### The frame and the checksum -/

@[simp] theorem frame_length (s : State) : s.frame.length = s.cfg.frameLen := by
  simp [State.frame]

/-- A written byte reads as what was written. -/
theorem bufByte_of_lookup {s : State} {i : Nat} {b : Byte} (h : Memory.lookup s.buf i = some b) :
    s.bufByte i = b := by
  simp [State.bufByte, h]

/-- The frame depends on the frame length, the written bytes and the epoch alone. -/
theorem frame_congr {s t : State} (h1 : s.cfg.frameLen = t.cfg.frameLen) (h2 : s.buf = t.buf)
    (h3 : s.bufEpoch = t.bufEpoch) : s.frame = t.frame := by
  have : s.bufByte = t.bufByte := by
    funext i
    simp [State.bufByte, h2, h3]
  simp [State.frame, this, h1]

theorem sum8_append (xs ys : List Byte) : sum8 (xs ++ ys) = sum8 xs + sum8 ys := by
  simp [sum8, BitVec.ofNat_add]

/-! ### The error counters -/

theorem bump_lt (cfg : Cfg) (n : Nat) : bump cfg n < 2 ^ cfg.cntW :=
  Nat.mod_lt _ (Nat.two_pow_pos _)

end Sys2Proof.Machine
end

