-- ==== Sys2Proof/Laws/Decoder.lean ====
section
/-! SUPPORT. What the decoder functions answer on a Frame of a well-formed configuration. -/

namespace Sys2Proof.Machine

/-- `relayBit` is the bit of that number. -/
theorem relayBit_eq (status : Byte) (j : Nat) : relayBit status j = status.getLsbD j := by
  have h1 : ∀ x : Byte, (x &&& 1 == 1) = x.getLsbD 0 := by decide
  rw [relayBit, h1]
  simp

/-- The field clauses of `cfgOk`: every decoded index lies below the checksum byte. -/
theorem offsets_of_cfgOk {cfg : Cfg} (h : cfgOk cfg = true) :
    (∀ i : Fin 6, cfg.tempOffset[i] + 1 ≤ cfg.frameLen - 2) ∧ cfg.relayOffset ≤ cfg.frameLen - 2 := by
  simp only [cfgOk, offsetsOk, Bool.and_eq_true, decide_eq_true_eq, List.all_eq_true] at h
  obtain ⟨⟨⟨_, h1, h2⟩, _⟩, _⟩ := h
  exact ⟨fun i => h1 _ (by simp), h2⟩

/-- The size clauses of `cfgOk`. -/
theorem sizes_of_cfgOk {cfg : Cfg} (h : cfgOk cfg = true) :
    2 ≤ cfg.frameLen ∧ cfg.frameLen ≤ 255 ∧ 1 ≤ cfg.seekWindow ∧ 1 ≤ cfg.cntW := by
  simp only [cfgOk, Bool.and_eq_true, decide_eq_true_eq] at h
  omega

/-- The signature clause of `cfgOk` in sentinel mode. -/
theorem sync_of_cfgOk_sentinel {cfg : Cfg} (h : cfgOk cfg = true) (hm : cfg.startMode = .sentinel) :
    1 ≤ syncLen cfg ∧ syncLen cfg + 1 ≤ cfg.frameLen := by
  have h2 := (sizes_of_cfgOk h).1
  simp only [cfgOk, syncOk, hm, Bool.and_eq_true, decide_eq_true_eq] at h
  omega

/-- The signature clause of `cfgOk` in gap mode. -/
theorem sync_of_cfgOk_gap {cfg : Cfg} (h : cfgOk cfg = true) (hm : cfg.startMode = .gap) :
    cfg.sync = [] := by
  simp only [cfgOk, syncOk, hm, Bool.and_eq_true, decide_eq_true_eq] at h
  exact List.length_eq_zero_iff.1 h.1.1.1.1.2

theorem readTemp_of_lt {cfg : Cfg} {frame : List Byte} (i : Fin 6)
    (h : cfg.tempOffset[i] + 1 < frame.length) :
    readTemp cfg frame i = .ok (rawOf (xorTransform cfg (frame[cfg.tempOffset[i]]'(by omega)))
      (xorTransform cfg frame[cfg.tempOffset[i] + 1])) := by
  simp only [readTemp]
  rw [memRead1_of_lt (by omega), memRead1_of_lt h]
  rfl

theorem readRelay_of_lt {cfg : Cfg} {frame : List Byte} (j : Nat) (h : cfg.relayOffset < frame.length) :
    readRelay cfg frame j = .ok ((xorTransform cfg frame[cfg.relayOffset]).getLsbD j) := by
  simp only [readRelay]
  rw [memRead1_of_lt h, ← relayBit_eq]
  rfl

/-- A list of reads that all succeed. -/
theorem mapM_ok {α β : Type} (f : α → Except Fault β) (g : α → β) (xs : List α)
    (h : ∀ x ∈ xs, f x = .ok (g x)) : xs.mapM f = .ok (xs.map g) := by
  induction xs with
  | nil => rfl
  | cons x xs ih =>
    rw [List.mapM_cons, h x (by simp), ih fun y hy => h y (by simp [hy])]
    rfl

/-- `D.FRAME` never fails on a Frame of a well-formed configuration, and what it answers (R155, R157). -/
theorem readFrame_of_cfgOk {cfg : Cfg} {frame : List Byte} (h : cfgOk cfg = true)
    (hl : frame.length = cfg.frameLen) :
    readFrame cfg frame = .ok
      { temps := (List.finRange 6).map fun i =>
          rawOf (xorTransform cfg (frame.getD cfg.tempOffset[i] 0))
            (xorTransform cfg (frame.getD (cfg.tempOffset[i] + 1) 0))
        relays := (List.range cfg.nRelays).map fun j =>
          (xorTransform cfg (frame.getD cfg.relayOffset 0)).getLsbD j } := by
  obtain ⟨ht, hr⟩ := offsets_of_cfgOk h
  have h2 := (sizes_of_cfgOk h).1
  have htemps := mapM_ok (readTemp cfg frame) (fun i =>
    rawOf (xorTransform cfg (frame.getD cfg.tempOffset[i] 0))
      (xorTransform cfg (frame.getD (cfg.tempOffset[i] + 1) 0))) (List.finRange 6) (fun i _ => by
        have hi : cfg.tempOffset[i] + 1 < frame.length := by have := ht i; omega
        have hi' : cfg.tempOffset[i] < frame.length := by omega
        rw [readTemp_of_lt i hi]
        simp only [List.getD_eq_getElem?_getD, List.getElem?_eq_getElem hi, List.getElem?_eq_getElem hi',
          Option.getD_some])
  have hrelays := mapM_ok (readRelay cfg frame) (fun j =>
    (xorTransform cfg (frame.getD cfg.relayOffset 0)).getLsbD j) (List.range cfg.nRelays) (fun j _ => by
        have hj : cfg.relayOffset < frame.length := by omega
        rw [readRelay_of_lt j hj]
        simp only [List.getD_eq_getElem?_getD, List.getElem?_eq_getElem hj, Option.getD_some])
  rw [readFrame, htemps]
  simp only [bind, Except.bind]
  rw [hrelays]
  rfl

end Sys2Proof.Machine
end

