-- ==== Sys2Proof/Laws/PerInstr.lean ====
section
/-! SUPPORT. Statements made instruction by instruction. -/

namespace Sys2Proof.Laws

open Sys2Proof.Machine

/-- Every operation's words begin with a head word whose format code is one of the eight and is 0 exactly for the
operations that the dispatch word selects. -/
def EncodeHead.Statement (i : Instr) : Prop :=
  ∃ format low rest, format < 8 ∧ low < 1024 ∧ encode i = encodeHead format low ++ rest
    ∧ (callable i = true ↔ format ≠ 0)

theorem EncodeHead.reset : EncodeHead.Statement (.reset) :=
  ⟨0, 384, [], by decide, by decide, (List.append_nil _).symm, by simp [callable]⟩

theorem EncodeHead.tick : EncodeHead.Statement (.tick) :=
  ⟨0, 256, [], by decide, by decide, (List.append_nil _).symm, by simp [callable]⟩

theorem EncodeHead.aSeekMiss (b : Byte) (g : Bool) : EncodeHead.Statement (.aSeekMiss b g) :=
  ⟨0, 128, _, by decide, by decide, rfl, by simp [callable]⟩

theorem EncodeHead.aSeekFlush (b : Byte) (g : Bool) : EncodeHead.Statement (.aSeekFlush b g) :=
  ⟨0, 132, _, by decide, by decide, rfl, by simp [callable]⟩

theorem EncodeHead.aSeekHit (b : Byte) : EncodeHead.Statement (.aSeekHit b) :=
  ⟨0, 136, _, by decide, by decide, rfl, by simp [callable]⟩

theorem EncodeHead.aSeekGap (b : Byte) : EncodeHead.Statement (.aSeekGap b) :=
  ⟨0, 144, _, by decide, by decide, rfl, by simp [callable]⟩

theorem EncodeHead.aAccStore (b : Byte) : EncodeHead.Statement (.aAccStore b) :=
  ⟨0, 160, _, by decide, by decide, rfl, by simp [callable]⟩

theorem EncodeHead.aAccLast (b : Byte) : EncodeHead.Statement (.aAccLast b) :=
  ⟨0, 162, _, by decide, by decide, rfl, by simp [callable]⟩

theorem EncodeHead.aAccAbort (b : Byte) : EncodeHead.Statement (.aAccAbort b) :=
  ⟨0, 176, _, by decide, by decide, rfl, by simp [callable]⟩

theorem EncodeHead.aValPass : EncodeHead.Statement (.aValPass) :=
  ⟨0, 65, [], by decide, by decide, (List.append_nil _).symm, by simp [callable]⟩

theorem EncodeHead.aValFail : EncodeHead.Statement (.aValFail) :=
  ⟨0, 64, [], by decide, by decide, (List.append_nil _).symm, by simp [callable]⟩

theorem EncodeHead.dXor (v : Byte) : EncodeHead.Statement (.dXor v) :=
  ⟨1, 0, _, by decide, by decide, rfl, by simp [callable]⟩

theorem EncodeHead.dTemp (frame : List Byte) (i : Fin 6) : EncodeHead.Statement (.dTemp frame i) :=
  ⟨2, i.val, _, by decide, by omega, rfl, by simp [callable]⟩

theorem EncodeHead.dRelay (frame : List Byte) (j : Fin 8) : EncodeHead.Statement (.dRelay frame j) :=
  ⟨3, j.val, _, by decide, by omega, rfl, by simp [callable]⟩

theorem EncodeHead.dFrame (frame : List Byte) : EncodeHead.Statement (.dFrame frame) :=
  ⟨4, 0, _, by decide, by decide, rfl, by simp [callable]⟩

theorem EncodeHead.pFeed (b : Byte) (g : Bool) : EncodeHead.Statement (.pFeed b g) :=
  ⟨5, 0, _, by decide, by decide, rfl, by simp [callable]⟩

theorem EncodeHead.pPoll (bs : List Symbol) : EncodeHead.Statement (.pPoll bs) :=
  ⟨6, 0, _, by decide, by decide, rfl, by simp [callable]⟩

theorem EncodeHead.frameRef (fr : RefFrame) : EncodeHead.Statement (.frameRef fr) :=
  ⟨7, 0, _, by decide, by decide, rfl, by simp [callable]⟩

end Sys2Proof.Laws
end

