-- ==== Sys2Proof/Laws/Select.lean ====
section
/-! SUPPORT. What the dispatch word selects, said once for every state and event (spec/30_encoding.md R80, R83). -/

namespace Sys2Proof.Machine

/-! ### The table over the bits of the dispatch word -/

theorem operationOf_seeking (g h o l k : Bool) :
    operationOf (BitVec.ofBool false ++ 0b01#2 ++ 0b00#2 ++ BitVec.ofBool g ++ BitVec.ofBool h
      ++ BitVec.ofBool o ++ BitVec.ofBool l ++ BitVec.ofBool k)
      = some (if g then .seekGap else if h then .seekHit else if o then .seekFlush else .seekMiss) := by
  revert g h o l k; decide

theorem operationOf_accumulating (g h o l k : Bool) :
    operationOf (BitVec.ofBool false ++ 0b01#2 ++ 0b01#2 ++ BitVec.ofBool g ++ BitVec.ofBool h
      ++ BitVec.ofBool o ++ BitVec.ofBool l ++ BitVec.ofBool k)
      = some (if g then .accAbort else if l then .accLast else .accStore) := by
  revert g h o l k; decide

theorem operationOf_validating (g h o l k : Bool) :
    operationOf (BitVec.ofBool false ++ 0b00#2 ++ 0b10#2 ++ BitVec.ofBool g ++ BitVec.ofBool h
      ++ BitVec.ofBool o ++ BitVec.ofBool l ++ BitVec.ofBool k)
      = some (if k then .valPass else .valFail) := by
  revert g h o l k; decide

theorem operationOf_tick (c : Bool) (st : BitVec 2) (g h o l k : Bool) :
    operationOf (BitVec.ofBool c ++ 0b10#2 ++ st ++ BitVec.ofBool g ++ BitVec.ofBool h
      ++ BitVec.ofBool o ++ BitVec.ofBool l ++ BitVec.ofBool k) = some .tick := by
  revert c st g h o l k; decide

theorem operationOf_reset (c : Bool) (st : BitVec 2) (g h o l k : Bool) :
    operationOf (BitVec.ofBool c ++ 0b11#2 ++ st ++ BitVec.ofBool g ++ BitVec.ofBool h
      ++ BitVec.ofBool o ++ BitVec.ofBool l ++ BitVec.ofBool k) = some .reset := by
  revert c st g h o l k; decide

/-- The idle core (R83, third row). -/
theorem operationOf_idle (st : BitVec 2) (hst : st = 0b00#2 ∨ st = 0b01#2) (g h o l k : Bool) :
    operationOf (BitVec.ofBool false ++ 0b00#2 ++ st ++ BitVec.ofBool g ++ BitVec.ofBool h
      ++ BitVec.ofBool o ++ BitVec.ofBool l ++ BitVec.ofBool k) = none ∧
    noOperationReason (BitVec.ofBool false ++ 0b00#2 ++ st ++ BitVec.ofBool g ++ BitVec.ofBool h
      ++ BitVec.ofBool o ++ BitVec.ofBool l ++ BitVec.ofBool k) = .idle := by
  rcases hst with rfl | rfl <;> revert g h o l k <;> decide

/-- No event, or a byte, under `cfg_error` (R83, first row). -/
theorem operationOf_cfgError (ev : BitVec 2) (hev : ev = 0b00#2 ∨ ev = 0b01#2) (st : BitVec 2)
    (g h o l k : Bool) :
    operationOf (BitVec.ofBool true ++ ev ++ st ++ BitVec.ofBool g ++ BitVec.ofBool h
      ++ BitVec.ofBool o ++ BitVec.ofBool l ++ BitVec.ofBool k) = none ∧
    noOperationReason (BitVec.ofBool true ++ ev ++ st ++ BitVec.ofBool g ++ BitVec.ofBool h
      ++ BitVec.ofBool o ++ BitVec.ofBool l ++ BitVec.ofBool k) = .configError := by
  rcases hev with rfl | rfl <;> revert st g h o l k <;> decide

/-- A byte in `VALIDATING` (R83, second row). -/
theorem operationOf_byte_validating (c g h o l k : Bool) :
    operationOf (BitVec.ofBool c ++ 0b01#2 ++ 0b10#2 ++ BitVec.ofBool g ++ BitVec.ofBool h
      ++ BitVec.ofBool o ++ BitVec.ofBool l ++ BitVec.ofBool k) = none := by
  revert c g h o l k; decide

/-! ### The operation selected in a state -/

theorem selected_reset (s : State) : selected s (some .reset) = some .reset :=
  operationOf_reset ..

theorem selected_tick (s : State) : selected s (some .tick) = some .tick :=
  operationOf_tick ..

theorem selected_seeking {s : State} (hc : s.cfgError = false) (hs : s.st = .seekingStart) (y : Symbol) :
    selected s (some (.byte y)) = some (if gapm s y then .seekGap else if hit s y then .seekHit
      else if overWindow s then .seekFlush else .seekMiss) := by
  simp only [selected, dispatchWord, hc, hs]
  exact operationOf_seeking ..

theorem selected_accumulating {s : State} (hc : s.cfgError = false) (hs : s.st = .accumulating)
    (y : Symbol) :
    selected s (some (.byte y))
      = some (if gapm s y then .accAbort else if lastByte s then .accLast else .accStore) := by
  simp only [selected, dispatchWord, hc, hs]
  exact operationOf_accumulating ..

theorem selected_validating {s : State} (hc : s.cfgError = false) (hs : s.st = .validating) :
    selected s none = some (if checksumOk s.frame then .valPass else .valFail) := by
  have hk : sumPasses s = checksumOk s.frame := by simp [sumPasses, hs]
  rw [← hk]
  simp only [selected, dispatchWord, hc, hs]
  exact operationOf_validating ..

theorem selected_idle {s : State} (hc : s.cfgError = false) (hs : s.st ≠ .validating) :
    selected s none = none ∧ noOperationReason (dispatchWord s none) = .idle := by
  simp only [selected, dispatchWord, hc]
  refine operationOf_idle _ ?_ ..
  cases h : s.st <;> simp_all [stCode]

theorem selected_cfgError {s : State} (hc : s.cfgError = true) :
    selected s none = none ∧ noOperationReason (dispatchWord s none) = .configError := by
  simp only [selected, dispatchWord, hc]
  exact operationOf_cfgError _ (.inl rfl) ..

/-- A byte selects nothing where `in_ready = 0` (R83, R104). -/
theorem selected_byte_not_ready {s : State} (h : s.cfgError = true ∨ s.st = .validating) (y : Symbol) :
    selected s (some (.byte y)) = none := by
  cases hc : s.cfgError with
  | true =>
    simp only [selected, dispatchWord, hc]
    exact (operationOf_cfgError _ (.inr rfl) ..).1
  | false =>
    simp only [selected, dispatchWord, hc, h.resolve_left (by simp [hc])]
    exact operationOf_byte_validating ..

/-! ### From the selected operation to the fetched one -/

theorem takeSymbol_encodeSymbol (y : Symbol) (rest : List Byte) :
    takeSymbol (encodeSymbol y ++ rest) = .ok (y, rest) := by
  obtain ⟨b, g⟩ := y
  cases g <;> simp [encodeSymbol, takeSymbol]

theorem word16_bytes16 (w : Nat) (hw : w < 65536) :
    word16 (BitVec.ofNat 8 w) (BitVec.ofNat 8 (w / 256)) = w := by
  simp only [word16, BitVec.toNat_ofNat]
  omega

/-- The decoder on an item of format 0. -/
theorem decode_head_zero (sel : Sel) (rest : List Byte) :
    decode (encodeHead 0 sel.toNat ++ rest) = decodeSelected sel rest := by
  have h := sel.isLt
  have hw := word16_bytes16 sel.toNat (by omega)
  simp only [encodeHead, bytes16, Nat.zero_mul, Nat.zero_add, List.cons_append, List.nil_append, decode,
    hw]
  rw [if_pos (by omega), Nat.mod_eq_of_lt (by omega), BitVec.ofNat_toNat, BitVec.setWidth_eq]

/-- What the dispatch fetches where the dispatch word selects an operation. -/
theorem fetchSelected_of_selected {s : State} {ev : Option InEvent} {op : Operation}
    (h : selected s ev = some op) (y : Symbol)
    (hy : op.takesByte = true → ev = some (.byte y)) :
    fetchSelected s ev = .run (op.withSymbol (if op.takesByte then y else ⟨0, false⟩)) s := by
  have h' : operationOf (dispatchWord s ev) = some op := h
  cases hb : op.takesByte
  · simp only [fetchSelected, dispatchBytes, decode_head_zero, decodeSelected, h', hb,
      Bool.false_eq_true, if_false]
  · obtain rfl := hy hb
    have hs := takeSymbol_encodeSymbol y []
    rw [List.append_nil] at hs
    simp only [fetchSelected, dispatchBytes, decode_head_zero, decodeSelected, h', hb, if_true, hs]

/-- What the dispatch fetches where it selects nothing: the idle core. -/
theorem fetchSelected_none {s : State} (h : s.cfgError = true ∨ s.st ≠ .validating) :
    fetchSelected s none = .idle (beginStep s) := by
  cases hc : s.cfgError with
  | true =>
    obtain ⟨h1, h2⟩ := selected_cfgError hc
    have h1' : operationOf (dispatchWord s none) = none := h1
    simp only [fetchSelected, dispatchBytes, decode_head_zero, decodeSelected, h1', h2]
  | false =>
    obtain ⟨h1, h2⟩ := selected_idle hc (by simpa [hc] using h)
    have h1' : operationOf (dispatchWord s none) = none := h1
    simp only [fetchSelected, dispatchBytes, decode_head_zero, decodeSelected, h1', h2]

/-- The meaning of a selected operation is the arm of `exec` that stands for it. -/
theorem exec_withSymbol (op : Operation) (y : Symbol) (s : State) :
    exec (op.withSymbol y) s = runOperation op y s := by
  cases op <;> rfl

/-- The symbol matters only to an operation that a byte triggers. -/
theorem runOperation_symbol {op : Operation} (h : op.takesByte = false) (y y' : Symbol) (s : State) :
    runOperation op y s = runOperation op y' s := by
  cases op <;> simp_all [Operation.takesByte, runOperation]

end Sys2Proof.Machine
end

