-- ==== Sys2Proof/Laws/PollCycle.lean ====
section
/-! SUPPORT. What a dispatched operation, the internal step and the feeding of a byte can do, said once. -/

namespace Sys2Proof.Machine

/-- The fields that no dispatched operation writes, and `cfg_error`, which `RESET` alone does. -/
theorem runOperation_keeps {op : Operation} {y : Symbol} {s t : State} (h : runOperation op y s = .next t) :
    t.cfg = s.cfg ∧ t.input = s.input ∧ t.funcResult = s.funcResult ∧ (op ≠ .reset → t.cfgError = s.cfgError) := by
  cases op <;>
    simp only [runOperation, execReset, execTick, execASeekMiss, execASeekFlush, execASeekHit, execASeekGap,
      execAAccStore, execAAccLast, execAAccAbort, execAValPass, execAValFail] at h
  case reset => split at h <;> cases h <;> exact ⟨rfl, rfl, rfl, by simp⟩
  case seekHit =>
    have h1 := finish_eq_next h
    cases hw : writeBytes (beginStep s) 0 s.cfg.sync with
    | error f => rw [hw] at h1; cases h1
    | ok u =>
      rw [hw] at h1
      obtain rfl := Except.ok.inj h1
      obtain ⟨m, rfl⟩ := writeBytes_eq_ok hw
      exact ⟨rfl, rfl, rfl, fun _ => rfl⟩
  case valPass =>
    have h1 := finish_eq_next h
    cases hr : readFrame s.cfg s.frame with
    | error f => rw [hr] at h1; cases h1
    | ok r => rw [hr] at h1; cases h1; exact ⟨rfl, rfl, rfl, fun _ => rfl⟩
  case tick => cases h; exact ⟨rfl, rfl, rfl, fun _ => rfl⟩
  case seekMiss => cases h; exact ⟨rfl, rfl, rfl, fun _ => rfl⟩
  case seekFlush => cases h; exact ⟨rfl, rfl, rfl, fun _ => rfl⟩
  case valFail => cases h; exact ⟨rfl, rfl, rfl, fun _ => rfl⟩
  all_goals
    have h1 := finish_eq_next h
    revert h1
    simp only [writeByte]
    split
    · intro h1; cases h1; exact ⟨rfl, rfl, rfl, fun _ => rfl⟩
    · intro h1; cases h1

/-- The record of the last step's events is cleared first, so no operation depends on it. -/
theorem runOperation_beginStep (op : Operation) (y : Symbol) (s : State) :
    runOperation op y (beginStep s) = runOperation op y s := by
  cases op <;> rfl

/-- The dispatch does not depend on the record of the last step's events. -/
theorem selected_beginStep (s : State) (ev : Option InEvent) : selected (beginStep s) ev = selected s ev := rfl

/-- Nothing is pending outside `VALIDATING`. -/
theorem settle_of_ne {s : State} (h : s.st ≠ .validating) : settle s = .next s := by
  simp [settle, h]

/-- The internal step in `VALIDATING`. -/
theorem settle_validating {s : State} (hc : s.cfgError = false) (hs : s.st = .validating) :
    settle s = runOperation (if checksumOk s.frame then .valPass else .valFail) ⟨0, false⟩ s := by
  simp [settle, hs, selected_validating hc hs]

theorem inReady_iff {s : State} : s.inReady = true ↔ s.cfgError = false ∧ s.st ≠ .validating := by
  simp [State.inReady]

/-- What a byte selects where one is accepted. -/
theorem selected_byte_of_inReady {s : State} (h : s.inReady = true) (y : Symbol) :
    ∃ op, selected s (some (.byte y)) = some op ∧ op.takesByte = true := by
  obtain ⟨hc, hs⟩ := inReady_iff.1 h
  cases hst : s.st with
  | seekingStart =>
    refine ⟨_, selected_seeking hc hst y, ?_⟩
    split <;> [rfl; split <;> [rfl; split <;> rfl]]
  | accumulating =>
    refine ⟨_, selected_accumulating hc hst y, ?_⟩
    split <;> [rfl; split <;> rfl]
  | validating => exact absurd hst hs

/-- Feeding an accepted byte: the selected operation and then the internal step. -/
theorem feed_of_selected {s : State} {y : Symbol} {op : Operation} (h : s.inReady = true)
    (hop : selected s (some (.byte y)) = some op) :
    feed y s = andThen (runOperation op y s) settle := by
  simp [feed, h, hop]

/-- All that the internal step, where one is pending, can do to the fields no operation writes; nothing is pending
afterwards. -/
theorem settle_keeps {s t : State} (hc : s.cfgError = false) (h : settle s = .next t) :
    t.cfg = s.cfg ∧ t.input = s.input ∧ t.funcResult = s.funcResult ∧ t.inReady = true := by
  by_cases hs : s.st = .validating
  · rw [settle_validating hc hs] at h
    obtain ⟨h1, h2, h3, h4⟩ := runOperation_keeps h
    have hst : t.st = .seekingStart := by
      revert h
      split
      · simp only [runOperation, execAValPass]
        intro h
        have h := finish_eq_next h
        cases hr : readFrame s.cfg s.frame with
        | error f => rw [hr] at h; cases h
        | ok r => rw [hr] at h; cases h; rfl
      · intro h; cases h; rfl
    refine ⟨h1, h2, h3, inReady_iff.2 ⟨?_, by simp [hst]⟩⟩
    rw [h4 (by split <;> simp), hc]
  · rw [settle_of_ne hs] at h
    cases h
    exact ⟨rfl, rfl, rfl, inReady_iff.2 ⟨hc, hs⟩⟩

/-- All that feeding an accepted byte can do to the fields no operation writes; `in_ready` is 1 again afterwards. -/
theorem feed_keeps {s t : State} {y : Symbol} (hr : s.inReady = true) (h : feed y s = .next t) :
    t.cfg = s.cfg ∧ t.input = s.input ∧ t.funcResult = s.funcResult ∧ t.inReady = true := by
  obtain ⟨op, hop, hb⟩ := selected_byte_of_inReady hr y
  rw [feed_of_selected hr hop] at h
  obtain ⟨u, hu, ht⟩ := andThen_eq_next h
  obtain ⟨h1, h2, h3, h4⟩ := runOperation_keeps hu
  have hne : op ≠ .reset := by rintro rfl; cases hb
  obtain ⟨k1, k2, k3, k4⟩ := settle_keeps ((h4 hne).trans (inReady_iff.1 hr).1) ht
  exact ⟨k1.trans h1, k2.trans h2, k3.trans h3, k4⟩

/-- The same for a sequence of bytes. -/
theorem feedAll_keeps : ∀ {ys : List Symbol} {s t : State}, s.inReady = true → feedAll ys s = .next t →
    t.cfg = s.cfg ∧ t.input = s.input ∧ t.funcResult = s.funcResult ∧ t.inReady = true
  | [], s, t, hr, h => by cases h; exact ⟨rfl, rfl, rfl, hr⟩
  | y :: ys, s, t, hr, h => by
    simp only [feedAll, hr, if_true] at h
    obtain ⟨u, hu, ht⟩ := andThen_eq_next h
    obtain ⟨h1, h2, h3, h4⟩ := feed_keeps hr hu
    obtain ⟨k1, k2, k3, k4⟩ := feedAll_keeps h4 ht
    exact ⟨k1.trans h1, k2.trans h2, k3.trans h3, k4⟩

/-- Feeding a byte that is not accepted. -/
theorem feed_of_not_inReady {s : State} (h : s.inReady = false) (y : Symbol) :
    feed y s = .next (hold [y] s) := by
  simp [feed, h]

end Sys2Proof.Machine
end

