-- ==== Sys2Proof/Laws/Step.lean ====
section
/-! SUPPORT. Which input a step takes, and all that a step can do. -/

namespace Sys2Proof.Machine

/-- What is taken past waiting inputs does not wait; those stay in front of what is left, in order. -/
theorem takePastWaiting_eq_some : ∀ {xs rest : List Input} {x : Input}, takePastWaiting xs = some (x, rest) →
    Input.waits x = false ∧ ∃ before after, xs = before ++ x :: after ∧ rest = before ++ after ∧
      ∀ c ∈ before, Input.waits c = true
  | c :: xs, rest, x, h => by
    simp only [takePastWaiting] at h
    split at h
    · next hc =>
      simp only [Option.map_eq_some_iff, Prod.exists, Prod.mk.injEq] at h
      obtain ⟨_, r, ha, rfl, rfl⟩ := h
      obtain ⟨hx, before, after, rfl, rfl, hb⟩ := takePastWaiting_eq_some ha
      exact ⟨hx, c :: before, after, rfl, rfl, by simpa [hc] using hb⟩
    · next hc =>
      cases h
      exact ⟨by simpa using hc, [], xs, rfl, rfl, by simp⟩

/-- All that taking an input can do: one goes, those before it wait under `cfg_error`, and one that waits is taken
only with `in_ready = 1` (R104, R190). -/
theorem takeInput_eq_some {s : State} {x : Input} {rest : List Input} (h : takeInput s = some (x, rest)) :
    ∃ before after, s.input = before ++ x :: after ∧ rest = before ++ after ∧
      (∀ c ∈ before, Input.waits c = true) ∧ (s.cfgError = false → before = []) ∧
      (Input.waits x = true → s.inReady = true) := by
  simp only [takeInput] at h
  split at h
  · next hc =>
    obtain ⟨hx, before, after, h1, h2, hb⟩ := takePastWaiting_eq_some h
    exact ⟨before, after, h1, h2, hb, by simp [hc], by simp [hx]⟩
  · next hc =>
    split at h
    · cases h
    · next c cs hin =>
      split at h
      · cases h
      · next hv =>
        cases h
        refine ⟨[], rest, hin, rfl, by simp, fun _ => rfl, fun hw => ?_⟩
        rw [inReady_iff]
        exact ⟨by simpa using hc, fun hs => hv ⟨hs, hw⟩⟩

/-- An input that waits, a byte or a call, is taken only with `in_ready = 1` (R104). -/
theorem inReady_of_takeInput {s : State} {x : Input} {rest : List Input} (h : takeInput s = some (x, rest))
    (hx : Input.waits x = true) : s.inReady = true := by
  obtain ⟨-, -, -, -, -, -, hr⟩ := takeInput_eq_some h
  exact hr hx

/-- The pending inputs play no part in the dispatch. -/
theorem selected_input (s : State) (rest : List Input) (ev : Option InEvent) :
    selected { s with input := rest } ev = selected s ev := rfl

/-- What an operation that a host may call does to the fields that the core's operations do not write. -/
theorem exec_callable_keeps {i : Instr} {s t : State} (hc : callable i = true) (hr : s.inReady = true)
    (h : exec i s = .next t) : t.cfg = s.cfg ∧ t.input = s.input ∧ t.inReady = true := by
  cases i <;> simp only [callable, Bool.false_eq_true] at hc
  case dXor => cases h; exact ⟨rfl, rfl, hr⟩
  case pFeed => obtain ⟨h1, h2, -, h3⟩ := feed_keeps hr h; exact ⟨h1, h2, h3⟩
  case pPoll bs =>
    have hp : feedAll bs (beginStep s) = .next t := h
    have hr' : (beginStep s).inReady = true := hr
    obtain ⟨h1, h2, -, h3⟩ := feedAll_keeps hr' hp
    exact ⟨h1, h2, h3⟩
  case frameRef => obtain ⟨h1, h2, -, h3⟩ := feedAll_keeps hr h; exact ⟨h1, h2, h3⟩
  all_goals
    have h := finish_eq_next h
    simp only [bind, Except.bind] at h
    repeat' split at h
    all_goals first
      | cases h; done
      | cases h; exact ⟨rfl, rfl, hr⟩

/-- All that a step can do. -/
theorem step_cases {s t : State} (h : step s = .next t) :
    (∃ code rest i, takeInput s = some (.call code, rest) ∧ s.inReady = true ∧ decode code = .ok (i, []) ∧ callable i = true ∧
      exec i { s with input := rest } = .next t) ∨
    (∃ e rest op y, takeInput s = some (.event e, rest) ∧ selected s (some e) = some op ∧
      (op.takesByte = true → e = .byte y) ∧ runOperation op y { s with input := rest } = .next t) ∨
    (∃ op, takeInput s = none ∧ s.cfgError = false ∧ s.st = .validating ∧ selected s none = some op ∧
      runOperation op ⟨0, false⟩ s = .next t) ∨
    (takeInput s = none ∧ (s.cfgError = true ∨ s.st ≠ .validating) ∧ t = beginStep s) := by
  simp only [step, fetch] at h
  cases hin : takeInput s with
  | none =>
    simp only [hin] at h
    by_cases hv : s.cfgError = true ∨ s.st ≠ .validating
    · rw [fetchSelected_none hv] at h
      cases h
      exact .inr (.inr (.inr ⟨rfl, hv, rfl⟩))
    · simp only [not_or, Bool.not_eq_true, ne_eq, not_not] at hv
      have hsel := selected_validating hv.1 hv.2
      have hb : (if checksumOk s.frame then Operation.valPass else .valFail).takesByte = false := by
        split <;> rfl
      rw [fetchSelected_of_selected hsel ⟨0, false⟩ (by simp [hb])] at h
      simp only [hb, Bool.false_eq_true, if_false, exec_withSymbol] at h
      exact .inr (.inr (.inl ⟨_, rfl, hv.1, hv.2, hsel, h⟩))
  | some p =>
    obtain ⟨x, rest⟩ := p
    cases x with
    | call code =>
      simp only [hin, fetchCalled] at h
      cases hd : decode code with
      | error e => simp [hd] at h
      | ok q =>
        obtain ⟨i, more⟩ := q
        cases more with
        | cons c cs => simp [hd] at h
        | nil =>
          simp only [hd] at h
          cases hc : callable i with
          | false => simp [hc] at h
          | true => exact .inl ⟨code, rest, i, rfl, inReady_of_takeInput hin rfl, hd, hc, by simpa [hc] using h⟩
    | event e =>
      simp only [hin] at h
      have hop : ∃ op y, selected s (some e) = some op ∧ (op.takesByte = true → e = .byte y) := by
        cases e with
        | reset => exact ⟨_, ⟨0, false⟩, selected_reset s, by simp [Operation.takesByte]⟩
        | tick => exact ⟨_, ⟨0, false⟩, selected_tick s, by simp [Operation.takesByte]⟩
        | byte y =>
          obtain ⟨op, h1, -⟩ := selected_byte_of_inReady (inReady_of_takeInput hin rfl) y
          exact ⟨op, y, h1, fun _ => rfl⟩
      obtain ⟨op, y, hsel, hy⟩ := hop
      rw [fetchSelected_of_selected (s := { s with input := rest }) hsel y (fun hb => by rw [hy hb])] at h
      simp only [exec_withSymbol] at h
      refine .inr (.inl ⟨e, rest, op, y, rfl, hsel, hy, ?_⟩)
      cases hb : op.takesByte with
      | true => simpa [hb] using h
      | false =>
        rw [runOperation_symbol hb y ⟨0, false⟩]
        simpa [hb] using h

end Sys2Proof.Machine
end

