-- ==== Sys2Proof/Tests/Slice0.lean ====
section
/-! SUPPORT. Tests: ill-formed terms, words of every constructor written out from spec/30_encoding.md (R77, R80) and
log 8, one-step vectors of spec/95_test_vectors.md (the vector's name stands in the theorem's), and for every
statement with hypotheses a state and operands that meet them together (`witness_<statement>`). -/

namespace Sys2Proof.Tests

open Machine

/-! ### Helpers -/

/-- A view of the next state, where there is one. -/
def look {α : Type} (o : Host.Outcome State Fault Refusal) (f : State → α) : Option α :=
  match o with
  | .next t => some (f t)
  | .fault _ => none
  | .refused _ => none

/-- Whether there is a next state and it passes a check. -/
def passes (o : Host.Outcome State Fault Refusal) (check : State → Bool) : Bool :=
  (look o check).getD false

/-- The cells of bytes from index 0 on. -/
def cells (bytes : List Byte) : Memory :=
  bytes.zipIdx.map fun p => (p.2, p.1)

/-- The reset state under another configuration. -/
def start (cfg : Cfg) : State :=
  { State.reset with cfg := cfg, cfgError := !cfgOk cfg }

/-- Accumulating with these bytes held. -/
def accumulating (cfg : Cfg) (bytes : List Byte) : State :=
  { start cfg with st := .accumulating, count := bytes.length, buf := cells bytes }

/-- Validating this frame. -/
def validating (cfg : Cfg) (frame : List Byte) : State :=
  { start cfg with st := .validating, count := frame.length, buf := cells frame }

/-- The state tuple of spec/95_test_vectors.md section 0. -/
def tuple (s : State) : AsmState × Nat × Nat × Nat × Nat × Nat :=
  (s.st, s.count, s.matchLen, s.seekCount, s.framingErrors, s.checksumErrors)

/-- F1 without its checksum byte. -/
def f1Payload : List Byte :=
  [0xAA, 0x55, 0x00, 0x00, 0x00, 0x00, 0x64, 0x00, 0xC8, 0x01, 0x2C, 0x01, 0x90, 0x01, 0xF4, 0x02,
    0x58, 0x00, 0x00, 0x00, 0x0D, 0x00, 0x00, 0x00, 0x00, 0x00, 0x00, 0x00, 0x00, 0x00, 0x00]

/-- F1, the scenario frame. -/
def f1 : List Byte := f1Payload ++ [0x45]

/-- F2, the corner values. -/
def f2 : List Byte :=
  [0xAA, 0x55, 0x01, 0x02, 0x03, 0xFF, 0xFF, 0x80, 0x00, 0x7F, 0xFF, 0x00, 0x01, 0xFF, 0x9C, 0x00,
    0x00, 0x09, 0x09, 0x09, 0xF2, 0x11, 0x11, 0x11, 0x11, 0x11, 0x11, 0x11, 0x11, 0x11, 0x11, 0x54]

/-- G4: the smallest useful frame, gap mode, overlapping fields. -/
def g4 : Cfg :=
  { referenceCfg with
    frameLen := 4, startMode := .gap, sync := [], seekWindow := 8
    tempOffset := #v[0, 0, 0, 1, 1, 1], relayOffset := 2, tempSigned := false, xorMask := 0xFF }

/-- REF8 with a sign convention and the illustrative mask of REFX. -/
def ref8 (signed xor : Bool) : Cfg :=
  { referenceCfg with nRelays := 8, tempSigned := signed, xorEn := xor, xorMask := 0xFF }

/-- A reference frame whose fields are those of F1. -/
def f1Fields : RefFrame :=
  { u2 := 0, u3 := 0, u4 := 0, a := 100, b := 200, c := 300, d := 400, e := 500, f := 600
    u17 := 0, u18 := 0, u19 := 0, statusHigh := 0, r := 0b1101, u21 := List.replicate 10 0, k := 0x45 }

/-! ### Ill-formed terms -/

theorem test_wellFormed_refuses_short_frame : ¬ WellFormed (.dTemp [0x01] 0) := by decide
theorem test_wellFormed_refuses_long_frame : ¬ WellFormed (.dFrame (List.replicate 256 0)) := by
  decide +kernel
theorem test_wellFormed_refuses_relay_frame : ¬ WellFormed (.dRelay [] 0) := by decide
theorem test_wellFormed_refuses_nine_bytes :
    ¬ WellFormed (.frameRef { f1Fields with u21 := List.replicate 9 0 }) := by decide

/-! ### Words -/

theorem test_decode_reset : decode [0b10000000, 0b00000001] = .ok (.reset, []) := rfl
theorem test_decode_tick : decode [0b00000000, 0b00000001] = .ok (.tick, []) := rfl
theorem test_decode_seekMiss :
    decode [0b10000000, 0b00000000, 0b00010010, 0b00000000] = .ok (.aSeekMiss 0x12 false, []) := rfl
theorem test_decode_seekFlush :
    decode [0b10000100, 0b00000000, 0b01010101, 0b00000001] = .ok (.aSeekFlush 0x55 true, []) := rfl
theorem test_decode_seekHit :
    decode [0b10001000, 0b00000000, 0b01010101, 0b00000000] = .ok (.aSeekHit 0x55, []) := rfl
theorem test_decode_seekHit_over :
    decode [0b10001100, 0b00000000, 0b01010101, 0b00000000] = .ok (.aSeekHit 0x55, []) := rfl
theorem test_decode_seekGap :
    decode [0b10010000, 0b00000000, 0b01111110, 0b00000001] = .ok (.aSeekGap 0x7E, []) := rfl
theorem test_decode_accStore :
    decode [0b10100000, 0b00000000, 0b11001000, 0b00000000] = .ok (.aAccStore 0xC8, []) := rfl
theorem test_decode_accLast :
    decode [0b10100010, 0b00000000, 0b01000101, 0b00000000] = .ok (.aAccLast 0x45, []) := rfl
theorem test_decode_accAbort_last :
    decode [0b10110010, 0b00000000, 0b00101110, 0b00000001] = .ok (.aAccAbort 0x2E, []) := rfl
theorem test_decode_valPass : decode [0b01000001, 0b00000000] = .ok (.aValPass, []) := rfl
theorem test_decode_valFail : decode [0b01000000, 0b00000000] = .ok (.aValFail, []) := rfl
theorem test_decode_xor : decode [0b00000000, 0b00000100, 0x9B] = .ok (.dXor 0x9B, []) := rfl
theorem test_decode_temp :
    decode [0b00000101, 0b00001000, 2, 0x12, 0x34] = .ok (.dTemp [0x12, 0x34] 5, []) := rfl
theorem test_decode_relay :
    decode [0b00000111, 0b00001100, 2, 0x12, 0x34] = .ok (.dRelay [0x12, 0x34] 7, []) := rfl
theorem test_decode_frame :
    decode [0b00000000, 0b00010000, 3, 1, 2, 3] = .ok (.dFrame [1, 2, 3], []) := rfl
theorem test_decode_feed :
    decode [0b00000000, 0b00010100, 0x7E, 0b00000001] = .ok (.pFeed 0x7E true, []) := rfl
theorem test_decode_poll :
    decode [0b00000000, 0b00011000, 0xAA, 0b10000000, 0x7E, 0b10000001, 0, 0]
      = .ok (.pPoll [⟨0xAA, false⟩, ⟨0x7E, true⟩], []) := rfl
theorem test_decode_frameRef :
    decode ([0b00000000, 0b00011100] ++ f1) = .ok (.frameRef f1Fields, []) := rfl
theorem test_decode_refuses_format_8 : decode [0, 0b00100000] = .error .unknownFormat := rfl
theorem test_decode_refuses_index_6 : decode [6, 0b00001000, 2, 1, 1] = .error .badOperand := rfl
theorem test_decode_refuses_symbol_bit_9 :
    decode [0b10000000, 0, 0x12, 0b00000010] = .error .reservedBits := rfl
theorem test_decode_refuses_byte_while_validating : decode [0b11000000, 0] = .error .byteWhileValidating := rfl

/-! ### The table's words as the first operation after reset -/

theorem test_withFetchWord_seekFlush :
    passes (step (State.reset.withFetchWord 16 0x084))
      (fun t => tuple t == (.seekingStart, 0, 0, 0, 1, 0) && t.out == [.errFraming]) = true := by decide
theorem test_withFetchWord_valPass :
    passes (step (State.reset.withFetchWord 16 0x041))
      (fun t => tuple t == (.seekingStart, 0, 0, 0, 0, 0) && t.out.length == 1) = true := by decide +kernel

/-! ### One step -/

theorem test_reset_mid_frame :
    passes (exec .reset { accumulating referenceCfg (f1Payload.take 17) with framingErrors := 3 })
      (fun t => tuple t == (.seekingStart, 0, 0, 0, 0, 0) && t.cfgError == false && t.out == []) = true := by decide
theorem test_reset_V82 :
    passes (exec .reset (start { referenceCfg with tempOffset := #v[5, 7, 9, 11, 13, 30] }))
      (fun t => t.cfgError == true && errCode t == 3 && t.inReady == false) = true := by decide
theorem test_tick_V42 :
    look (exec .tick (accumulating referenceCfg (f1Payload.take 17))) tuple
      = some (.accumulating, 17, 0, 0, 0, 0) := by decide
theorem test_seekMiss_V13 :
    look (exec (.aSeekMiss 0x12 false) State.reset) tuple = some (.seekingStart, 0, 0, 1, 0, 0) := by decide
theorem test_seekMiss_keeps_overlap_V5 :
    look (exec (.aSeekMiss 0xAA false) { State.reset with matchLen := 1 }) State.matchLen = some 1 := by decide
theorem test_seekFlush_V20 :
    passes (exec (.aSeekFlush 0xAA false) { State.reset with seekCount := 64 })
      (fun t => tuple t == (.seekingStart, 0, 1, 0, 1, 0) && t.trace == [.errFraming]) = true := by decide
theorem test_seekFlush_wraps_V46 :
    look (exec (.aSeekFlush 0 false) { start { referenceCfg with cntW := 2 } with framingErrors := 3 })
      State.framingErrors = some 0 := by decide
theorem test_seekHit_V14 :
    passes (exec (.aSeekHit 0x55) { State.reset with matchLen := 1, seekCount := 2 })
      (fun t => tuple t == (.accumulating, 2, 0, 0, 0, 0) && t.buf == [(0, 0xAA), (1, 0x55)]) = true := by decide
theorem test_seekGap_R127 :
    passes (exec (.aSeekGap 0x10) (start g4))
      (fun t => tuple t == (.accumulating, 1, 0, 0, 0, 0) && t.buf == [(0, 0x10)]) = true := by decide
theorem test_accStore_V23 :
    passes (exec (.aAccStore 0x00) (accumulating referenceCfg [0xAA, 0x55]))
      (fun t => tuple t == (.accumulating, 3, 0, 0, 0, 0) && t.bufByte 2 == 0x00) = true := by decide
theorem test_accLast_V24 :
    passes (exec (.aAccLast 0x45) (accumulating referenceCfg f1Payload))
      (fun t => tuple t == (.validating, 32, 0, 0, 0, 0) && t.bufByte 31 == 0x45 && t.inReady == false) = true := by decide
theorem test_accAbort_V38 :
    passes (exec (.aAccAbort 0x30) (accumulating g4 [0x10, 0x20]))
      (fun t => tuple t == (.accumulating, 1, 0, 0, 1, 0) && t.bufByte 0 == 0x30 && t.out == [.errFraming]) = true := by decide
theorem test_valPass_V25 :
    passes (exec .aValPass (validating referenceCfg f1))
      (fun t => tuple t == (.seekingStart, 0, 0, 0, 0, 0) && t.out == [.readings ⟨[100, 200, 300, 400, 500, 600], [true, false, true, true]⟩]) = true := by decide +kernel
theorem test_valPass_overlap_V37 :
    look (exec .aValPass (validating g4 [1, 2, 3, 6])) State.out
      = some [.readings ⟨[258, 258, 258, 515, 515, 515], [true, true, false, false]⟩] := by decide
theorem test_valFail_V26 :
    passes (exec .aValFail (validating referenceCfg (f1Payload ++ [0x44])))
      (fun t => tuple t == (.seekingStart, 0, 0, 0, 0, 1) && t.out == [.errChecksum]) = true := by decide
theorem test_selected_V26 : selected (validating referenceCfg (f1Payload ++ [0x44])) none = some .valFail := by
  decide +kernel
theorem test_xor_V48 :
    look (exec (.dXor 0x9B) (start (ref8 false true))) State.funcResult = some (some (.byte 0x64)) := by decide
theorem test_temp_V60_signed :
    look (exec (.dTemp f2 4) (start (ref8 true false))) State.funcResult
      = some (some (.temp 0xFF9C (-100))) := by decide
theorem test_temp_V58_unsigned :
    look (exec (.dTemp f2 1) (start (ref8 false false))) State.funcResult
      = some (some (.temp 0x8000 32768)) := by decide
theorem test_relay_V67 :
    look (exec (.dRelay f2 7) (start (ref8 false false))) State.funcResult = some (some (.relay true)) := by
  decide
theorem test_relay_beyond_N_RELAYS :
    exec (.dRelay f2 7) State.reset = .fault (.noSuchRelay 7) := rfl
theorem test_frame_V77 :
    look (exec (.dFrame f1) (start (ref8 true true))) State.funcResult
      = some (some (.readings ⟨[0xFF9B, 0xFF37, 0xFED3, 0xFE6F, 0xFE0B, 0xFDA7],
        [false, true, false, false, true, true, true, true]⟩)) := by decide
theorem test_feed_V101 :
    passes (exec (.pFeed 0x45 false) (accumulating referenceCfg f1Payload))
      (fun t => tuple t == (.seekingStart, 0, 0, 0, 0, 0) && t.trace == [.readings ⟨[100, 200, 300, 400, 500, 600], [true, false, true, true]⟩]) = true := by decide +kernel
theorem test_feed_V97_not_accepted :
    passes (exec (.pFeed 0x45 false) (start { referenceCfg with cntW := 0 }))
      (fun t => tuple t == (.seekingStart, 0, 0, 0, 0, 0) && t.input == [.event (.byte ⟨0x45, false⟩)]) = true := by decide
theorem test_poll_V14 :
    look (exec (.pPoll (plainSymbols [0xAA, 0xAA, 0x55])) State.reset) tuple
      = some (.accumulating, 2, 0, 0, 0, 0) := by decide
theorem test_poll_V38 :
    passes (exec (.pPoll [⟨0x10, true⟩, ⟨0x20, false⟩, ⟨0x30, true⟩]) (start g4))
      (fun t => tuple t == (.accumulating, 1, 0, 0, 1, 0) && t.trace == [.errFraming]) = true := by decide
theorem test_frameRef_X1 :
    passes (exec (.frameRef f1Fields) State.reset)
      (fun t => tuple t == (.seekingStart, 0, 0, 0, 0, 0) && t.trace == [.readings ⟨[100, 200, 300, 400, 500, 600], [true, false, true, true]⟩]) = true := by decide +kernel
theorem test_step_byte_V19 :
    passes (step { State.reset with
      seekCount := 64, matchLen := 1, input := [.event (.byte ⟨0x55, false⟩), .event .tick] })
      (fun t => tuple t == (.accumulating, 2, 0, 0, 0, 0) && t.input == [.event .tick]) = true := by decide
theorem test_step_refuses_dispatched_call :
    step { State.reset with input := [.call (encode .aValFail)] } = .refused .notCallable := rfl
theorem test_step_call_waits_in_validating_R103 :
    passes (step { validating g4 [1, 2, 3, 6] with
      input := [.call (encode (.pFeed 0x10 true)), .event (.byte ⟨0x20, false⟩)] })
      (fun t => t.st == .seekingStart && t.out.length == 1 &&
        t.input == [.call (encode (.pFeed 0x10 true)), .event (.byte ⟨0x20, false⟩)]) = true := by decide
theorem test_step_cfgError_takes_no_call_R190 :
    passes (step { start { referenceCfg with cntW := 0 } with
      input := [.event (.byte ⟨9, false⟩), .call (encode (.dXor 1)), .event .tick] })
      (fun t => t.funcResult == none &&
        t.input == [.event (.byte ⟨9, false⟩), .call (encode (.dXor 1))]) = true := by decide
theorem test_gframe_line_R87 :
    StimulusLine.expand (.gframe 0x01 [0x02, 0x03])
      = [.pFeed 0x01 true, .pFeed 0x02 false, .pFeed 0x03 false, .pFeed 0x06 false] := by decide
theorem test_advance_V10_V12 :
    (advance [1, 2, 1, 3] 3 2, advance [1, 2, 1, 3] 3 1, advance [1, 2, 1, 3] 3 3) = (2, 1, 4) := by decide
theorem test_cfgOk_V86_V87 :
    (cfgOk { referenceCfg with frameLen := 22 }, cfgOk { referenceCfg with frameLen := 21 })
      = (true, false) := by decide
theorem test_celsius_R153 : celsius (-1) = -1 / 10 := by simp [celsius]
theorem test_dispatch_counts_V40 :
    ((List.range 1024).countP fun n => (operationOf (BitVec.ofNat 10 n)).isSome) = 608 := by decide +kernel

/-! ### Witnesses: a state and operands that meet all hypotheses of each statement that has any -/

theorem witness_DecodeOfEncodeIsInstruction :
    WellFormed (.dTemp [1, 2] 5) ∧ WellFormed (.dRelay [1, 2] 7) ∧ WellFormed (.dFrame (List.replicate 255 1)) ∧
      WellFormed (.frameRef f1Fields) ∧ WellFormed .reset := by decide +kernel

theorem witness_DispatchSelectsExactlyOneRow :
    (∃ row ∈ opRows, row.selects 0x08C = true) ∧
    ((∀ y, some (InEvent.byte ⟨1, false⟩) = some (.byte y) → State.reset.inReady = true) ∧
      (some (InEvent.byte ⟨1, false⟩) = none →
        State.reset.cfgError = false ∧ State.reset.st = .validating)) ∧
    ((∀ y, (none : Option InEvent) = some (.byte y) → (validating g4 [1, 2, 3, 6]).inReady = true) ∧
      ((none : Option InEvent) = none →
        (validating g4 [1, 2, 3, 6]).cfgError = false ∧ (validating g4 [1, 2, 3, 6]).st = .validating)) :=
  ⟨by decide, ⟨fun _ _ => rfl, fun h => (nomatch h)⟩, ⟨fun _ h => (nomatch h), fun _ => ⟨rfl, rfl⟩⟩⟩

theorem witness_StepRunsTheDecodedOperation_event :
    takeInput { State.reset with input := [.event (.byte ⟨0x12, false⟩)] }
        = some (.event (.byte ⟨0x12, false⟩), []) ∧
      decode (dispatchBytes { State.reset with input := [] } (some (.byte ⟨0x12, false⟩)))
        = .ok (.aSeekMiss 0x12 false, []) := ⟨rfl, rfl⟩

theorem witness_StepRunsTheDecodedOperation_internal :
    takeInput (validating g4 [1, 2, 3, 6]) = none ∧
      decode (dispatchBytes (validating g4 [1, 2, 3, 6]) none) = .ok (.aValPass, []) := ⟨rfl, rfl⟩

theorem witness_StepRunsTheDecodedOperation_call :
    takeInput { State.reset with input := [.call (encode (.dXor 1))] }
        = some (.call (encode (.dXor 1)), []) ∧
      decode (encode (.dXor 1)) = .ok (.dXor 1, []) ∧ callable (.dXor 1) = true := ⟨rfl, rfl, rfl⟩

theorem witness_EveryOperationCanBeFetched : WellFormed .aValFail ∧ WellFormed (.dFrame [1, 2]) := by decide

theorem witness_IdleCoreHolds : State.reset.input = [] ∧ State.reset.st ≠ .validating := by decide

theorem witness_ByteWaitsWhileNotReady_validating :
    let s := { validating g4 [1, 2, 3, 6] with input := [.event (.byte ⟨9, true⟩)] }
    s.cfgError = false ∧ s.st = .validating ∧ Input.waits (.event (.byte ⟨9, true⟩)) = true ∧
      s.input = .event (.byte ⟨9, true⟩) :: [] := by decide

theorem witness_ByteWaitsWhileNotReady_validating_call :
    let s := { validating g4 [1, 2, 3, 6] with input := [.call (encode (.pFeed 9 true)), .event .tick] }
    s.cfgError = false ∧ s.st = .validating ∧ Input.waits (.call (encode (.pFeed 9 true))) = true ∧
      s.input = .call (encode (.pFeed 9 true)) :: [.event .tick] := by decide

theorem witness_ByteWaitsWhileNotReady_cfgError :
    let s := { start { referenceCfg with cntW := 0 } with
      input := [.event (.byte ⟨9, false⟩), .call (encode (.dXor 1))] }
    s.cfgError = true ∧ ∀ x ∈ s.input, Input.waits x = true := by decide

theorem witness_SeekMissResult_last_byte_of_the_window :
    let s := { State.reset with seekCount := 63 }
    s.cfgError = false ∧ s.st = .seekingStart ∧ gapm s ⟨0, true⟩ = false ∧ hit s ⟨0, true⟩ = false ∧
      s.seekCount + 1 ≤ s.cfg.seekWindow := by decide

theorem witness_SeekFlushResult_first_byte_past_the_window :
    let s := { State.reset with seekCount := 64 }
    s.cfgError = false ∧ s.st = .seekingStart ∧ gapm s ⟨0xAA, false⟩ = false ∧ hit s ⟨0xAA, false⟩ = false ∧
      s.cfg.seekWindow < s.seekCount + 1 := by decide

theorem witness_SeekHitResult :
    let s := { State.reset with matchLen := 1, seekCount := 64 }
    s.cfgError = false ∧ s.st = .seekingStart ∧ s.cfg.startMode = .sentinel ∧
      advance s.cfg.sync s.matchLen 0x55 = s.cfg.sync.length ∧ s.cfg.sync.length ≤ s.cfg.frameLen := by decide

theorem witness_SeekGapResult :
    let s := { start g4 with seekCount := 8 }
    s.cfgError = false ∧ s.st = .seekingStart ∧ s.cfg.startMode = .gap ∧ 1 ≤ s.cfg.frameLen := by decide

theorem witness_AccStoreResult :
    let s := accumulating g4 [1, 2]
    s.cfgError = false ∧ s.st = .accumulating ∧ gapm s ⟨3, false⟩ = false ∧ s.count + 1 ≠ s.cfg.frameLen ∧
      s.count < s.cfg.frameLen := by decide

theorem witness_AccLastResult :
    let s := accumulating g4 [1, 2, 3]
    s.cfgError = false ∧ s.st = .accumulating ∧ gapm s ⟨6, false⟩ = false ∧ s.count + 1 = s.cfg.frameLen ∧
      s.count < s.cfg.frameLen := by decide

theorem witness_AccAbortResult_on_the_last_byte :
    let s := accumulating g4 [1, 2, 3]
    s.cfgError = false ∧ s.st = .accumulating ∧ s.cfg.startMode = .gap ∧ 1 ≤ s.cfg.frameLen ∧
      s.count + 1 = s.cfg.frameLen := by decide

theorem witness_ValPassResult :
    let s := validating g4 [1, 2, 3, 6]
    s.cfgError = false ∧ s.st = .validating ∧ 1 ≤ s.cfg.frameLen ∧
      s.bufByte (s.cfg.frameLen - 1) = sum8 ((List.range (s.cfg.frameLen - 1)).map s.bufByte) ∧
      cfgOk s.cfg = true := by decide

theorem witness_ValFailResult :
    let s := validating g4 [1, 2, 3, 7]
    s.cfgError = false ∧ s.st = .validating ∧ 1 ≤ s.cfg.frameLen ∧
      s.bufByte (s.cfg.frameLen - 1) ≠ sum8 ((List.range (s.cfg.frameLen - 1)).map s.bufByte) := by decide

theorem witness_AdvanceIsTheLongestOverlap : 3 < [0x01, 0x02, 0x01, (0x03 : Byte)].length := by decide

theorem witness_TempResult_signed_corner :
    f2.length = (start (ref8 true false)).cfg.frameLen ∧
      f2[(start (ref8 true false)).cfg.tempOffset[(1 : Fin 6)]]? = some 0x80 ∧
      f2[(start (ref8 true false)).cfg.tempOffset[(1 : Fin 6)] + 1]? = some 0x00 := by decide

theorem witness_RelayResult_highest_index :
    f2.length = (start (ref8 true false)).cfg.frameLen ∧
      f2[(start (ref8 true false)).cfg.relayOffset]? = some 0xF2 ∧
      (7 : Fin 8).val < (start (ref8 true false)).cfg.nRelays := by decide

theorem witness_FrameResult :
    cfgOk (start (ref8 true true)).cfg = true ∧ f1.length = (start (ref8 true true)).cfg.frameLen ∧
      (7 : Fin 8).val < (start (ref8 true true)).cfg.nRelays := by decide

theorem witness_DecoderStopsOnForeignOperands :
    f1Payload.length ≠ State.reset.cfg.frameLen ∧ (3 : Fin 8).val < State.reset.cfg.nRelays := by decide

theorem witness_DecoderStopsOnForeignOperands_first_index_beyond :
    f1.length = State.reset.cfg.frameLen ∧ State.reset.cfg.nRelays ≤ (4 : Fin 8).val := by decide

theorem witness_FieldBytesAreConsistent_last_field :
    memRead1 f1 (ref8 true true).tempOffset[(5 : Fin 6)] = .ok 0x02 ∧
      memRead1 f1 ((ref8 true true).tempOffset[(5 : Fin 6)] + 1) = .ok 0x58 := ⟨rfl, rfl⟩

theorem witness_ReadingsDependOnDecodedBytesOnly :
    let other := f1.set 2 0x77
    (∀ i : Fin 6, f1[referenceCfg.tempOffset[i]]? = other[referenceCfg.tempOffset[i]]? ∧
        f1[referenceCfg.tempOffset[i] + 1]? = other[referenceCfg.tempOffset[i] + 1]?) ∧
      f1[referenceCfg.relayOffset]? = other[referenceCfg.relayOffset]? ∧ f1 ≠ other := by decide

theorem witness_FeedRunsToQuiescence_last_byte :
    Inv (accumulating g4 [1, 2, 3]) ∧ (accumulating g4 [1, 2, 3]).inReady = true := by decide

theorem witness_PollFeedsInOrder : Inv State.reset ∧ State.reset.inReady = true := by decide

theorem witness_FeedWhileNotReadyHoldsTheByte :
    (validating g4 [1, 2, 3, 6]).inReady = false ∧
      (start { referenceCfg with cntW := 0 }).inReady = false := by decide

theorem witness_ReferenceFrameDecodesToItsFields :
    let s := { State.reset with seekCount := 63 }
    s.cfg = referenceCfg ∧ s.cfgError = false ∧ s.st = .seekingStart ∧ s.matchLen = 0 ∧ s.seekCount < 64 ∧
      WellFormed (.frameRef f1Fields) ∧ f1Fields.k = sum8 (f1Fields.bytes.take 31) :=
  ⟨rfl, rfl, rfl, rfl, by decide, by decide, by decide⟩

theorem witness_ReferenceFrame_wrong_checksum :
    { f1Fields with k := 0x44 }.k ≠ sum8 ({ f1Fields with k := 0x44 }.bytes.take 31) := by decide

/-- A step of the invariant's states that appends a byte. -/
def storing : State :=
  { accumulating g4 [1, 2] with input := [.event (.byte ⟨3, false⟩)] }

theorem storing_invariant : Inv storing := by decide

theorem storing_steps : ∃ t, step storing = .next t := ⟨_, rfl⟩

theorem witness_StepKeepsTheInvariant : ∃ s t : State, Inv s ∧ step s = .next t :=
  ⟨storing, _, storing_invariant, rfl⟩

theorem witness_EventStepsComplete :
    Inv storing ∧ ∀ code rest, takeInput storing ≠ some (.call code, rest) :=
  ⟨storing_invariant, fun _ _ h => (nomatch h)⟩

theorem witness_ConfigurationIsImmutable : ∃ s t : State, step s = .next t := ⟨storing, storing_steps⟩

theorem witness_TransitionGraph_byte :
    (∃ t, step storing = .next t) ∧ takeInput storing = some (.event (.byte ⟨3, false⟩), []) :=
  ⟨storing_steps, rfl⟩

theorem witness_TransitionGraph_reset :
    let s := { storing with input := [.event .reset] }
    (∃ t, step s = .next t) ∧ takeInput s = some (.event .reset, []) := ⟨⟨_, rfl⟩, rfl⟩

theorem witness_TransitionGraph_tick :
    let s := { storing with input := [.event .tick] }
    (∃ t, step s = .next t) ∧ takeInput s = some (.event .tick, []) := ⟨⟨_, rfl⟩, rfl⟩

theorem witness_TransitionGraph_internal :
    let s := validating g4 [1, 2, 3, 7]
    (∃ t, step s = .next t) ∧ takeInput s = none ∧ s.cfgError = false ∧ s.st = .validating :=
  ⟨⟨_, rfl⟩, rfl, rfl, rfl⟩

theorem witness_TransitionGraph_idle :
    (∃ t, step State.reset = .next t) ∧ takeInput State.reset = none ∧
      (State.reset.cfgError = true ∨ State.reset.st ≠ .validating) := ⟨⟨_, rfl⟩, rfl, by decide⟩

theorem witness_EachStepEmitsAtMostOneEvent :
    let s := validating g4 [1, 2, 3, 7]
    (∀ code rest, takeInput s ≠ some (.call code, rest)) ∧ ∃ t, step s = .next t :=
  ⟨fun _ _ h => (nomatch h), _, rfl⟩

theorem witness_CountersCountTheErrors :
    let s := validating g4 [1, 2, 3, 7]
    (∀ code rest, takeInput s ≠ some (.call code, rest)) ∧
      (∀ rest, takeInput s ≠ some (.event .reset, rest)) ∧ ∃ t, step s = .next t :=
  ⟨fun _ _ h => (nomatch h), fun _ h => (nomatch h), _, rfl⟩

theorem witness_ConfigurationErrorIsInert :
    let s := { start { referenceCfg with nRelays := 6 } with
      input := [.event (.byte ⟨9, false⟩), .call (encode (.dXor 1)), .event .reset] }
    Inv s ∧ s.cfgError = true ∧ ∃ t, step s = .next t := ⟨by decide, by decide, _, rfl⟩

theorem witness_ErrorCodes : State.reset.cfgError = false ∧ 1 ≤ State.reset.cfg.frameLen := by decide

theorem witness_UnspecifiedBytesAreNeverObserved :
    let s' := { storing with buf := storing.buf ++ [(3, 0x77)], bufEpoch := 5 }
    Inv storing ∧ Inv s' ∧ SameObserved storing s' ∧ ∃ t, step storing = .next t :=
  ⟨by decide, by decide, ⟨rfl, by decide⟩, storing_steps⟩

theorem witness_OutputsAreNeverRead : ∃ t, step storing = .next t := storing_steps

theorem witness_TickInvariance :
    [[⟨1, false⟩, ⟨2, true⟩], [], [⟨3, false⟩]].flatten
      = [[⟨1, false⟩], [⟨2, true⟩, (⟨3, false⟩ : Symbol)]].flatten := by decide

theorem witness_UnusedStartMethodIsIgnored :
    State.reset.cfg.startMode = .sentinel ∧ State.reset.inReady = true ∧ (start g4).cfg.startMode = .gap := by
  decide

theorem witness_ChecksumPropertyInGapMode :
    let s := start g4
    s.cfg.startMode = .gap ∧ cfgOk s.cfg = true ∧ s.cfgError = false ∧ s.st = .seekingStart ∧ s.matchLen = 0 ∧
      [1, 2, 3, (6 : Byte)].length = s.cfg.frameLen := by decide

theorem witness_ChecksumPropertyInSentinelMode :
    let s := { State.reset with seekCount := 63 }
    s.cfg.startMode = .sentinel ∧ cfgOk s.cfg = true ∧ s.cfgError = false ∧ s.st = .seekingStart ∧
      s.matchLen = 0 ∧ s.seekCount ≤ s.cfg.seekWindow ∧
      (plainSymbols f1).length = s.cfg.frameLen ∧ s.cfg.sync <+: (plainSymbols f1).map Symbol.b ∧
      (s.seekCount + (s.cfg.sync.length - 1)) / (s.cfg.seekWindow + 1) = 0 := by decide

theorem witness_ChecksumPropertyInSentinelMode_proviso_fails :
    let s := { State.reset with seekCount := 64 }
    s.cfg.startMode = .sentinel ∧ cfgOk s.cfg = true ∧ s.cfgError = false ∧ s.st = .seekingStart ∧
      s.matchLen = 0 ∧ s.seekCount ≤ s.cfg.seekWindow ∧
      (plainSymbols f1).length = s.cfg.frameLen ∧ s.cfg.sync <+: (plainSymbols f1).map Symbol.b ∧
      (s.seekCount + (s.cfg.sync.length - 1)) / (s.cfg.seekWindow + 1) = 1 := by decide

theorem witness_ResynchronizesOnTheNextValidFrame :
    let s := { State.reset with matchLen := 1, seekCount := 1 }
    Inv s ∧ s.cfgError = false ∧ s.st = .seekingStart ∧ s.cfg.startMode = .sentinel ∧
      f1.length = s.cfg.frameLen ∧ s.cfg.sync <+: f1 ∧ f1.getLast? = some (sum8 f1.dropLast) ∧
      ∀ k, k < s.matchLen + [0x12, (0xAA : Byte)].length →
        ¬ s.cfg.sync <+: (s.cfg.sync.take s.matchLen ++ [0x12, 0xAA] ++ f1).drop k := by decide

theorem witness_SeekingIsReachedWithinOneFrame :
    let s := accumulating g4 [1, 2]
    Inv s ∧ s.st = .accumulating ∧ s.count + [⟨9, false⟩, (⟨9, false⟩ : Symbol)].length = s.cfg.frameLen ∧
      ∀ y ∈ [⟨9, false⟩, (⟨9, false⟩ : Symbol)], gapm s y = false := by decide

theorem witness_CorruptedChecksumScenario : (0x44 : Byte) ≠ 0x45 := by decide

theorem witness_GarbageBetweenFramesIsHarmless_sentinel :
    let s := State.reset
    cfgOk s.cfg = true ∧ s.cfgError = false ∧ s.st = .seekingStart ∧ s.matchLen = 0 ∧ s.seekCount = 0 ∧
      f1.length = s.cfg.frameLen ∧ f2.length = s.cfg.frameLen ∧
      f1.getLast? = some (sum8 f1.dropLast) ∧ f2.getLast? = some (sum8 f2.dropLast) ∧
      s.cfg.startMode = .sentinel ∧ s.cfg.sync.length + 2 ≤ s.cfg.seekWindow ∧
      s.cfg.sync <+: f1 ∧ s.cfg.sync <+: f2 ∧
      ∀ k, k < 3 → ¬ s.cfg.sync <+: ([0x12, 0x34, (0xAA : Byte)] ++ f2).drop k := by decide

theorem witness_GarbageBetweenFramesIsHarmless_gap :
    let s := start { g4 with seekWindow := 3 }
    cfgOk s.cfg = true ∧ s.cfgError = false ∧ s.st = .seekingStart ∧ s.matchLen = 0 ∧ s.seekCount = 0 ∧
      [1, 2, 3, (6 : Byte)].length = s.cfg.frameLen ∧
      [1, 2, 3, (6 : Byte)].getLast? = some (sum8 [1, 2, 3, (6 : Byte)].dropLast) ∧
      s.cfg.startMode = .gap ∧ 3 ≤ s.cfg.seekWindow := by decide

theorem witness_ShortStreamCompletesLater :
    let s := State.reset
    let ys := plainSymbols f1
    CountInv s ∧ cfgOk s.cfg = true ∧ s.cfgError = false ∧ s.st = .seekingStart ∧ s.matchLen = 0 ∧
      ys.length = s.cfg.frameLen ∧ s.cfg.sync <+: ys.map Symbol.b ∧ (∀ y ∈ ys.tail, gapm s y = false) ∧
      (s.cfg.startMode = .gap → ∀ y ∈ ys.head?, y.g = true) ∧
      (ys.map Symbol.b).getLast? = some (sum8 (ys.map Symbol.b).dropLast) ∧
      max 1 s.cfg.sync.length ≤ 31 ∧ 31 + 1 ≤ s.cfg.frameLen := by decide

theorem witness_ShortStreamCompletesLater_shorter_than_the_signature :
    let s := { State.reset with seekCount := 64 }
    let ys := plainSymbols f1
    CountInv s ∧ cfgOk s.cfg = true ∧ s.cfgError = false ∧ s.st = .seekingStart ∧ s.matchLen = 0 ∧
      ys.length = s.cfg.frameLen ∧ s.cfg.sync <+: ys.map Symbol.b ∧ (∀ y ∈ ys.tail, gapm s y = false) ∧
      (s.cfg.startMode = .gap → ∀ y ∈ ys.head?, y.g = true) ∧
      (ys.map Symbol.b).getLast? = some (sum8 (ys.map Symbol.b).dropLast) ∧ 1 < s.cfg.sync.length := by decide

theorem witness_ShortStreamCompletesLater_gap :
    let s := start g4
    let ys : List Symbol := [⟨1, true⟩, ⟨2, false⟩, ⟨3, false⟩, ⟨6, false⟩]
    CountInv s ∧ cfgOk s.cfg = true ∧ s.cfgError = false ∧ s.st = .seekingStart ∧ s.matchLen = 0 ∧
      ys.length = s.cfg.frameLen ∧ s.cfg.sync <+: ys.map Symbol.b ∧ (∀ y ∈ ys.tail, gapm s y = false) ∧
      (s.cfg.startMode = .gap → ∀ y ∈ ys.head?, y.g = true) ∧
      (ys.map Symbol.b).getLast? = some (sum8 (ys.map Symbol.b).dropLast) ∧
      max 1 s.cfg.sync.length ≤ 1 ∧ 1 + 1 ≤ s.cfg.frameLen := by decide

theorem witness_ResynchronizesOnTheNextFlaggedFrame_seeking :
    let s := { start g4 with seekCount := 8 }
    Inv s ∧ s.cfgError = false ∧ s.cfg.startMode = .gap ∧ s.st = .seekingStart ∧
      [1, 2, 3, (6 : Byte)].length = s.cfg.frameLen ∧
      [1, 2, 3, (6 : Byte)].getLast? = some (sum8 [1, 2, 3, (6 : Byte)].dropLast) := by decide

theorem witness_ResynchronizesOnTheNextFlaggedFrame_accumulating :
    let s := accumulating g4 [1, 2, 3]
    Inv s ∧ s.cfgError = false ∧ s.cfg.startMode = .gap ∧ s.st = .accumulating ∧
      [1, 2, 3, (6 : Byte)].length = s.cfg.frameLen ∧
      [1, 2, 3, (6 : Byte)].getLast? = some (sum8 [1, 2, 3, (6 : Byte)].dropLast) := by decide

theorem witness_PortsAfterEachOperation :
    ∃ t, exec (Operation.valPass.withSymbol ⟨0, false⟩) (validating g4 [1, 2, 3, 6]) = .next t := ⟨_, rfl⟩

theorem witness_PortsAfterEachOperation_error :
    ∃ t, exec (Operation.accAbort.withSymbol ⟨7, true⟩) (accumulating g4 [1, 2, 3]) = .next t := ⟨_, rfl⟩

theorem witness_InputsAreTakenInArrivalOrder : ∃ t, step storing = .next t := storing_steps

end Sys2Proof.Tests
end

section
/-! Proofs of the statements of spec/00_scope.md: what a step fetches and runs (R13), and the clauses of `cfg_ok`
(R7). -/

namespace Sys2Proof.Machine

/-! ### From the decoded item to the step -/

/-- What the dispatch fetches is what its item decodes to; the bytes after the item play no part. -/
theorem fetchSelected_of_decode {s : State} {ev : Option InEvent} {i : Instr} {more : List Byte}
    (h : decode (dispatchBytes s ev) = .ok (i, more)) : fetchSelected s ev = .run i s := by
  simp only [fetchSelected, h]

/-- A call fetches its operation where the bytes are exactly one item and the host may call it (log 9). -/
theorem fetchCalled_of_decode {code : List Byte} {i : Instr} (s : State)
    (h : decode code = .ok (i, [])) (hc : callable i = true) : fetchCalled s code = .run i s := by
  simp only [fetchCalled, h, hc, if_true]

theorem fetch_of_takeInput_event {s : State} {e : InEvent} {rest : List Input}
    (h : takeInput s = some (.event e, rest)) :
    fetch s = fetchSelected { s with input := rest } (some e) := by
  simp only [fetch, h]

theorem fetch_of_takeInput_call {s : State} {code : List Byte} {rest : List Input}
    (h : takeInput s = some (.call code, rest)) :
    fetch s = fetchCalled { s with input := rest } code := by
  simp only [fetch, h]

theorem fetch_of_takeInput_none {s : State} (h : takeInput s = none) : fetch s = fetchSelected s none := by
  simp only [fetch, h]

/-- A step that fetches an operation is that operation (R13). -/
theorem step_of_fetch_run {s t : State} {i : Instr} (h : fetch s = .run i t) : step s = exec i t := by
  simp only [step, h]

/-- Settles O6, by the three things that taking an input can answer: an event, nothing, or a host's call. -/
theorem stepRunsTheDecodedOperation : Obligations.StepRunsTheDecodedOperation := by
  refine ⟨?event, ?internal, ?call⟩
  case event =>
    intro s e rest i more hin hdec
    exact step_of_fetch_run ((fetch_of_takeInput_event hin).trans (fetchSelected_of_decode hdec))
  case internal =>
    intro s i more hin hdec
    exact step_of_fetch_run ((fetch_of_takeInput_none hin).trans (fetchSelected_of_decode hdec))
  case call =>
    intro s code rest i hin hdec hc
    exact step_of_fetch_run ((fetch_of_takeInput_call hin).trans (fetchCalled_of_decode _ hdec hc))

/-! ### The clauses of `cfg_ok` -/

/-- The start-signature clauses; `1 ≤ SYNC_LEN` rules out the frame lengths at which `FRAME_LEN - 1` truncates. -/
theorem syncOk_iff (cfg : Cfg) : syncOk cfg = true ↔
    (cfg.startMode = .sentinel → 1 ≤ cfg.sync.length ∧ cfg.sync.length + 1 ≤ cfg.frameLen) ∧
    (cfg.startMode = .gap → cfg.sync.length = 0) := by
  cases hm : cfg.startMode with
  | sentinel =>
    simp only [syncOk, hm, decide_eq_true_eq, forall_const, reduceCtorEq, false_imp_iff, and_true]
    simp only [syncLen]
    omega
  | gap =>
    simp only [syncOk, hm, decide_eq_true_eq, forall_const, reduceCtorEq, false_imp_iff, true_and]
    simp only [syncLen]

/-- Running over the list of the six offsets is running over their indices. -/
theorem all_tempOffset_iff (cfg : Cfg) (p : Nat → Bool) :
    cfg.tempOffset.toList.all p = true ↔ ∀ i : Fin 6, p cfg.tempOffset[i] = true := by
  rw [List.all_eq_true]
  constructor
  · intro h i
    exact h _ (by simp)
  · intro h o ho
    obtain ⟨i, hi, rfl⟩ := Vector.getElem_of_mem (Vector.mem_toList_iff.1 ho)
    exact h ⟨i, hi⟩

/-- The field-offset clauses as sums. A frame of at least 2 bytes is what makes the relay clause one: the bound
`FRAME_LEN - 2` truncates at shorter ones. -/
theorem offsetsOk_iff {cfg : Cfg} (h2 : 2 ≤ cfg.frameLen) : offsetsOk cfg = true ↔
    (∀ i : Fin 6, cfg.tempOffset[i] + 3 ≤ cfg.frameLen) ∧ cfg.relayOffset + 2 ≤ cfg.frameLen := by
  have hbound : ∀ o : Nat, o + 1 ≤ cfg.frameLen - 2 ↔ o + 3 ≤ cfg.frameLen := by omega
  have hrelay : cfg.relayOffset ≤ cfg.frameLen - 2 ↔ cfg.relayOffset + 2 ≤ cfg.frameLen := by omega
  simp only [offsetsOk, Bool.and_eq_true, all_tempOffset_iff, decide_eq_true_eq, hbound, hrelay]

/-- Settles O56: the six conjuncts of `cfgOk`, the signature and offset ones by their own equivalences; the offsets'
one takes `2 ≤ FRAME_LEN` from the first conjunct. -/
theorem wellFormedConfiguration : Obligations.WellFormedConfiguration := by
  intro cfg
  simp only [cfgOk, Bool.and_eq_true, decide_eq_true_eq, syncOk_iff]
  constructor
  · rintro ⟨⟨⟨⟨⟨⟨hmin, hmax⟩, hsentinel, hgap⟩, hwindow⟩, hoffsets⟩, hrelays⟩, hwidth⟩
    obtain ⟨htemp, hrelay⟩ := (offsetsOk_iff hmin).1 hoffsets
    exact ⟨hmin, hmax, hsentinel, hgap, hwindow, htemp, hrelay, hrelays, hwidth⟩
  · rintro ⟨hmin, hmax, hsentinel, hgap, hwindow, htemp, hrelay, hrelays, hwidth⟩
    have hoffsets := (offsetsOk_iff hmin).2 ⟨htemp, hrelay⟩
    exact ⟨⟨⟨⟨⟨⟨hmin, hmax⟩, hsentinel, hgap⟩, hwindow⟩, hoffsets⟩, hrelays⟩, hwidth⟩

end Sys2Proof.Machine
end

section
/-! All that a dispatched operation does, said once: when it is selected (R80), what it changes, and the state, events
and counters it leaves. -/

namespace Sys2Proof.Machine

/-! ### The condition of selection -/

/-- The part of an operation's conditions in R80 that its meaning relies on (log 14): the event, the assembler state,
and that the last byte of a frame is the last. -/
def OpFits (op : Operation) (s : State) (ev : Option InEvent) : Prop :=
  match op with
  | .reset => ev = some .reset
  | .tick => ev = some .tick
  | .seekMiss | .seekFlush | .seekHit | .seekGap => s.st = .seekingStart ∧ ∃ y, ev = some (.byte y)
  | .accStore | .accAbort => s.st = .accumulating ∧ ∃ y, ev = some (.byte y)
  | .accLast => s.st = .accumulating ∧ (∃ y, ev = some (.byte y)) ∧ s.count + 1 = s.cfg.frameLen
  | .valPass | .valFail => s.st = .validating ∧ ev = none

theorem fits_of_selected_byte {s : State} {y : Symbol} {op : Operation}
    (h : selected s (some (.byte y)) = some op) : OpFits op s (some (.byte y)) := by
  by_cases hr : s.cfgError = true ∨ s.st = .validating
  · simp [selected_byte_not_ready hr] at h
  · simp only [not_or, Bool.not_eq_true] at hr
    obtain ⟨hc, hv⟩ := hr
    cases hst : s.st with
    | seekingStart =>
      rw [selected_seeking hc hst, Option.some.injEq] at h
      split_ifs at h <;> subst h <;> exact ⟨hst, y, rfl⟩
    | accumulating =>
      rw [selected_accumulating hc hst, Option.some.injEq] at h
      split_ifs at h with hg hl <;> subst h
      · exact ⟨hst, y, rfl⟩
      · exact ⟨hst, ⟨y, rfl⟩, by simpa [lastByte] using hl⟩
      · exact ⟨hst, y, rfl⟩
    | validating => exact absurd hst hv

theorem fits_of_selected_none {s : State} {op : Operation} (h : selected s none = some op) : OpFits op s none := by
  cases hc : s.cfgError with
  | true => simp [(selected_cfgError hc).1] at h
  | false =>
    by_cases hs : s.st = .validating
    · rw [selected_validating hc hs, Option.some.injEq] at h
      split_ifs at h <;> subst h <;> exact ⟨hs, rfl⟩
    · simp [(selected_idle hc hs).1] at h

/-- What the dispatch word selects meets the conditions of its row. -/
theorem fits_of_selected {s : State} {ev : Option InEvent} {op : Operation} (h : selected s ev = some op) :
    OpFits op s ev := by
  match ev with
  | none => exact fits_of_selected_none h
  | some .reset => rw [selected_reset, Option.some.injEq] at h; subst h; rfl
  | some .tick => rw [selected_tick, Option.some.injEq] at h; subst h; rfl
  | some (.byte _) => exact fits_of_selected_byte h

/-- Without an event no operation that needs a byte is selected. -/
theorem takesByte_of_selected_none {s : State} {op : Operation} (h : selected s none = some op) :
    op.takesByte = false := by
  have hfit := fits_of_selected h
  cases op <;> simp_all [OpFits, Operation.takesByte]

/-! ### The effect -/

/-- Ascending writes, on the memory alone (R51). -/
def Memory.writeAll (m : Memory) (i : Nat) : List Byte → Memory
  | [] => m
  | b :: bs => Memory.writeAll (Memory.write m i b) (i + 1) bs

/-- Ascending writes complete exactly where they stay in the frame space. -/
theorem writeBytes_eq_ok_iff (bs : List Byte) : ∀ {s t : State} {i : Nat}, i ≤ s.cfg.frameLen →
    (writeBytes s i bs = .ok t ↔
      i + bs.length ≤ s.cfg.frameLen ∧ t = { s with buf := Memory.writeAll s.buf i bs }) := by
  induction bs with
  | nil => 
    intro s t i hi
    simp only [writeBytes, Except.ok.injEq, List.length_nil, Nat.add_zero, hi, true_and]
    exact eq_comm
  | cons b bs ih =>
    intro s t i hi
    by_cases hlt : i < s.cfg.frameLen
    · have hlen : i + 1 + bs.length = i + (b :: bs).length := by simp only [List.length_cons]; omega
      simp only [writeBytes, writeByte_of_lt b hlt, Memory.writeAll, ← hlen]
      exact ih (s := { s with buf := Memory.write s.buf i b }) hlt
    · have hlen : ¬ i + (b :: bs).length ≤ s.cfg.frameLen := by simp only [List.length_cons]; omega
      simp only [writeBytes, writeByte_outside b hlt, hlen, false_and, reduceCtorEq]

/-- All that an operation does where it completes: the condition under which it does, and the next state. -/
def OpEffect (op : Operation) (y : Symbol) (s t : State) : Prop :=
  match op with
  | .reset => t = { clearCore s with cfgError := !cfgOk s.cfg }
  | .tick => t = beginStep s
  | .seekMiss => t = { beginStep s with matchLen := nextMatch s y.b, seekCount := s.seekCount + 1 }
  | .seekFlush => t = raise .framing { beginStep s with matchLen := nextMatch s y.b, seekCount := 0 }
  | .seekHit => syncLen s.cfg ≤ s.cfg.frameLen ∧
      t = { startFrame (syncLen s.cfg) { beginStep s with buf := Memory.writeAll s.buf 0 s.cfg.sync } with
        matchLen := 0 }
  | .seekGap => 0 < s.cfg.frameLen ∧ t = startFrame 1 { beginStep s with buf := Memory.write s.buf 0 y.b }
  | .accStore => s.count < s.cfg.frameLen ∧
      t = { beginStep s with buf := Memory.write s.buf s.count y.b, count := s.count + 1 }
  | .accLast => s.count < s.cfg.frameLen ∧
      t = { beginStep s with
        buf := Memory.write s.buf s.count y.b, count := s.cfg.frameLen, st := .validating }
  | .accAbort => 0 < s.cfg.frameLen ∧
      t = raise .framing { beginStep s with buf := Memory.write s.buf 0 y.b, count := 1, seekCount := 0 }
  | .valPass => ∃ r, readFrame s.cfg s.frame = .ok r ∧ t = emit (.readings r) (resync (beginStep s))
  | .valFail => t = raise .checksum (resync (beginStep s))

theorem execReset_eq (s : State) : execReset s = .next { clearCore s with cfgError := !cfgOk s.cfg } := by
  cases h : cfgOk s.cfg <;> simp only [execReset, h, Bool.false_eq_true, if_true, if_false] <;> rfl

theorem next_eq_iff {s t : State} :
    (Host.Outcome.next s : Host.Outcome State Fault Refusal) = .next t ↔ t = s := by
  simp [eq_comm]

/-- A computation that may fault, followed by one that may not. -/
theorem finish_bind_eq_next {α : Type} {x : Except Fault α} {f : α → State} {t : State} :
    finish (do let a ← x; return f a) = .next t ↔ ∃ a, x = .ok a ∧ t = f a := by
  cases x with
  | error e => exact ⟨fun h => (nomatch h), fun ⟨_, h, _⟩ => (nomatch h)⟩
  | ok a =>
    refine (next_eq_iff (s := f a)).trans ⟨fun h => ⟨a, rfl, h⟩, ?_⟩
    rintro ⟨_, ⟨⟩, h⟩
    exact h

/-- A byte write followed by a change that cannot fault. -/
theorem finish_writeByte_eq_next {s t : State} {i : Nat} {b : Byte} {f : State → State} :
    finish (do let u ← writeByte s i b; return f u) = .next t ↔
      i < s.cfg.frameLen ∧ t = f { s with buf := Memory.write s.buf i b } := by
  simp only [finish_bind_eq_next, writeByte_eq_ok, and_assoc, exists_and_left, exists_eq_left]

/-- An operation answers a next state exactly with its effect. -/
theorem runOperation_eq_next {op : Operation} {y : Symbol} {s t : State} :
    runOperation op y s = .next t ↔ OpEffect op y s t := by
  cases op with
  | reset => exact (Eq.congr_left (execReset_eq s)).trans next_eq_iff
  | tick | seekMiss | seekFlush | valFail => exact next_eq_iff
  | seekHit =>
    refine finish_bind_eq_next.trans ?_
    simp only [writeBytes_eq_ok_iff s.cfg.sync (Nat.zero_le _), Nat.zero_add, and_assoc, exists_and_left,
      exists_eq_left]
    rfl
  | seekGap | accStore | accLast | accAbort => exact finish_writeByte_eq_next
  | valPass => exact finish_bind_eq_next

/-! ### The assembler state, the events and the counters -/

/-- The assembler state an operation leads to. -/
def stAfter (op : Operation) (st : AsmState) : AsmState :=
  match op with
  | .tick | .seekMiss | .seekFlush | .accStore | .accAbort => st
  | .seekHit | .seekGap => .accumulating
  | .accLast => .validating
  | .reset | .valPass | .valFail => .seekingStart

theorem OpEffect.st_eq {op : Operation} {y : Symbol} {s t : State} (h : OpEffect op y s t) :
    t.st = stAfter op s.st := by
  cases op with
  | reset | tick | seekMiss | seekFlush | valFail => obtain rfl := h; rfl
  | seekHit | seekGap | accStore | accLast | accAbort => obtain ⟨-, rfl⟩ := h; rfl
  | valPass => obtain ⟨r, -, rfl⟩ := h; rfl

/-- An operation emits one event at most (R34). -/
theorem OpEffect.length_out_le_one {op : Operation} {y : Symbol} {s t : State} (h : OpEffect op y s t) :
    t.out.length ≤ 1 := by
  cases op with
  | seekFlush | valFail => obtain rfl := h; exact Nat.le_refl 1
  | reset | tick | seekMiss => obtain rfl := h; exact Nat.zero_le 1
  | accAbort => obtain ⟨-, rfl⟩ := h; exact Nat.le_refl 1
  | seekHit | seekGap | accStore | accLast => obtain ⟨-, rfl⟩ := h; exact Nat.zero_le 1
  | valPass => obtain ⟨r, -, rfl⟩ := h; exact Nat.le_refl 1

/-- The trace grows by the events of the operation (R12, R34). -/
theorem OpEffect.trace_eq {op : Operation} {y : Symbol} {s t : State} (h : OpEffect op y s t) :
    t.trace = s.trace ++ t.out := by
  cases op with
  | seekFlush | valFail => obtain rfl := h; rfl
  | reset | tick | seekMiss => obtain rfl := h; exact (List.append_nil _).symm
  | accAbort => obtain ⟨-, rfl⟩ := h; rfl
  | seekHit | seekGap | accStore | accLast => obtain ⟨-, rfl⟩ := h; exact (List.append_nil _).symm
  | valPass => obtain ⟨r, -, rfl⟩ := h; rfl

/-- `framing_errors` and `checksum_errors` count their events, but for `RESET` (R31, R32). -/
theorem OpEffect.counters {op : Operation} {y : Symbol} {s t : State} (h : OpEffect op y s t)
    (hop : op ≠ .reset) :
    t.framingErrors = (if .errFraming ∈ t.out then bump s.cfg s.framingErrors else s.framingErrors) ∧
    t.checksumErrors = (if .errChecksum ∈ t.out then bump s.cfg s.checksumErrors else s.checksumErrors) := by
  cases op with
  | reset => exact absurd rfl hop
  | tick | seekMiss | seekFlush | valFail => obtain rfl := h; simp
  | seekHit | seekGap | accStore | accLast | accAbort => obtain ⟨-, rfl⟩ := h; simp
  | valPass => obtain ⟨r, -, rfl⟩ := h; simp

end Sys2Proof.Machine
end

section
/-! Simulations: two states that a relation ties run the same operations, so the steps of the one are steps of the
other. A relation need only be kept by the dispatched operations and by a host's value; the sequences of R170 and R171
and the step itself then keep it. -/

namespace Sys2Proof.Machine

/-! ### The step of each kind of fetch -/

theorem step_of_call {s : State} {code : List Byte} {rest : List Input} {i : Instr}
    (hin : takeInput s = some (.call code, rest)) (hd : decode code = .ok (i, [])) (hc : callable i = true) :
    step s = exec i { s with input := rest } :=
  step_of_fetch_run ((fetch_of_takeInput_call hin).trans (fetchCalled_of_decode _ hd hc))

/-- The step of an operation that the dispatch word selects. -/
theorem step_of_fetch_selected {s u : State} {ev : Option InEvent} {op : Operation} {y : Symbol}
    (hfetch : fetch s = fetchSelected u ev) (hsel : selected u ev = some op)
    (hy : op.takesByte = true → ev = some (.byte y)) : step s = runOperation op y u := by
  rw [step_of_fetch_run (hfetch.trans (fetchSelected_of_selected hsel y hy)), exec_withSymbol]
  cases hb : op.takesByte with
  | true => rfl
  | false => exact runOperation_symbol hb _ y u

theorem step_of_event {s : State} {e : InEvent} {rest : List Input} {op : Operation} {y : Symbol}
    (hin : takeInput s = some (.event e, rest)) (hsel : selected s (some e) = some op)
    (hy : op.takesByte = true → e = .byte y) : step s = runOperation op y { s with input := rest } :=
  step_of_fetch_selected (fetch_of_takeInput_event hin) hsel fun hb => congrArg some (hy hb)

theorem step_of_internal {s : State} {op : Operation} (hin : takeInput s = none)
    (hsel : selected s none = some op) : step s = runOperation op ⟨0, false⟩ s :=
  step_of_fetch_selected (fetch_of_takeInput_none hin) hsel fun hb => by
    rw [takesByte_of_selected_none hsel] at hb; cases hb

theorem step_of_idle {s : State} (hin : takeInput s = none) (hv : s.cfgError = true ∨ s.st ≠ .validating) :
    step s = .next (beginStep s) := by
  simp only [step, fetch_of_takeInput_none hin, fetchSelected_none hv]

/-! ### No operation depends on the events of the step before -/

theorem feed_beginStep (y : Symbol) (s : State) : feed y (beginStep s) = feed y s := by
  have hready : (beginStep s).inReady = s.inReady := rfl
  have hhold : hold [y] (beginStep s) = hold [y] s := rfl
  simp only [feed, hready, hhold, selected_beginStep, runOperation_beginStep]

theorem feedAll_cons_beginStep (y : Symbol) (ys : List Symbol) (s : State) :
    feedAll (y :: ys) (beginStep s) = feedAll (y :: ys) s := by
  have hready : (beginStep s).inReady = s.inReady := rfl
  have hhold : hold (y :: ys) (beginStep s) = hold (y :: ys) s := rfl
  simp only [feedAll, hready, hhold, feed_beginStep]

/-- Every operation clears the record of the step before; `FRAME.REF` does because it has a first byte. -/
theorem exec_beginStep (i : Instr) (s : State) : exec i (beginStep s) = exec i s := by
  cases i with
  | pFeed b g => exact feed_beginStep ⟨b, g⟩ s
  | frameRef fr =>
    obtain ⟨y, ys, hys⟩ : ∃ y ys, plainSymbols fr.bytes = y :: ys := ⟨_, _, rfl⟩
    have h := feedAll_cons_beginStep y ys s
    rw [← hys] at h
    exact h
  | _ => rfl

/-! ### Matched outcomes -/

/-- Where the first outcome is a next state, so is the second, and the two are related. -/
def Matched (R : State → State → Prop) (o o' : Host.Outcome State Fault Refusal) : Prop :=
  ∀ t, o = .next t → ∃ t', o' = .next t' ∧ R t t'

theorem Matched.next {R : State → State → Prop} {s s' : State} (h : R s s') : Matched R (.next s) (.next s') := by
  rintro t ⟨⟩
  exact ⟨s', rfl, h⟩

theorem Matched.andThen {R : State → State → Prop} {o o' : Host.Outcome State Fault Refusal}
    {k k' : State → Host.Outcome State Fault Refusal} (ho : Matched R o o')
    (hk : ∀ u u', o = .next u → R u u' → Matched R (k u) (k' u')) :
    Matched R (andThen o k) (andThen o' k') := by
  intro t ht
  obtain ⟨u, hu, hut⟩ := andThen_eq_next ht
  obtain ⟨u', hu', hR⟩ := ho u hu
  obtain ⟨t', ht', hR'⟩ := hk u u' hu hR t hut
  exact ⟨t', by rw [hu', andThen_next, ht'], hR'⟩

/-! ### Simulations -/

/-- A relation that the dispatched operations and a host's value keep, between states that take and select the same. -/
structure Simulation (R : State → State → Prop) : Prop where
  /-- The configuration, and all that taking an input looks at. -/
  same : ∀ {s s'}, R s s' → s'.cfg = s.cfg ∧ s'.cfgError = s.cfgError ∧ s'.st = s.st ∧ s'.input = s.input
  /-- Both states select the same operation (R80). -/
  dispatch : ∀ {s s'}, R s s' → ∀ ev, selected s' ev = selected s ev
  /-- Taking an input away. -/
  takeAway : ∀ {s s'}, R s s' → ∀ rest, R { s with input := rest } { s' with input := rest }
  /-- Clearing the record of the step before. -/
  begin : ∀ {s s'}, R s s' → R (beginStep s) (beginStep s')
  /-- Keeping a decoder function's value (log 10). -/
  value : ∀ {s s'}, R s s' → ∀ v, R (returnValue v s) (returnValue v s')
  /-- Running an operation that the dispatch word selects. -/
  run : ∀ {s s' ev op}, R s s' → selected s ev = some op → ∀ y,
    Matched R (runOperation op y s) (runOperation op y s')

section
variable {R : State → State → Prop} {s s' : State}

theorem Simulation.inReady (S : Simulation R) (h : R s s') : s'.inReady = s.inReady := by
  obtain ⟨-, hc, hst, -⟩ := S.same h
  simp only [State.inReady, hc, hst]

theorem Simulation.takeInput (S : Simulation R) (h : R s s') : takeInput s' = takeInput s := by
  obtain ⟨-, hc, hst, hin⟩ := S.same h
  simp only [Machine.takeInput, hc, hst, hin]

theorem Simulation.settle (S : Simulation R) (h : R s s') : Matched R (settle s) (settle s') := by
  obtain ⟨-, -, hst, -⟩ := S.same h
  simp only [Machine.settle, hst, S.dispatch h]
  split
  · split
    · next hop => exact S.run h hop _
    · exact Matched.next h
  · exact Matched.next h

theorem Simulation.feed (S : Simulation R) (h : R s s') (hr : s.inReady = true) (y : Symbol) :
    Matched R (feed y s) (feed y s') := by
  obtain ⟨op, hop, -⟩ := selected_byte_of_inReady hr y
  rw [feed_of_selected hr hop, feed_of_selected ((S.inReady h).trans hr) ((S.dispatch h _).trans hop)]
  exact (S.run h hop y).andThen fun _ _ _ hu => S.settle hu

theorem Simulation.feedAll (S : Simulation R) (ys : List Symbol) : ∀ {s s' : State}, R s s' →
    s.inReady = true → Matched R (feedAll ys s) (feedAll ys s') := by
  induction ys with
  | nil => intro s s' h _; exact Matched.next h
  | cons y ys ih =>
    intro s s' h hr
    have hr' := (S.inReady h).trans hr
    simp only [Machine.feedAll, hr, hr', if_true]
    refine (S.feed h hr y).andThen fun u u' hu hR => ih hR ?_
    obtain ⟨-, -, -, hready⟩ := feed_keeps hr hu
    exact hready

/-- A decoder function that the host evaluates, from the same operands. -/
theorem Simulation.finishValue (S : Simulation R) (h : R s s') {α : Type} (x : Except Fault α)
    (f : α → FuncResult) :
    Matched R (finish do let a ← x; return returnValue (f a) s)
      (finish do let a ← x; return returnValue (f a) s') := by
  cases x with
  | error e => intro t ht; cases ht
  | ok a => exact Matched.next (S.value h (f a))

/-- The operations that a host may call. -/
theorem Simulation.exec (S : Simulation R) (h : R s s') (hr : s.inReady = true) {i : Instr}
    (hc : callable i = true) : Matched R (exec i s) (exec i s') := by
  obtain ⟨hcfg, -, -, -⟩ := S.same h
  cases i with
  | dXor v =>
    simp only [Machine.exec, execDXor, hcfg]
    exact Matched.next (S.value h _)
  | dTemp frame i =>
    simp only [Machine.exec, execDTemp, hcfg]
    exact S.finishValue h _ _
  | dRelay frame j =>
    simp only [Machine.exec, execDRelay, hcfg]
    split
    · exact S.finishValue h _ _
    · exact S.finishValue h (.error _) _
  | dFrame frame =>
    simp only [Machine.exec, execDFrame, hcfg]
    exact S.finishValue h _ _
  | pFeed b g => exact S.feed h hr ⟨b, g⟩
  | pPoll bs => exact S.feedAll bs (S.begin h) hr
  | frameRef fr => exact S.feedAll _ h hr
  | _ => cases hc

/-- A simulation is kept by a step, which begins by clearing the record of the step before. -/
theorem Simulation.step (S : Simulation R) (h : R (beginStep s) (beginStep s')) :
    Matched R (step s) (step s') := by
  intro t ht
  have htake : Machine.takeInput s' = Machine.takeInput s :=
    S.takeInput (s := beginStep s) (s' := beginStep s') h
  have hsel : ∀ ev, selected s' ev = selected s ev := S.dispatch (s := beginStep s) (s' := beginStep s') h
  rcases step_cases ht with ⟨code, rest, i, hin, hr, hd, hc, hrun⟩ | ⟨e, rest, op, y, hin, hop, hy, hrun⟩ |
    ⟨op, hin, -, -, hop, hrun⟩ | ⟨hin, hv, rfl⟩
  · rw [step_of_call (htake.trans hin) hd hc, ← exec_beginStep]
    exact S.exec (S.takeAway h rest) hr hc t ((exec_beginStep i _).trans hrun)
  · rw [step_of_event (htake.trans hin) ((hsel _).trans hop) hy, ← runOperation_beginStep]
    exact S.run (S.takeAway h rest) hop y t ((runOperation_beginStep op y _).trans hrun)
  · rw [step_of_internal (htake.trans hin) ((hsel _).trans hop), ← runOperation_beginStep]
    exact S.run h hop _ t ((runOperation_beginStep op _ s).trans hrun)
  · obtain ⟨-, hce, hst, -⟩ := S.same h
    have hv' : s'.cfgError = true ∨ s'.st ≠ .validating := by
      simp only [beginStep_cfgError, beginStep_st] at hce hst
      rwa [hce, hst]
    exact ⟨_, step_of_idle (htake.trans hin) hv', h⟩

end

end Sys2Proof.Machine
end

section
/-! Proofs of the statements of spec/10_state.md: the configuration, the graph of `st`, the events and counters of a
step, `RESET`, and what no step observes. -/

namespace Sys2Proof.Machine

/-! ### RESET -/

/-- Settles O34, clause by clause. -/
theorem resetStateIsInvariant : Obligations.ResetStateIsInvariant := by
  have hok : cfgOk referenceCfg = true := by decide
  have hce : State.reset.cfgError = false := congrArg (!·) hok
  have hinert : InertUnderError State.reset := fun _ => ⟨rfl, rfl, rfl, rfl, rfl, rfl, rfl⟩
  have hcount : CountInv State.reset := ⟨fun _ => rfl, nofun, nofun⟩
  have hseek : SeekInv State.reset := ⟨Nat.zero_le _, Nat.zero_le _, fun _ => ⟨rfl, rfl⟩⟩
  have hfit : CountersFit State.reset := ⟨Nat.two_pow_pos _, Nat.two_pow_pos _⟩
  have hbuf : BufInv State.reset := ⟨rfl, rfl, fun i hi => absurd hi (Nat.not_lt_zero i)⟩
  exact ⟨⟨rfl, hinert, hcount, hseek, hfit, hbuf⟩, inReady_iff.2 ⟨hce, nofun⟩, hce⟩

/-- Settles O11: `RESET` empties the list of written bytes and counts the epoch. -/
theorem resetLeavesBufferUnspecified : Obligations.ResetLeavesBufferUnspecified :=
  fun s => ⟨_, execReset_eq s, fun _ => ⟨rfl, rfl⟩, rfl, rfl, rfl⟩

/-! ### What every step keeps -/

/-- Settles O37: no operation that a step can run writes the configuration. -/
theorem configurationIsImmutable : Obligations.ConfigurationIsImmutable := by
  intro s t h
  rcases step_cases h with ⟨code, rest, i, -, hr, -, hc, hrun⟩ | ⟨e, rest, op, y, -, -, -, hrun⟩ |
    ⟨op, -, -, -, -, hrun⟩ | ⟨-, -, rfl⟩
  · obtain ⟨hcfg, -⟩ := exec_callable_keeps (s := { s with input := rest }) hc hr hrun
    exact hcfg
  · obtain ⟨hcfg, -⟩ := runOperation_keeps hrun
    exact hcfg
  · obtain ⟨hcfg, -⟩ := runOperation_keeps hrun
    exact hcfg
  · rfl

/-- A step that takes no host's call is one dispatched operation, fetched for the event taken or for none, or the
idle core's. -/
theorem step_cases_of_no_call {s t : State} (hcall : ∀ code rest, takeInput s ≠ some (.call code, rest))
    (h : step s = .next t) :
    (∃ e rest op y, takeInput s = some (.event e, rest) ∧ selected s (some e) = some op ∧
      OpEffect op y { s with input := rest } t) ∨
    (∃ op, takeInput s = none ∧ selected s none = some op ∧ OpEffect op ⟨0, false⟩ s t) ∨
    (takeInput s = none ∧ (s.cfgError = true ∨ s.st ≠ .validating) ∧ t = beginStep s) := by
  rcases step_cases h with ⟨code, rest, -, hin, -⟩ | ⟨e, rest, op, y, hin, hop, -, hrun⟩ |
    ⟨op, hin, -, -, hop, hrun⟩ | hidle
  · exact absurd hin (hcall code rest)
  · exact .inl ⟨e, rest, op, y, hin, hop, runOperation_eq_next.1 hrun⟩
  · exact .inr (.inl ⟨op, hin, hop, runOperation_eq_next.1 hrun⟩)
  · exact .inr (.inr hidle)

/-- Settles O39: a dispatched operation emits one event at most and appends it to the trace, and an idle core emits
nothing. -/
theorem eachStepEmitsAtMostOneEvent : Obligations.EachStepEmitsAtMostOneEvent := by
  intro s t hcall h
  rcases step_cases_of_no_call hcall h with ⟨e, rest, op, y, -, -, heff⟩ | ⟨op, -, -, heff⟩ | ⟨-, -, rfl⟩
  · exact ⟨heff.length_out_le_one, heff.trace_eq⟩
  · exact ⟨heff.length_out_le_one, heff.trace_eq⟩
  · exact ⟨Nat.zero_le 1, (List.append_nil _).symm⟩

/-- Settles O40: every dispatched operation but `RESET` counts its own events, and only the event `RESET` selects
`RESET`. -/
theorem countersCountTheErrors : Obligations.CountersCountTheErrors := by
  intro s t hcall hreset h
  rcases step_cases_of_no_call hcall h with ⟨e, rest, op, y, hin, hop, heff⟩ | ⟨op, -, hop, heff⟩ | ⟨-, -, rfl⟩
  · refine heff.counters ?_
    rintro rfl
    obtain rfl : e = .reset := Option.some.inj (fits_of_selected hop)
    exact hreset rest hin
  · refine heff.counters ?_
    rintro rfl
    cases fits_of_selected hop
  · simp

/-- An operation that fits a byte event goes along an edge of R27's graph. -/
theorem byteEdge_of_fits {op : Operation} {s : State} {y : Symbol} (h : OpFits op s (some (.byte y))) :
    byteEdge s.st (stAfter op s.st) = true := by
  cases op with
  | reset | tick => cases h
  | seekMiss | seekFlush | seekHit | seekGap | accStore | accAbort | accLast =>
    obtain ⟨hst, -⟩ := h
    rw [hst]
    rfl
  | valPass | valFail => obtain ⟨-, hev⟩ := h; cases hev

/-- Without an event only the operations that leave `VALIDATING` fit. -/
theorem stAfter_of_fits_none {op : Operation} {s : State} (h : OpFits op s none) :
    s.st = .validating ∧ stAfter op s.st = .seekingStart := by
  cases op with
  | reset | tick => cases h
  | seekMiss | seekFlush | seekHit | seekGap | accStore | accAbort => obtain ⟨-, y, hev⟩ := h; cases hev
  | accLast => obtain ⟨-, ⟨y, hev⟩, -⟩ := h; cases hev
  | valPass | valFail => obtain ⟨hst, -⟩ := h; exact ⟨hst, rfl⟩

/-- The assembler state after a step that takes an event: the one its operation leads to. -/
theorem step_st_of_event {s t : State} {e : InEvent} {rest : List Input}
    (hin : takeInput s = some (.event e, rest)) (h : step s = .next t) :
    ∃ op, selected s (some e) = some op ∧ t.st = stAfter op s.st := by
  have hcall : ∀ code rest, takeInput s ≠ some (.call code, rest) := by simp [hin]
  rcases step_cases_of_no_call hcall h with ⟨e', _, op, y, hin', hop, heff⟩ | ⟨op, hin', -⟩ | ⟨hin', -⟩
  · cases hin.symm.trans hin'
    exact ⟨op, hop, heff.st_eq⟩
  · cases hin.symm.trans hin'
  · cases hin.symm.trans hin'

/-- The assembler state after a step that takes no input. -/
theorem step_st_of_none {s t : State} (hin : takeInput s = none) (h : step s = .next t) :
    (s.cfgError = false ∧ s.st = .validating ∧ t.st = .seekingStart) ∨
      ((s.cfgError = true ∨ s.st ≠ .validating) ∧ t.st = s.st) := by
  rcases step_cases h with ⟨_, _, _, hin', -⟩ | ⟨_, _, _, _, hin', -⟩ | ⟨op, -, hc, hst, hop, hrun⟩ | ⟨-, hv, rfl⟩
  · cases hin.symm.trans hin'
  · cases hin.symm.trans hin'
  · obtain ⟨-, hafter⟩ := stAfter_of_fits_none (fits_of_selected hop)
    exact .inl ⟨hc, hst, (runOperation_eq_next.1 hrun).st_eq.trans hafter⟩
  · exact .inr ⟨hv, rfl⟩

/-- Settles O38, by the operation that the event, or its absence, selects. -/
theorem transitionGraph : Obligations.TransitionGraph := by
  intro s t h
  refine ⟨?byte, ?reset, ?tick, ?internal, ?idle⟩
  case byte =>
    intro y rest hin
    obtain ⟨op, hop, hst⟩ := step_st_of_event hin h
    rw [hst]
    exact byteEdge_of_fits (fits_of_selected hop)
  case reset =>
    intro rest hin
    obtain ⟨op, hop, hst⟩ := step_st_of_event hin h
    cases hop.symm.trans (selected_reset s)
    exact hst
  case tick =>
    intro rest hin
    obtain ⟨op, hop, hst⟩ := step_st_of_event hin h
    cases hop.symm.trans (selected_tick s)
    exact hst
  case internal =>
    intro hin hc hv
    rcases step_st_of_none hin h with ⟨-, -, hst⟩ | ⟨hno, -⟩
    · exact hst
    · simp [hc, hv] at hno
  case idle =>
    intro hin hv
    rcases step_st_of_none hin h with ⟨hc, hst, -⟩ | ⟨-, hst⟩
    · simp [hc, hst] at hv
    · exact hst

/-! ### The outputs are never read -/

/-- Two states that differ at most in the host's last function value and in what stood in the trace before: `T` and
`T'`, to which both have added the same events. -/
def SameButRecord (T T' : List OutEvent) (s s' : State) : Prop :=
  ∃ new v, s.trace = T ++ new ∧ s' = { s with trace := T' ++ new, funcResult := v }

/-- An operation has the same effect on another record, and adds its events to that. -/
theorem OpEffect.withRecord {op : Operation} {y : Symbol} {s t : State} (h : OpEffect op y s t)
    (tr : List OutEvent) (v : Option FuncResult) :
    OpEffect op y { s with trace := tr, funcResult := v } { t with trace := tr ++ t.out, funcResult := v } := by
  cases op with
  | seekFlush | valFail => obtain rfl := h; rfl
  | reset | tick | seekMiss =>
    obtain rfl := h
    simp only [OpEffect, beginStep_out, clearCore_out, List.append_nil]
    rfl
  | accAbort => obtain ⟨hlt, rfl⟩ := h; exact ⟨hlt, rfl⟩
  | seekHit | seekGap | accStore | accLast =>
    obtain ⟨hlt, rfl⟩ := h
    refine ⟨hlt, ?_⟩
    simp only [beginStep_out, startFrame_out, List.append_nil]
    rfl
  | valPass => obtain ⟨r, hr, rfl⟩ := h; exact ⟨r, hr, rfl⟩

theorem sameButRecord_simulation (T T' : List OutEvent) : Simulation (SameButRecord T T') where
  same := by rintro s _ ⟨new, v, -, rfl⟩; exact ⟨rfl, rfl, rfl, rfl⟩
  dispatch := by rintro s _ ⟨new, v, -, rfl⟩ ev; rfl
  takeAway := by rintro s _ ⟨new, v, htr, rfl⟩ rest; exact ⟨new, v, htr, rfl⟩
  begin := by rintro s _ ⟨new, v, htr, rfl⟩; exact ⟨new, v, htr, rfl⟩
  value := by rintro s _ ⟨new, v, htr, rfl⟩ w; exact ⟨new, some w, htr, rfl⟩
  run := by
    rintro s _ ev op ⟨new, v, htr, rfl⟩ - y t ht
    have heff := runOperation_eq_next.1 ht
    refine ⟨_, runOperation_eq_next.2 (heff.withRecord (T' ++ new) v), new ++ t.out, v, ?_, ?_⟩
    · rw [heff.trace_eq, htr, List.append_assoc]
    · rw [List.append_assoc]

/-- Settles O44: the record before a step is one of the two that the simulation ties. -/
theorem outputsAreNeverRead : Obligations.OutputsAreNeverRead := by
  intro s t out trace v h
  have hrel : SameButRecord s.trace trace (beginStep s)
      (beginStep { s with out := out, trace := trace, funcResult := v }) :=
    ⟨[], v, (List.append_nil _).symm, by rw [List.append_nil]; rfl⟩
  obtain ⟨t', ht', new, w, htr, rfl⟩ := (sameButRecord_simulation s.trace trace).step hrel t h
  exact ⟨_, new, ht', rfl, htr, rfl, rfl⟩

/-! ### Unspecified bytes are never observed -/

/-- The first `n` bytes are written in both memories, with the same values. -/
def AgreeBelow (n : Nat) (m m' : Memory) : Prop :=
  ∀ i, i < n → ∃ b, Memory.lookup m i = some b ∧ Memory.lookup m' i = some b

theorem agreeBelow_zero (m m' : Memory) : AgreeBelow 0 m m' :=
  fun i hi => absurd hi (Nat.not_lt_zero i)

/-- A byte appended to both memories. -/
theorem AgreeBelow.write {n : Nat} {m m' : Memory} (h : AgreeBelow n m m') (b : Byte) :
    AgreeBelow (n + 1) (Memory.write m n b) (Memory.write m' n b) := by
  intro i hi
  by_cases hin : i = n
  · subst hin
    exact ⟨b, Memory.lookup_write_same m i b, Memory.lookup_write_same m' i b⟩
  · rw [Memory.lookup_write_ne m b hin, Memory.lookup_write_ne m' b hin]
    exact h i (by omega)

theorem AgreeBelow.writeAll (bs : List Byte) : ∀ {n : Nat} {m m' : Memory}, AgreeBelow n m m' →
    AgreeBelow (n + bs.length) (Memory.writeAll m n bs) (Memory.writeAll m' n bs) := by
  induction bs with
  | nil => exact fun h => h
  | cons b bs ih =>
    intro n m m' h
    have hlen : n + (b :: bs).length = n + 1 + bs.length := by simp only [List.length_cons]; omega
    rw [hlen]
    exact ih (h.write b)

/-- Two states that differ at most in the bytes of `buf` at indices `count` and above, where every byte below is
written and a core that validates has a whole frame (R22, R23). -/
structure SameBelowCount (s s' : State) : Prop where
  rest : { s with buf := s'.buf, bufEpoch := s'.bufEpoch } = s'
  bytes : AgreeBelow s.count s.buf s'.buf
  full : s.st = .validating → s.count = s.cfg.frameLen

theorem sameBelowCount_of_inv {s s' : State} (hinv : Inv s) (h : SameObserved s s') : SameBelowCount s s' := by
  obtain ⟨-, -, ⟨-, -, hfull⟩, -, -, -, -, hwritten⟩ := hinv
  obtain ⟨hrest, hsame⟩ := h
  refine ⟨hrest, fun i hi => ?_, hfull⟩
  obtain ⟨b, hb⟩ := Option.isSome_iff_exists.1 (hwritten i hi)
  exact ⟨b, hb, hsame i hi ▸ hb⟩

theorem SameBelowCount.sameObserved {s s' : State} (h : SameBelowCount s s') : SameObserved s s' := by
  refine ⟨h.rest, fun i hi => ?_⟩
  obtain ⟨b, hb, hb'⟩ := h.bytes i hi
  exact hb.trans hb'.symm

theorem SameBelowCount.same {s s' : State} (h : SameBelowCount s s') :
    s'.cfg = s.cfg ∧ s'.cfgError = s.cfgError ∧ s'.st = s.st ∧ s'.input = s.input := by
  rw [← h.rest]
  exact ⟨rfl, rfl, rfl, rfl⟩

/-- The frame that `VALIDATING` reads lies below `count`. -/
theorem SameBelowCount.frame {s s' : State} (h : SameBelowCount s s') (hv : s.st = .validating) :
    s'.frame = s.frame := by
  obtain ⟨hcfg, -, -, -⟩ := h.same
  rw [State.frame, State.frame, hcfg]
  refine List.map_congr_left fun i hi => ?_
  obtain ⟨b, hb, hb'⟩ := h.bytes i (h.full hv ▸ List.mem_range.1 hi)
  rw [bufByte_of_lookup hb, bufByte_of_lookup hb']

/-- The dispatch looks at the frame in `VALIDATING` alone (R79, log 13). -/
theorem SameBelowCount.selected {s s' : State} (h : SameBelowCount s s') (ev : Option InEvent) :
    selected s' ev = selected s ev := by
  have hsum : sumPasses s' = sumPasses s := by
    obtain ⟨-, -, hst, -⟩ := h.same
    by_cases hv : s.st = .validating
    · simp only [sumPasses, hst, h.frame hv]
    · have hno : (s.st == .validating) = false := by simp [hv]
      simp only [sumPasses, hst, hno, Bool.false_and]
  rw [← h.rest] at hsum ⊢
  simp only [Machine.selected, dispatchWord, hsum]
  rfl

/-- The core of the noninterference: an operation that fits has the same effect on both states, up to the bytes at
`count` and above. -/
theorem SameBelowCount.effect {op : Operation} {y : Symbol} {s s' t : State} {ev : Option InEvent}
    (h : SameBelowCount s s') (hfit : OpFits op s ev) (heff : OpEffect op y s t) :
    ∃ t', OpEffect op y s' t' ∧ SameBelowCount t t' := by
  have hframe := h.frame
  obtain ⟨hrest, hbytes, hfull⟩ := h
  obtain ⟨m, e, rfl⟩ : ∃ m e, s' = { s with buf := m, bufEpoch := e } := ⟨_, _, hrest.symm⟩
  cases op with
  | reset => obtain rfl := heff; exact ⟨_, rfl, rfl, agreeBelow_zero _ _, nofun⟩
  | tick | seekMiss | seekFlush => obtain rfl := heff; exact ⟨_, rfl, rfl, hbytes, hfull⟩
  | seekHit =>
    obtain ⟨hlt, rfl⟩ := heff
    refine ⟨_, ⟨hlt, rfl⟩, rfl, ?_, nofun⟩
    have hsync := (agreeBelow_zero s.buf m).writeAll s.cfg.sync
    rwa [Nat.zero_add] at hsync
  | seekGap =>
    obtain ⟨hlt, rfl⟩ := heff
    exact ⟨_, ⟨hlt, rfl⟩, rfl, (agreeBelow_zero s.buf m).write y.b, nofun⟩
  | accStore =>
    obtain ⟨hlt, rfl⟩ := heff
    obtain ⟨hst, -⟩ := hfit
    exact ⟨_, ⟨hlt, rfl⟩, rfl, hbytes.write y.b, fun hv => nomatch hst.symm.trans hv⟩
  | accLast =>
    obtain ⟨hlt, rfl⟩ := heff
    obtain ⟨-, -, hlast⟩ := hfit
    exact ⟨_, ⟨hlt, rfl⟩, rfl, hlast ▸ hbytes.write y.b, fun _ => rfl⟩
  | accAbort =>
    obtain ⟨hlt, rfl⟩ := heff
    obtain ⟨hst, -⟩ := hfit
    exact ⟨_, ⟨hlt, rfl⟩, rfl, (agreeBelow_zero s.buf m).write y.b, fun hv => nomatch hst.symm.trans hv⟩
  | valPass =>
    obtain ⟨r, hr, rfl⟩ := heff
    obtain ⟨hv, -⟩ := hfit
    exact ⟨_, ⟨r, (hframe hv).symm ▸ hr, rfl⟩, rfl, agreeBelow_zero _ _, nofun⟩
  | valFail => obtain rfl := heff; exact ⟨_, rfl, rfl, agreeBelow_zero _ _, nofun⟩

theorem sameBelowCount_simulation : Simulation SameBelowCount where
  same h := h.same
  dispatch h := h.selected
  takeAway h rest := ⟨congrArg (fun u : State => { u with input := rest }) h.rest, h.bytes, h.full⟩
  begin h := ⟨congrArg beginStep h.rest, h.bytes, h.full⟩
  value h v := ⟨congrArg (returnValue v) h.rest, h.bytes, h.full⟩
  run := by
    intro s s' ev op h hop y t ht
    obtain ⟨t', heff, hR⟩ := h.effect (fits_of_selected hop) (runOperation_eq_next.1 ht)
    exact ⟨t', runOperation_eq_next.2 heff, hR⟩

/-- Settles O43: on the invariant's states the relation of the statement is a simulation's. -/
theorem unspecifiedBytesAreNeverObserved : Obligations.UnspecifiedBytesAreNeverObserved := by
  intro s s' t hinv _ hsame h
  have hrel := sameBelowCount_of_inv hinv hsame
  obtain ⟨t', ht', hR⟩ := sameBelowCount_simulation.step (sameBelowCount_simulation.begin hrel) t h
  exact ⟨t', ht', hR.sameObserved⟩

end Sys2Proof.Machine
end

section
/-! Proofs of the statements of spec/20_memory.md: the bytes of a 16-bit field (R52, R53), that no access outside the
frame space stops an event or the internal step (R55), and the order in which inputs are taken (R60). -/

namespace Sys2Proof.Machine

/-! ### A step that takes no host's call completes -/

/-- Only `RESET` and `TICK` are selected under an ill-formed configuration (R83, R190). -/
theorem cfgOk_of_selected {s : State} {ev : Option InEvent} {op : Operation} (hagree : CfgErrorAgrees s)
    (hsel : selected s ev = some op) (hreset : op ≠ .reset) (htick : op ≠ .tick) : cfgOk s.cfg = true := by
  cases hc : s.cfgError with
  | false => simpa [CfgErrorAgrees, hc] using hagree
  | true =>
    match ev with
    | none => simp [(selected_cfgError hc).1] at hsel
    | some .reset => exact absurd (Option.some.inj (hsel.symm.trans (selected_reset s))) hreset
    | some .tick => exact absurd (Option.some.inj (hsel.symm.trans (selected_tick s))) htick
    | some (.byte y) => simp [selected_byte_not_ready (.inl hc) y] at hsel

/-- The signature leaves room for the checksum in either start mode (R7). -/
theorem syncLen_lt_of_cfgOk {cfg : Cfg} (h : cfgOk cfg = true) : syncLen cfg < cfg.frameLen := by
  cases hm : cfg.startMode with
  | sentinel =>
    obtain ⟨-, hlt⟩ := sync_of_cfgOk_sentinel h hm
    exact hlt
  | gap =>
    obtain ⟨h2, -⟩ := sizes_of_cfgOk h
    rw [syncLen, sync_of_cfgOk_gap h hm, List.length_nil]
    omega

/-- A selected operation completes from every state of the invariant: it reads and writes inside the frame space
(R55, R134). -/
theorem exists_effect_of_selected {s : State} {ev : Option InEvent} {op : Operation} (hinv : Inv s)
    (hsel : selected s ev = some op) (y : Symbol) : ∃ t, OpEffect op y s t := by
  obtain ⟨hagree, -, ⟨-, hacc, -⟩, -, -, -⟩ := hinv
  have hok := cfgOk_of_selected hagree hsel
  have hfit := fits_of_selected hsel
  cases op with
  | reset | tick | seekMiss | seekFlush | valFail => exact ⟨_, rfl⟩
  | seekHit => exact ⟨_, (syncLen_lt_of_cfgOk (hok nofun nofun)).le, rfl⟩
  | seekGap | accAbort => exact ⟨_, Nat.zero_lt_of_lt (syncLen_lt_of_cfgOk (hok nofun nofun)), rfl⟩
  | accStore | accLast =>
    obtain ⟨hst, -⟩ := hfit
    obtain ⟨-, hroom⟩ := hacc hst
    exact ⟨_, hroom, rfl⟩
  | valPass => exact ⟨_, _, readFrame_of_cfgOk (hok nofun nofun) (frame_length s), rfl⟩

/-- An event that is taken selects an operation (R83). -/
theorem exists_selected_of_takeInput {s : State} {e : InEvent} {rest : List Input}
    (hin : takeInput s = some (.event e, rest)) :
    ∃ op y, selected s (some e) = some op ∧ (op.takesByte = true → e = .byte y) := by
  cases e with
  | reset => exact ⟨_, ⟨0, false⟩, selected_reset s, nofun⟩
  | tick => exact ⟨_, ⟨0, false⟩, selected_tick s, nofun⟩
  | byte y =>
    obtain ⟨op, hop, -⟩ := selected_byte_of_inReady (inReady_of_takeInput hin rfl) y
    exact ⟨op, y, hop, fun _ => rfl⟩

/-- Settles O36, by what the step takes: an event, or nothing in a core that is idle or validates. -/
theorem eventStepsComplete : Obligations.EventStepsComplete := by
  intro s hinv hcall
  cases hin : takeInput s with
  | some taken =>
    obtain ⟨x, rest⟩ := taken
    cases x with
    | call code => exact absurd hin (hcall code rest)
    | event e =>
      obtain ⟨op, y, hop, hy⟩ := exists_selected_of_takeInput hin
      obtain ⟨t, heff⟩ := exists_effect_of_selected (s := { s with input := rest }) hinv hop y
      exact ⟨t, (step_of_event hin hop hy).trans (runOperation_eq_next.2 heff)⟩
  | none =>
    by_cases hidle : s.cfgError = true ∨ s.st ≠ .validating
    · exact ⟨_, step_of_idle hin hidle⟩
    · simp only [not_or, Bool.not_eq_true, not_not] at hidle
      obtain ⟨hc, hv⟩ := hidle
      have hop := selected_validating hc hv
      obtain ⟨t, heff⟩ := exists_effect_of_selected hinv hop ⟨0, false⟩
      exact ⟨t, (step_of_internal hin hop).trans (runOperation_eq_next.2 heff)⟩

/-! ### The order of the inputs -/

/-- The inputs after a step: those that taking one left, and no operation adds or removes any. -/
theorem input_of_step {s t : State} (h : step s = .next t) :
    (takeInput s = none ∧ t.input = s.input) ∨ ∃ x, takeInput s = some (x, t.input) := by
  rcases step_cases h with ⟨code, rest, i, hin, hr, -, hc, hrun⟩ | ⟨e, rest, op, y, hin, -, -, hrun⟩ |
    ⟨op, hin, -, -, -, hrun⟩ | ⟨hin, -, rfl⟩
  · obtain ⟨-, hinput, -⟩ := exec_callable_keeps (s := { s with input := rest }) hc hr hrun
    exact .inr ⟨.call code, hinput ▸ hin⟩
  · obtain ⟨-, hinput, -⟩ := runOperation_keeps hrun
    exact .inr ⟨.event e, hinput ▸ hin⟩
  · obtain ⟨-, hinput, -⟩ := runOperation_keeps hrun
    exact .inl ⟨hin, hinput⟩
  · exact .inl ⟨hin, rfl⟩

/-- Settles O58: the inputs after a step are those that taking one left. -/
theorem inputsAreTakenInArrivalOrder : Obligations.InputsAreTakenInArrivalOrder := by
  intro s t h
  rcases input_of_step h with ⟨-, hkept⟩ | ⟨x, hin⟩
  · exact .inl hkept
  · obtain ⟨before, after, hsplit, hrest, hwait, hfirst, hready⟩ := takeInput_eq_some hin
    exact .inr ⟨before, x, after, hsplit, hrest, hwait, hfirst, hready⟩

/-! ### The bytes of a 16-bit field -/

@[simp] theorem extractHigh_rawOf (hi lo : Byte) : (rawOf hi lo).extractLsb' 8 8 = hi :=
  BitVec.extractLsb'_append_eq_left

@[simp] theorem extractLow_rawOf (hi lo : Byte) : (rawOf hi lo).extractLsb' 0 8 = lo :=
  BitVec.extractLsb'_append_eq_right

theorem toNat_rawOf (hi lo : Byte) : (rawOf hi lo).toNat = hi.toNat * 256 + lo.toNat := by
  rw [rawOf, BitVec.toNat_append, ← Nat.shiftLeft_add_eq_or_of_lt lo.isLt, Nat.shiftLeft_eq]

/-- The read of a temperature field is its two one-byte reads (R52, R53). -/
theorem readTemp_of_reads {cfg : Cfg} {frame : List Byte} {i : Fin 6} {hi lo : Byte}
    (hhi : memRead1 frame cfg.tempOffset[i] = .ok hi) (hlo : memRead1 frame (cfg.tempOffset[i] + 1) = .ok lo) :
    readTemp cfg frame i = .ok (rawOf (xorTransform cfg hi) (xorTransform cfg lo)) := by
  rw [readTemp, hhi, hlo]
  rfl

/-- Settles O28, by the two halves of a 16-bit value. -/
theorem fieldBytesAreConsistent : Obligations.FieldBytesAreConsistent := by
  refine ⟨fun cfg frame i hi lo hhi hlo => ?_, fun hi lo => ?_⟩
  · exact ⟨_, readTemp_of_reads hhi hlo, extractHigh_rawOf _ _, extractLow_rawOf _ _⟩
  · exact ⟨extractHigh_rawOf hi lo, extractLow_rawOf hi lo, toNat_rawOf hi lo⟩

end Sys2Proof.Machine
end

section
/-! Proofs of spec/30_encoding.md, the round trip: each reader takes back what its writer wrote (R71, R77), and the
head word says which reader runs (R79, R80; log 8). -/

namespace Sys2Proof.Machine

/-! ### The operands -/

theorem takeSymbols_encodeSymbols (ys : List Symbol) (rest : List Byte) :
    takeSymbols (encodeSymbols ys ++ rest) = .ok (ys, rest) := by
  induction ys with
  | nil => simp [encodeSymbols, takeSymbols]
  | cons y ys ih =>
    obtain ⟨b, g⟩ := y
    cases g <;> simp [encodeSymbols, takeSymbols, ih]

theorem takeFrame_encodeFrame {frame : List Byte} (h : frameOperandOk frame = true) (rest : List Byte) :
    takeFrame (encodeFrame frame ++ rest) = .ok (frame, rest) := by
  obtain ⟨hmin, hmax⟩ := of_decide_eq_true h
  have hlen : (BitVec.ofNat 8 frame.length).toNat = frame.length := by
    rw [BitVec.toNat_ofNat]
    exact Nat.mod_eq_of_lt (by omega)
  have hnot : ¬ frame.length < 2 := by omega
  simp [encodeFrame, takeFrame, hlen, hnot]

theorem rawOf_rawHigh_rawLow (t : Raw) : rawOf (rawHigh t) (rawLow t) = t :=
  BitVec.extractLsb'_append_extractLsb'_eq_extractLsb' rfl |>.trans BitVec.extractLsb'_eq_self

/-- The reader of R71's table takes the ten undecoded bytes by their number, which is well-formedness. -/
theorem takeRefFrame_bytes {fr : RefFrame} (h : refFrameOk fr = true) (rest : List Byte) :
    takeRefFrame (fr.bytes ++ rest) = .ok (fr, rest) := by
  have hlen : fr.u21.length = 10 := of_decide_eq_true h
  have hsplit : (fr.u21 ++ fr.k :: rest).drop 10 = fr.k :: rest ∧ (fr.u21 ++ fr.k :: rest).take 10 = fr.u21 := by
    rw [← hlen]
    exact ⟨List.drop_left, List.take_left⟩
  obtain ⟨hdrop, htake⟩ := hsplit
  have hhigh : (fr.statusHigh ++ fr.r).extractLsb' 4 4 = fr.statusHigh := BitVec.extractLsb'_append_eq_left
  have hlow : (fr.statusHigh ++ fr.r).extractLsb' 0 4 = fr.r := BitVec.extractLsb'_append_eq_right
  simp [RefFrame.bytes, takeRefFrame, hdrop, htake, rawOf_rawHigh_rawLow, hhigh, hlow]

/-! ### The head word -/

/-- The decoder on a head word: the format code says which reader goes on. -/
theorem decode_encodeHead {format low : Nat} (hformat : format < 64) (hlow : low < 1024) (rest : List Byte) :
    decode (encodeHead format low ++ rest) =
      if format = 0 then decodeSelected (BitVec.ofNat 10 low) rest
      else if format = 2 then decodeTemp low rest
      else if format = 3 then decodeRelay low rest
      else if low = 0 then decodePlain format rest
      else .error .reservedBits := by
  have hword := word16_bytes16 (format * 1024 + low) (by omega)
  have hmod : (format * 1024 + low) % 1024 = low := by omega
  have hdiv : (format * 1024 + low) / 1024 = format := by omega
  simp only [encodeHead, bytes16, List.cons_append, List.nil_append, decode, hword, hmod, hdiv]

/-- The match column of R80 selects its own row. -/
theorem operationOf_pattern (op : Operation) : operationOf op.pattern = some op := by
  cases op <;> decide

theorem decode_encodeOperation (op : Operation) (rest : List Byte) :
    decode (encodeOperation op ++ rest) = decodeSelected op.pattern rest :=
  decode_head_zero op.pattern rest

/-- A dispatched operation that a byte triggers: the dispatch word and then the symbol of R77. -/
theorem decode_byteOperation {op : Operation} (h : op.takesByte = true) (y : Symbol) (rest : List Byte) :
    decode (encodeOperation op ++ encodeSymbol y ++ rest) = .ok (op.withSymbol y, rest) := by
  simp only [List.append_assoc, decode_encodeOperation, decodeSelected, operationOf_pattern, h, if_true,
    takeSymbol_encodeSymbol]

theorem decode_plainOperation {op : Operation} (h : op.takesByte = false) (rest : List Byte) :
    decode (encodeOperation op ++ rest) = .ok (op.withSymbol ⟨0, false⟩, rest) := by
  simp only [decode_encodeOperation, decodeSelected, operationOf_pattern, h, Bool.false_eq_true, if_false]

/-- Settles O1, by the format of the operation's item: a dispatch word with or without a symbol, an index in the head
word with a Frame, or a plain head word with its operand. -/
theorem decodeOfEncodeIsInstruction : Obligations.DecodeOfEncodeIsInstruction := by
  intro i rest hwf
  cases i with
  | reset | tick | aValPass | aValFail => exact decode_plainOperation rfl rest
  | aSeekMiss | aSeekFlush | aSeekHit | aSeekGap | aAccStore | aAccLast | aAccAbort =>
    exact decode_byteOperation rfl _ rest
  | dTemp frame k =>
    rw [encode, List.append_assoc, decode_encodeHead (by omega) (by omega)]
    simp [decodeTemp, takeFrame_encodeFrame hwf]
  | dRelay frame j =>
    rw [encode, List.append_assoc, decode_encodeHead (by omega) (by omega)]
    simp [decodeRelay, takeFrame_encodeFrame hwf]
  | dXor v => exact decode_encodeHead (format := 1) (by omega) (by omega) (v :: rest)
  | dFrame frame =>
    rw [encode, List.append_assoc, decode_encodeHead (by omega) (by omega)]
    simp [decodePlain, takeFrame_encodeFrame hwf]
  | pFeed b g =>
    rw [encode, List.append_assoc, decode_encodeHead (by omega) (by omega)]
    simp [decodePlain, takeSymbol_encodeSymbol]
  | pPoll bs =>
    rw [encode, List.append_assoc, decode_encodeHead (by omega) (by omega)]
    simp [decodePlain, takeSymbols_encodeSymbols]
  | frameRef fr =>
    rw [encode, List.append_assoc, decode_encodeHead (by omega) (by omega)]
    simp [decodePlain, takeRefFrame_bytes hwf]

/-- A word of the operation table that is an operation's item and zeros decodes to it. -/
theorem decodeTableWord_of_encode {nbits w : Nat} {i : Instr} {rest : List Byte} (hwf : WellFormed i)
    (h : tableBytes nbits w = encode i ++ rest) : decodeTableWord nbits w = some i := by
  simp only [decodeTableWord, h, decodeOfEncodeIsInstruction i rest hwf]

/-- Settles O2: each word is its operation's item, and the dispatch word 0 is the idle core's. -/
theorem tableWordsDecode : Obligations.TableWordsDecode :=
  ⟨decodeTableWord_of_encode (i := .reset) rfl rfl, decodeTableWord_of_encode (i := .tick) rfl rfl,
    decodeTableWord_of_encode (i := .aSeekFlush 0x55 true) rfl rfl,
    decodeTableWord_of_encode (i := .aAccAbort 0x10) rfl rfl,
    decodeTableWord_of_encode (i := .aValPass) rfl rfl, rfl⟩

end Sys2Proof.Machine
end

section
/-! Proofs of spec/30_encoding.md, the dispatch: the rows of R80 are disjoint, so a dispatch word selects an operation
exactly when it meets that row, and none exactly in the rows of R83. -/

namespace Sys2Proof.Machine

/-! ### The rows -/

/-- Two rows that one word meets agree on the bits both masks keep; no two rows of R80 do. -/
theorem rows_disjoint : ∀ row ∈ opRows, ∀ row' ∈ opRows,
    row.pattern &&& row'.mask = row'.pattern &&& row.mask → row = row' := by
  decide

theorem row_unique {sel : Sel} {row row' : OpRow} (h : row ∈ opRows) (h' : row' ∈ opRows)
    (hsel : row.selects sel = true) (hsel' : row'.selects sel = true) : row = row' := by
  simp only [OpRow.selects, beq_iff_eq] at hsel hsel'
  refine rows_disjoint row h row' h' ?_
  rw [← hsel, ← hsel', BitVec.and_assoc, BitVec.and_assoc, BitVec.and_comm row.mask]

/-- Every operation has one row. -/
theorem row_eq_of_op_eq : ∀ row ∈ opRows, ∀ row' ∈ opRows, row.op = row'.op → row = row' := by
  decide

theorem exists_row_of_operationOf {sel : Sel} {op : Operation} (h : operationOf sel = some op) :
    ∃ row ∈ opRows, row.selects sel = true ∧ row.op = op := by
  obtain ⟨row, hfind, hop⟩ := Option.map_eq_some_iff.1 h
  exact ⟨row, List.mem_of_find?_eq_some hfind, List.find?_some (p := fun r : OpRow => r.selects sel) hfind, hop⟩

/-- The first row found is the only one, so the order of the rows plays no part. -/
theorem operationOf_eq_some_iff {row : OpRow} (h : row ∈ opRows) (sel : Sel) :
    operationOf sel = some row.op ↔ sel &&& row.mask = row.pattern := by
  refine Iff.trans ?_ (beq_iff_eq (a := sel &&& row.mask))
  constructor
  · intro hop
    obtain ⟨row', hmem, hsel, heq⟩ := exists_row_of_operationOf hop
    rwa [row_eq_of_op_eq row' hmem row h heq] at hsel
  · intro hsel
    cases hop : operationOf sel with
    | none =>
      have hnone := List.find?_eq_none.1 (Option.map_eq_none_iff.1 hop) row h
      exact absurd hsel hnone
    | some op =>
      obtain ⟨row', hmem, hsel', rfl⟩ := exists_row_of_operationOf hop
      rw [row_unique hmem h hsel' hsel]

/-- Settles O3: the eleven rows, one by one. -/
theorem operationMapMasks : Obligations.OperationMapMasks := by
  intro sel
  have hrow := fun (row : OpRow) (h : row ∈ opRows) => operationOf_eq_some_iff h sel
  simp only [opRows, List.forall_mem_cons, List.not_mem_nil, false_imp_iff, implies_true, and_true] at hrow
  exact hrow

/-! ### Every word that is presented selects a row -/

/-- With `in_ready` respected, and no event only where the internal step is pending, some operation is selected. -/
theorem exists_selected {s : State} {ev : Option InEvent} (hbyte : ∀ y, ev = some (.byte y) → s.inReady = true)
    (hnone : ev = none → s.cfgError = false ∧ s.st = .validating) : ∃ op, selected s ev = some op := by
  match ev with
  | none =>
    obtain ⟨hc, hs⟩ := hnone rfl
    exact ⟨_, selected_validating hc hs⟩
  | some .reset => exact ⟨_, selected_reset s⟩
  | some .tick => exact ⟨_, selected_tick s⟩
  | some (.byte y) =>
    obtain ⟨op, hop, -⟩ := selected_byte_of_inReady (hbyte y rfl) y
    exact ⟨op, hop⟩

/-- Settles O4: the selected operation's row, which the disjointness of the rows makes the only one. -/
theorem dispatchSelectsExactlyOneRow : Obligations.DispatchSelectsExactlyOneRow := by
  refine ⟨fun sel row row' h h' hsel hsel' => row_unique h h' hsel hsel', fun s ev hbyte hnone => ?_⟩
  obtain ⟨op, hop⟩ := exists_selected hbyte hnone
  obtain ⟨row, hmem, hsel, -⟩ := exists_row_of_operationOf hop
  exact ⟨row, hmem, hsel, fun row' hmem' hsel' => row_unique hmem' hmem hsel' hsel⟩

/-! ### The words that select nothing -/

/-- The dispatch word of R79 over its fields. -/
def selOf (c : Bool) (ev st : BitVec 2) (g h o l k : Bool) : Sel :=
  BitVec.ofBool c ++ ev ++ st ++ BitVec.ofBool g ++ BitVec.ofBool h ++ BitVec.ofBool o ++ BitVec.ofBool l
    ++ BitVec.ofBool k

/-- Every dispatch word has the fields of R79. -/
theorem eq_selOf (sel : Sel) : sel = selOf (sel.getLsbD 9) (sel.extractLsb' 7 2) (sel.extractLsb' 5 2)
    (sel.getLsbD 4) (sel.getLsbD 3) (sel.getLsbD 2) (sel.getLsbD 1) (sel.getLsbD 0) := by
  refine BitVec.eq_of_getLsbD_eq (w := 1 + 2 + 2 + 1 + 1 + 1 + 1 + 1) fun i hi => ?_
  simp only [selOf, BitVec.getLsbD_append]
  interval_cases i <;> simp

/-- The code `0b11` of the state selects nothing without an event and with a byte (R83, second row). -/
theorem operationOf_unusedState (ev : BitVec 2) (hev : ev = 0b00#2 ∨ ev = 0b01#2) (g h o l k : Bool) :
    operationOf (selOf false ev 0b11#2 g h o l k) = none := by
  rcases hev with rfl | rfl <;> revert g h o l k <;> decide

theorem bitVec2_cases : ∀ v : BitVec 2, v = 0b00#2 ∨ v = 0b01#2 ∨ v = 0b10#2 ∨ v = 0b11#2 := by
  decide

theorem operationOf_ne_none {sel : Sel} {op : Operation} (h : operationOf sel = some op) :
    operationOf sel ≠ none := by
  simp [h]

theorem operationOf_selOf_eq_none_iff (c : Bool) (ev st : BitVec 2) (g h o l k : Bool) :
    operationOf (selOf c ev st g h o l k) = none ↔
      (c = true ∧ ev.getLsbD 1 = false) ∨ (ev.getLsbD 1 = false ∧ st = 0b11#2) ∨
      (ev = 0b01#2 ∧ st = 0b10#2) ∨ (ev = 0b00#2 ∧ st ≠ 0b10#2) := by
  rcases bitVec2_cases ev with rfl | rfl | rfl | rfl
  case inl =>
    cases c with
    | true => exact iff_of_true (operationOf_cfgError _ (.inl rfl) ..).1 (.inl ⟨rfl, rfl⟩)
    | false =>
      rcases bitVec2_cases st with rfl | rfl | rfl | rfl
      · exact iff_of_true (operationOf_idle _ (.inl rfl) ..).1 (by decide)
      · exact iff_of_true (operationOf_idle _ (.inr rfl) ..).1 (by decide)
      · exact iff_of_false (operationOf_ne_none (operationOf_validating ..)) (by decide)
      · exact iff_of_true (operationOf_unusedState _ (.inl rfl) ..) (by decide)
  case inr.inl =>
    cases c with
    | true => exact iff_of_true (operationOf_cfgError _ (.inr rfl) ..).1 (.inl ⟨rfl, rfl⟩)
    | false =>
      rcases bitVec2_cases st with rfl | rfl | rfl | rfl
      · exact iff_of_false (operationOf_ne_none (operationOf_seeking ..)) (by decide)
      · exact iff_of_false (operationOf_ne_none (operationOf_accumulating ..)) (by decide)
      · exact iff_of_true (operationOf_byte_validating ..) (by decide)
      · exact iff_of_true (operationOf_unusedState _ (.inr rfl) ..) (by decide)
  case inr.inr.inl => exact iff_of_false (operationOf_ne_none (operationOf_tick ..)) (by simp)
  case inr.inr.inr => exact iff_of_false (operationOf_ne_none (operationOf_reset ..)) (by simp)

/-- Settles O5, over the fields of the word: `ev`, then `cfg_error`, then the state code. -/
theorem nonSelectingWords : Obligations.NonSelectingWords := by
  intro sel
  have hbit : sel.getLsbD 8 = (sel.extractLsb' 7 2).getLsbD 1 := by simp
  have hword := congrArg operationOf (eq_selOf sel)
  rw [hword, hbit]
  exact operationOf_selOf_eq_none_iff ..

end Sys2Proof.Machine
end

section
/-! Proofs of spec/30_encoding.md, the idle core and the output ports: what a step emits is fixed by the operation, and
the ports are functions of what it emitted (R81, R82, R83). -/

namespace Sys2Proof.Machine

/-! ### The idle core -/

theorem takeInput_of_no_input {s : State} (h : s.input = []) : takeInput s = none := by
  simp [takeInput, h, takePastWaiting]

/-- Settles O8: nothing is taken, and without an event nothing is selected outside `VALIDATING`. -/
theorem idleCoreHolds : Obligations.IdleCoreHolds :=
  fun _ hin hst => step_of_idle (takeInput_of_no_input hin) (.inr hst)

/-! ### The events of an operation -/

/-- The error that an operation emits; `A.VAL.PASS` alone emits another event, and ConfigurationError is none (R34). -/
def errorEvents : Operation → List OutEvent
  | .seekFlush | .accAbort => [.errFraming]
  | .valFail => [.errChecksum]
  | .reset | .tick | .seekMiss | .seekHit | .seekGap | .accStore | .accLast | .valPass => []

theorem OpEffect.out_eq_errorEvents {op : Operation} {y : Symbol} {s t : State} (h : OpEffect op y s t)
    (hop : op ≠ .valPass) : t.out = errorEvents op := by
  cases op with
  | reset | tick | seekMiss | seekFlush | valFail => obtain rfl := h; rfl
  | seekHit | seekGap | accStore | accLast | accAbort => obtain ⟨-, rfl⟩ := h; rfl
  | valPass => exact absurd rfl hop

theorem OpEffect.out_eq_readings {y : Symbol} {s t : State} (h : OpEffect .valPass y s t) :
    ∃ r, readFrame s.cfg s.frame = .ok r ∧ t.out = [.readings r] := by
  obtain ⟨r, hr, rfl⟩ := h
  exact ⟨r, hr, rfl⟩

/-! ### The ports -/

theorem outReadings_of_readings {t : State} {r : Readings} (h : t.out = [.readings r]) : outReadings t = some r := by
  simp [outReadings, h]

theorem outReadings_of_errorEvents {t : State} {op : Operation} (h : t.out = errorEvents op) :
    outReadings t = none := by
  cases op <;> simp [outReadings, h, errorEvents]

/-- The code of the error that an operation raises, 0 for none (R81). -/
def errorCode (op : Operation) : BitVec 2 :=
  if op = .seekFlush ∨ op = .accAbort then 1
  else if op = .valFail then 2
  else 0

theorem OpEffect.errCode_eq {op : Operation} {y : Symbol} {s t : State} (h : OpEffect op y s t) :
    errCode t = if t.cfgError then 3 else errorCode op := by
  by_cases hop : op = .valPass
  · subst hop
    obtain ⟨r, -, hout⟩ := h.out_eq_readings
    simp [errCode, hout, errorCode]
  · have hout := h.out_eq_errorEvents hop
    cases op <;> simp [errCode, hout, errorEvents, errorCode]

/-- Settles O57: `A.VAL.PASS` emits the readings of the frame, every other operation at most an error. -/
theorem portsAfterEachOperation : Obligations.PortsAfterEachOperation := by
  intro op y s t hrun
  rw [exec_withSymbol] at hrun
  have heff := runOperation_eq_next.1 hrun
  have hcode := heff.errCode_eq
  by_cases hop : op = .valPass
  · subst hop
    obtain ⟨r, hread, hout⟩ := heff.out_eq_readings
    have hports := outReadings_of_readings hout
    exact ⟨by simp [ports, hports], fun _ => ⟨r, hread, by simp [ports, hports], by simp [ports, hports]⟩,
      fun hne => absurd rfl hne, hcode⟩
  · have hports := outReadings_of_errorEvents (heff.out_eq_errorEvents hop)
    exact ⟨by simp [ports, hports, hop], fun heq => absurd heq hop,
      fun _ => ⟨by simp [ports, hports], by simp [ports, hports]⟩, hcode⟩

/-- An operation that completes, and its `err_code` where the value of `cfg_error` afterwards is known. -/
theorem hasNext_errCode {op : Operation} {y : Symbol} {s t : State} {code : BitVec 2} (h : OpEffect op y s t)
    (hcode : (if t.cfgError then 3 else errorCode op) = code) :
    HasNext (exec (op.withSymbol y) s) fun u => errCode u = code :=
  ⟨t, (exec_withSymbol op y s).trans (runOperation_eq_next.2 h), h.errCode_eq.trans hcode⟩

/-- Settles O42: only `RESET` changes `cfg_error`. -/
theorem errorCodes : Obligations.ErrorCodes := by
  intro s hc
  refine ⟨fun b g => ?flush, fun b hlen => ?abort, ?fail, ?tick, ?reset⟩
  case flush => exact hasNext_errCode (op := .seekFlush) (y := ⟨b, g⟩) rfl (by simp [hc, errorCode])
  case abort => exact hasNext_errCode (op := .accAbort) (y := ⟨b, true⟩) ⟨hlen, rfl⟩ (by simp [hc, errorCode])
  case fail => exact hasNext_errCode (op := .valFail) (y := ⟨0, false⟩) rfl (by simp [hc, errorCode])
  case tick => exact hasNext_errCode (op := .tick) (y := ⟨0, false⟩) rfl (by simp [hc, errorCode])
  case reset =>
    refine hasNext_errCode (op := .reset) (y := ⟨0, false⟩) rfl ?_
    cases cfgOk s.cfg <;> simp [errorCode]

end Sys2Proof.Machine
end

section
/-! Proof of spec/30_encoding.md, the prepared states: each change that `State.selecting` makes fixes one condition of
R79 and leaves the offered input and the conditions fixed before it (log 17). -/

namespace Sys2Proof.Machine

/-! ### Inputs that are taken -/

theorem takeInput_of_inReady {s : State} {x : Input} {rest : List Input} (hr : s.inReady = true)
    (hin : s.input = x :: rest) : takeInput s = some (x, rest) := by
  obtain ⟨hc, hs⟩ := inReady_iff.1 hr
  simp [takeInput, hc, hs, hin]

/-- `RESET` and `TICK` are taken in every state (R172, R210). -/
theorem takeInput_of_not_waits {s : State} {x : Input} {rest : List Input} (hx : Input.waits x = false)
    (hin : s.input = x :: rest) : takeInput s = some (x, rest) := by
  cases hc : s.cfgError <;> simp [takeInput, takePastWaiting, hc, hin, hx]

theorem fetch_offerCall {i : Instr} (hwf : WellFormed i) (hc : callable i = true) (s : State) :
    ∃ t, fetch (offerCall (encode i) s) = .run i t := by
  have hready : (offerCall (encode i) s).inReady = true := by
    refine inReady_iff.2 ⟨rfl, ?_⟩
    rw [offerCall_st]
    split <;> simp_all
  have hdecode : decode (encode i) = .ok (i, []) := by
    simpa using decodeOfEncodeIsInstruction i [] hwf
  rw [fetch_of_takeInput_call (takeInput_of_inReady hready rfl)]
  exact ⟨_, fetchCalled_of_decode _ hdecode hc⟩

/-! ### An offered byte -/

/-- The byte `y` is offered to a core that is in the assembler state `st` without `cfg_error`. -/
structure Offers (st : AsmState) (y : Symbol) (s : State) : Prop where
  cfgError_eq : s.cfgError = false
  st_eq : s.st = st
  input_eq : ∃ rest, s.input = Input.ofSymbol y :: rest

theorem offers_offerByte (st : AsmState) (y : Symbol) (s : State) : Offers st y (offerByte st y s) :=
  ⟨rfl, rfl, s.input, rfl⟩

theorem Offers.withWindow {st : AsmState} {y : Symbol} {s : State} (h : Offers st y s) (exceeded : Bool) :
    Offers st y (withWindow exceeded s) := by
  obtain ⟨hc, hs, hin⟩ := h
  cases exceeded <;> exact ⟨hc, hs, hin⟩

theorem Offers.withoutStart {st : AsmState} {y : Symbol} {s : State} (h : Offers st y s) (y' : Symbol) :
    Offers st y (withoutStart y' s) := by
  obtain ⟨hc, hs, hin⟩ := h
  unfold Machine.withoutStart
  split <;> exact ⟨hc, hs, hin⟩

theorem Offers.withHit {st : AsmState} {y : Symbol} {s : State} (h : Offers st y s) (y' : Symbol) :
    Offers st y (withHit y' s) := by
  obtain ⟨hc, hs, hin⟩ := h
  unfold Machine.withHit
  split <;> exact ⟨hc, hs, hin⟩

theorem Offers.withGapMode {st : AsmState} {y : Symbol} {s : State} (h : Offers st y s) :
    Offers st y (withGapMode s) := by
  obtain ⟨hc, hs, hin⟩ := h
  exact ⟨hc, hs, hin⟩

theorem Offers.withLast {st : AsmState} {y : Symbol} {s : State} (h : Offers st y s) (fills : Bool) :
    Offers st y (withLast fills s) := by
  obtain ⟨hc, hs, hin⟩ := h
  unfold Machine.withLast
  split_ifs <;> exact ⟨hc, hs, hin⟩

/-- An offered byte runs the operation it selects. -/
theorem Offers.fetch_eq {st : AsmState} {y : Symbol} {s : State} {op : Operation} (h : Offers st y s)
    (hst : st ≠ .validating) (hop : selected s (some (.byte y)) = some op) (hb : op.takesByte = true) :
    ∃ t, fetch s = .run (op.withSymbol y) t := by
  obtain ⟨hc, rfl, rest, hin⟩ := h
  have htake := takeInput_of_inReady (inReady_iff.2 ⟨hc, hst⟩) hin
  have hfetch := fetchSelected_of_selected (s := { s with input := rest }) hop y fun _ => rfl
  rw [hb, if_pos rfl] at hfetch
  exact ⟨_, (fetch_of_takeInput_event htake).trans hfetch⟩

/-! ### The conditions that the changes fix -/

theorem gapm_of_not_flagged (s : State) (b : Byte) : gapm s ⟨b, false⟩ = false := by
  simp [gapm]

theorem gapm_withGapMode (s : State) (b : Byte) : gapm (withGapMode s) ⟨b, true⟩ = true := rfl

/-- The matcher on a signature of one byte. -/
theorem advance_singleton (a b : Byte) : advance [a] 0 b = if b = a then 1 else 0 := by
  simp [advance, longestOverlap]

theorem gapm_withoutStart (y : Symbol) (s : State) : gapm (withoutStart y s) y = false := by
  unfold withoutStart
  split
  · rfl
  · next h => simp_all

theorem hit_withoutStart (y : Symbol) (s : State) : hit (withoutStart y s) y = false := by
  unfold withoutStart
  split
  · simp [hit, syncLen, advance_singleton]
  · next h => simp_all

theorem hit_withHit (y : Symbol) (s : State) : hit (withHit y s) y = true := by
  unfold withHit
  split
  · next h => exact h
  · simp [hit, syncLen, advance_singleton]

theorem overWindow_withWindow (exceeded : Bool) (s : State) : overWindow (withWindow exceeded s) = exceeded := by
  cases exceeded <;> simp [overWindow, withWindow]

theorem overWindow_withoutStart (y : Symbol) (s : State) : overWindow (withoutStart y s) = overWindow s := by
  unfold withoutStart
  split <;> rfl

theorem lastByte_withLast (fills : Bool) (s : State) : lastByte (withLast fills s) = fills := by
  unfold withLast
  split_ifs with hfills hlast
  · have hsum : s.cfg.frameLen - 1 + 1 = max 1 s.cfg.frameLen := by omega
    simp [lastByte, hsum, hfills]
  · simp [lastByte, hfills]
  · simp_all

/-! ### The prepared frame -/

theorem checksumOk_concat (bs : List Byte) (k : Byte) : checksumOk (bs ++ [k]) = (k == sum8 bs) := by
  simp [checksumOk]

theorem sum8_replicate_zero (n : Nat) : sum8 (List.replicate n 0) = 0 := by
  simp [sum8]

theorem lookup_map_of_mem (f : Nat → Byte) {a : Nat} {is : List Nat} (h : a ∈ is) :
    Memory.lookup (is.map fun i => (i, f i)) a = some (f a) := by
  induction is with
  | nil => cases h
  | cons i is ih =>
    by_cases hi : i = a
    · simp [Memory.lookup, hi]
    · simp only [List.map_cons, Memory.lookup, hi, if_false]
      exact ih ((List.mem_cons.1 h).resolve_left (Ne.symm hi))

theorem frame_withFrame (valid : Bool) (s : State) : (withFrame valid s).frame =
    List.replicate (s.cfg.frameLen - 1) 0 ++ [if valid then 0 else 1] := by
  have hn : max 1 s.cfg.frameLen = s.cfg.frameLen - 1 + 1 := by omega
  have hbyte : ∀ i ∈ List.range (s.cfg.frameLen - 1 + 1), (withFrame valid s).bufByte i =
      if valid || decide (i + 1 < s.cfg.frameLen - 1 + 1) then 0 else 1 := fun i hi => by
    refine bufByte_of_lookup ?_
    simp only [withFrame, hn]
    exact lookup_map_of_mem _ hi
  rw [State.frame, show (withFrame valid s).cfg.frameLen = _ from hn, List.map_congr_left hbyte, List.range_succ,
    List.map_append]
  congr 1
  · rw [List.eq_replicate_iff]
    simp +contextual
  · simp

theorem checksumOk_withFrame (valid : Bool) (s : State) : checksumOk (withFrame valid s).frame = valid := by
  rw [frame_withFrame, checksumOk_concat, sum8_replicate_zero]
  cases valid <;> rfl

/-- In `VALIDATING` the inputs that wait let the internal step go first (R192). -/
theorem takeInput_withFrame (valid : Bool) (s : State) : takeInput (withFrame valid s) = none := by
  have hhead := List.head?_dropWhile_not (fun x => !Input.waits x) s.input
  simp only [takeInput, withFrame, Bool.false_eq_true, if_false]
  split
  · rfl
  · next x xs hin => simp_all

theorem fetch_withFrame (valid : Bool) (s : State) :
    ∃ t, fetch (withFrame valid s) = .run (if valid then .aValPass else .aValFail) t := by
  have hop := selected_validating (s := withFrame valid s) rfl rfl
  rw [checksumOk_withFrame] at hop
  refine ⟨withFrame valid s, ?_⟩
  rw [fetch_of_takeInput_none (takeInput_withFrame valid s),
    fetchSelected_of_selected hop ⟨0, false⟩ (by cases valid <;> nofun)]
  cases valid <;> rfl

/-! ### The obligation -/

theorem fetch_offer_event {e : InEvent} {op : Operation} {s : State} (hwaits : Input.waits (.event e) = false)
    (hop : selected s (some e) = some op) (hb : op.takesByte = false) :
    ∃ t, fetch (offer (.event e) s) = .run (op.withSymbol ⟨0, false⟩) t := by
  have htake := takeInput_of_not_waits (s := offer (.event e) s) hwaits rfl
  have hfetch := fetchSelected_of_selected (s := s) hop ⟨0, false⟩ (by simp [hb])
  rw [hb] at hfetch
  exact ⟨s, (fetch_of_takeInput_event htake).trans hfetch⟩

/-- Settles O7: an event is taken and selects its operation, a byte meets the conditions that its changes fix, the
internal step meets the prepared frame, and a call is taken and decoded. -/
theorem everyOperationCanBeFetched : Obligations.EveryOperationCanBeFetched := by
  intro s i hwf
  cases i with
  | reset => exact fetch_offer_event rfl (selected_reset s) rfl
  | tick => exact fetch_offer_event rfl (selected_tick s) rfl
  | aSeekMiss b g =>
    have h := ((offers_offerByte .seekingStart ⟨b, g⟩ s).withWindow false).withoutStart ⟨b, g⟩
    refine h.fetch_eq (op := .seekMiss) nofun ?_ rfl
    simp [selected_seeking h.cfgError_eq h.st_eq, gapm_withoutStart, hit_withoutStart, overWindow_withoutStart,
      overWindow_withWindow]
  | aSeekFlush b g =>
    have h := ((offers_offerByte .seekingStart ⟨b, g⟩ s).withWindow true).withoutStart ⟨b, g⟩
    refine h.fetch_eq (op := .seekFlush) nofun ?_ rfl
    simp [selected_seeking h.cfgError_eq h.st_eq, gapm_withoutStart, hit_withoutStart, overWindow_withoutStart,
      overWindow_withWindow]
  | aSeekHit b =>
    have h := (offers_offerByte .seekingStart ⟨b, false⟩ s).withHit ⟨b, false⟩
    refine h.fetch_eq (op := .seekHit) nofun ?_ rfl
    simp [selected_seeking h.cfgError_eq h.st_eq, gapm_of_not_flagged, hit_withHit]
  | aSeekGap b =>
    have h := (offers_offerByte .seekingStart ⟨b, true⟩ s).withGapMode
    refine h.fetch_eq (op := .seekGap) nofun ?_ rfl
    simp [selected_seeking h.cfgError_eq h.st_eq, gapm_withGapMode]
  | aAccStore b =>
    have h := (offers_offerByte .accumulating ⟨b, false⟩ s).withLast false
    refine h.fetch_eq (op := .accStore) nofun ?_ rfl
    simp [selected_accumulating h.cfgError_eq h.st_eq, gapm_of_not_flagged, lastByte_withLast]
  | aAccLast b =>
    have h := (offers_offerByte .accumulating ⟨b, false⟩ s).withLast true
    refine h.fetch_eq (op := .accLast) nofun ?_ rfl
    simp [selected_accumulating h.cfgError_eq h.st_eq, gapm_of_not_flagged, lastByte_withLast]
  | aAccAbort b =>
    have h := (offers_offerByte .accumulating ⟨b, true⟩ s).withGapMode
    refine h.fetch_eq (op := .accAbort) nofun ?_ rfl
    simp [selected_accumulating h.cfgError_eq h.st_eq, gapm_withGapMode]
  | aValPass => exact fetch_withFrame true s
  | aValFail => exact fetch_withFrame false s
  | dXor | dTemp | dRelay | dFrame | pFeed | pPoll | frameRef => exact fetch_offerCall hwf rfl s

end Sys2Proof.Machine
end

section
/-! How a frame reaches `buf`, said once: ascending writes, feeding by the effect of the selected operation, and the
bytes without a gap start that fill a frame and leave it to the internal step (R128, R129, R131, R132). -/

namespace Sys2Proof.Machine

/-! ### Ascending writes -/

theorem Memory.lookup_writeAll (bs : List Byte) : ∀ (m : Memory) (i a : Nat),
    Memory.lookup (Memory.writeAll m i bs) a =
      if i ≤ a ∧ a < i + bs.length then bs[a - i]? else Memory.lookup m a := by
  induction bs with
  | nil =>
    intro m i a
    rw [if_neg (by simp)]
    rfl
  | cons b bs ih =>
    intro m i a
    rw [Memory.writeAll, ih, Memory.lookup_write, List.length_cons]
    rcases lt_trichotomy a i with hlt | rfl | hgt
    · rw [if_neg (by omega), if_neg (by omega), if_neg (by omega)]
    · simp
    · obtain ⟨k, rfl⟩ : ∃ k, a = i + 1 + k := ⟨a - (i + 1), by omega⟩
      have hk : i + 1 + k - i = k + 1 := by omega
      simp only [hk, List.getElem?_cons_succ, Nat.add_sub_cancel_left, show i + 1 + k ≠ i by omega, if_false]
      congr 1
      apply propext
      omega

theorem Memory.writeAll_append (bs cs : List Byte) : ∀ (m : Memory) (i : Nat),
    Memory.writeAll m i (bs ++ cs) = Memory.writeAll (Memory.writeAll m i bs) (i + bs.length) cs := by
  induction bs with
  | nil => intro m i; rfl
  | cons b bs ih =>
    intro m i
    simp only [List.cons_append, Memory.writeAll, ih, List.length_cons, Nat.add_assoc, Nat.add_comm 1]

/-- The bytes of `buf` after bytes were written from index 0 on. -/
theorem bufByte_of_writeAll {s t : State} {bs : List Byte} (hbuf : t.buf = Memory.writeAll s.buf 0 bs)
    (hepoch : t.bufEpoch = s.bufEpoch) (a : Nat) : t.bufByte a = (bs[a]?).getD (s.bufByte a) := by
  simp only [State.bufByte, hbuf, hepoch, Memory.lookup_writeAll, Nat.zero_le, true_and, Nat.zero_add, Nat.sub_zero]
  split_ifs with h
  · simp [h]
  · simp [Nat.le_of_not_lt h]

theorem frame_of_writeAll {s t : State} {bs : List Byte} (hbuf : t.buf = Memory.writeAll s.buf 0 bs)
    (hepoch : t.bufEpoch = s.bufEpoch) (hlen : bs.length = t.cfg.frameLen) : t.frame = bs := by
  refine List.ext_getElem (by simp [hlen]) fun i hi hi' => ?_
  simp [State.frame, bufByte_of_writeAll hbuf hepoch, hi']

/-! ### Feeding by the effect of the selected operation -/

theorem feed_of_effect {s t : State} {y : Symbol} {op : Operation} (hr : s.inReady = true)
    (hop : selected s (some (.byte y)) = some op) (heff : OpEffect op y s t) : feed y s = settle t := by
  rw [feed_of_selected hr hop, runOperation_eq_next.2 heff, andThen_next]

/-- A byte after which no internal step is pending. -/
theorem feedAll_cons_of_effect {s t : State} {y : Symbol} {op : Operation} (hr : s.inReady = true)
    (hop : selected s (some (.byte y)) = some op) (heff : OpEffect op y s t) (hst : t.st ≠ .validating)
    (ys : List Symbol) : feedAll (y :: ys) s = feedAll ys t := by
  simp only [feedAll, hr, if_true, feed_of_effect hr hop heff, settle_of_ne hst, andThen_next]

/-- The core in `ACCUMULATING` with the first bytes `bs` of a frame in `buf`. -/
def frameBegun (bs : List Byte) (s : State) : State :=
  { beginStep s with
    st := .accumulating, count := bs.length, buf := Memory.writeAll s.buf 0 bs, matchLen := 0, seekCount := 0 }

/-- The core in `VALIDATING` with the frame `bs` in `buf`. -/
def frameHeld (bs : List Byte) (s : State) : State :=
  { frameBegun bs s with st := .validating, count := s.cfg.frameLen }

@[simp] theorem frameHeld_cfg (bs : List Byte) (s : State) : (frameHeld bs s).cfg = s.cfg := rfl
@[simp] theorem frameHeld_cfgError (bs : List Byte) (s : State) : (frameHeld bs s).cfgError = s.cfgError := rfl
@[simp] theorem frameHeld_framingErrors (bs : List Byte) (s : State) :
    (frameHeld bs s).framingErrors = s.framingErrors := rfl
@[simp] theorem frameHeld_checksumErrors (bs : List Byte) (s : State) :
    (frameHeld bs s).checksumErrors = s.checksumErrors := rfl
@[simp] theorem frameHeld_bufEpoch (bs : List Byte) (s : State) : (frameHeld bs s).bufEpoch = s.bufEpoch := rfl
@[simp] theorem frameHeld_input (bs : List Byte) (s : State) : (frameHeld bs s).input = s.input := rfl
@[simp] theorem frameHeld_trace (bs : List Byte) (s : State) : (frameHeld bs s).trace = s.trace := rfl
@[simp] theorem frameHeld_funcResult (bs : List Byte) (s : State) : (frameHeld bs s).funcResult = s.funcResult := rfl
@[simp] theorem frameHeld_out (bs : List Byte) (s : State) : (frameHeld bs s).out = [] := rfl
@[simp] theorem frameHeld_buf (bs : List Byte) (s : State) :
    (frameHeld bs s).buf = Memory.writeAll s.buf 0 bs := rfl

@[simp] theorem bufByte_frameHeld (bs : List Byte) (s : State) (a : Nat) :
    (frameHeld bs s).bufByte a = (bs[a]?).getD (s.bufByte a) :=
  bufByte_of_writeAll (s := s) (t := frameHeld bs s) rfl rfl a

@[simp] theorem bufByte_resync (s : State) (a : Nat) : (resync s).bufByte a = s.bufByte a := rfl
@[simp] theorem bufByte_emit (e : OutEvent) (s : State) (a : Nat) : (emit e s).bufByte a = s.bufByte a := rfl
@[simp] theorem bufByte_raise_checksum (s : State) (a : Nat) : (raise .checksum s).bufByte a = s.bufByte a := rfl

theorem inReady_frameBegun {s : State} (hc : s.cfgError = false) (bs : List Byte) :
    (frameBegun bs s).inReady = true :=
  inReady_iff.2 ⟨hc, nofun⟩

theorem selected_frameBegun {s : State} (hc : s.cfgError = false) {y : Symbol} (hgap : gapm s y = false)
    (bs : List Byte) : selected (frameBegun bs s) (some (.byte y)) =
      some (if bs.length + 1 = s.cfg.frameLen then .accLast else .accStore) := by
  have hgap' : gapm (frameBegun bs s) y = false := hgap
  have hlast : lastByte (frameBegun bs s) = decide (bs.length + 1 = s.cfg.frameLen) := rfl
  simp [selected_accumulating (s := frameBegun bs s) hc rfl, hgap', hlast]

/-- A byte that does not fill the frame is appended (R128). -/
theorem feedAll_cons_frameBegun {s : State} (hc : s.cfgError = false) {bs : List Byte} {y : Symbol}
    (hgap : gapm s y = false) (hroom : bs.length + 1 < s.cfg.frameLen) (ys : List Symbol) :
    feedAll (y :: ys) (frameBegun bs s) = feedAll ys (frameBegun (bs ++ [y.b]) s) := by
  have hop := selected_frameBegun hc hgap bs
  rw [if_neg hroom.ne] at hop
  refine feedAll_cons_of_effect (inReady_frameBegun hc bs) hop ⟨Nat.lt_of_succ_lt hroom, ?_⟩
    (by simp [frameBegun]) ys
  simp only [frameBegun, Memory.writeAll_append, Memory.writeAll, List.length_append, List.length_singleton,
    Nat.zero_add]
  rfl

/-- The byte that fills the frame leaves it to the internal step (R129). -/
theorem feedAll_last_frameBegun {s : State} (hc : s.cfgError = false) {bs : List Byte} {y : Symbol}
    (hgap : gapm s y = false) (hfull : bs.length + 1 = s.cfg.frameLen) :
    feedAll [y] (frameBegun bs s) = settle (frameHeld (bs ++ [y.b]) s) := by
  have hop := selected_frameBegun hc hgap bs
  rw [if_pos hfull] at hop
  have heff : OpEffect .accLast y (frameBegun bs s) (frameHeld (bs ++ [y.b]) s) := by
    refine ⟨Nat.lt_of_succ_le hfull.le, ?_⟩
    simp only [frameHeld, frameBegun, Memory.writeAll_append, Memory.writeAll, Nat.zero_add]
    rfl
  simp only [feedAll, inReady_frameBegun hc bs, if_true, feed_of_effect (inReady_frameBegun hc bs) hop heff]
  cases settle (frameHeld (bs ++ [y.b]) s) <;> rfl

/-- Bytes without a gap start that complete the frame begun by `bs`. -/
theorem feedAll_frameBegun {s : State} (hc : s.cfgError = false) (y : Symbol) (ys : List Symbol) :
    ∀ {bs : List Byte}, (∀ y' ∈ ys ++ [y], gapm s y' = false) → bs.length + ys.length + 1 = s.cfg.frameLen →
      feedAll (ys ++ [y]) (frameBegun bs s) = settle (frameHeld (bs ++ (ys ++ [y]).map Symbol.b) s) := by
  induction ys with
  | nil =>
    intro bs hgap hlen
    exact feedAll_last_frameBegun hc (hgap y (by simp)) (by simpa using hlen)
  | cons x ys ih =>
    intro bs hgap hlen
    rw [List.length_cons] at hlen
    rw [List.cons_append, feedAll_cons_frameBegun hc (hgap x (by simp)) (by omega),
      ih (fun y' hy' => hgap y' (List.mem_cons_of_mem x hy')) (by simp; omega)]
    simp

/-! ### The internal step on a frame -/

theorem frame_frameHeld {s : State} {bs : List Byte} (hlen : bs.length = s.cfg.frameLen) :
    (frameHeld bs s).frame = bs :=
  frame_of_writeAll rfl rfl hlen

/-- A frame with the right checksum byte is decoded (R131). -/
theorem settle_frameHeld_pass {s : State} {bs : List Byte} {r : Readings} (hc : s.cfgError = false)
    (hlen : bs.length = s.cfg.frameLen) (hsum : checksumOk bs = true) (hread : readFrame s.cfg bs = .ok r) :
    settle (frameHeld bs s) = .next (emit (.readings r) (resync (frameHeld bs s))) := by
  have hframe := frame_frameHeld hlen
  rw [settle_validating (s := frameHeld bs s) hc rfl, hframe, hsum, if_pos rfl, runOperation_eq_next]
  exact ⟨r, hframe.symm ▸ hread, rfl⟩

/-- A frame with a wrong checksum byte is discarded (R132). -/
theorem settle_frameHeld_fail {s : State} {bs : List Byte} (hc : s.cfgError = false)
    (hlen : bs.length = s.cfg.frameLen) (hsum : checksumOk bs = false) :
    settle (frameHeld bs s) = .next (raise .checksum (resync (frameHeld bs s))) := by
  rw [settle_validating (s := frameHeld bs s) hc rfl, frame_frameHeld hlen, hsum, runOperation_eq_next]
  rfl

end Sys2Proof.Machine
end

section
/-! Proof of spec/30_encoding.md, the reference frame: the signature is matched, the bytes after it fill the frame, and
the internal step decodes what `buf` then holds (R70, R71, R124, R126). -/

namespace Sys2Proof

/-! ### Its bytes -/

/-- Bytes 2 to 30 of a reference frame: those between the signature and the checksum byte (R71). -/
def RefFrame.body (fr : RefFrame) : List Byte :=
  [fr.u2, fr.u3, fr.u4,
    rawHigh fr.a, rawLow fr.a, rawHigh fr.b, rawLow fr.b, rawHigh fr.c, rawLow fr.c,
    rawHigh fr.d, rawLow fr.d, rawHigh fr.e, rawLow fr.e, rawHigh fr.f, rawLow fr.f,
    fr.u17, fr.u18, fr.u19, fr.statusHigh ++ fr.r] ++ fr.u21

theorem RefFrame.bytes_eq (fr : RefFrame) : fr.bytes = 0xAA :: 0x55 :: (fr.body ++ [fr.k]) := rfl

theorem RefFrame.length_body {fr : RefFrame} (h : refFrameOk fr = true) : fr.body.length = 29 := by
  have hlen : fr.u21.length = 10 := of_decide_eq_true h
  simp [RefFrame.body, hlen]

theorem RefFrame.length_bytes {fr : RefFrame} (h : refFrameOk fr = true) : fr.bytes.length = 32 := by
  simp [RefFrame.bytes_eq, RefFrame.length_body h]

theorem RefFrame.take_bytes {fr : RefFrame} (h : refFrameOk fr = true) :
    fr.bytes.take 31 = 0xAA :: 0x55 :: fr.body := by
  simp [RefFrame.bytes_eq, ← RefFrame.length_body h]

namespace Machine

/-! ### Feeding it -/

theorem gapm_reference {s : State} (h : s.cfg = referenceCfg) (y : Symbol) : gapm s y = false := by
  simp [gapm, h, referenceCfg]

/-- The first signature byte, with room in the seek window (R124). -/
theorem feedAll_signature_first {s : State} (hcfg : s.cfg = referenceCfg) (hc : s.cfgError = false)
    (hs : s.st = .seekingStart) (hmatch : s.matchLen = 0) (hseek : s.seekCount < 64) (ys : List Symbol) :
    feedAll (⟨0xAA, false⟩ :: ys) s =
      feedAll ys { beginStep s with matchLen := 1, seekCount := s.seekCount + 1 } := by
  have hhit : hit s ⟨0xAA, false⟩ = false := by
    rw [hit, hmatch, hcfg]
    rfl
  have hover : overWindow s = false := by
    rw [overWindow, hcfg, decide_eq_false_iff_not]
    exact Nat.not_lt.2 hseek
  have hmiss : selected s (some (.byte ⟨0xAA, false⟩)) = some .seekMiss := by
    rw [selected_seeking hc hs, gapm_reference hcfg, hhit, hover]
    rfl
  have hnext : nextMatch s 0xAA = 1 := by
    rw [nextMatch, hmatch, hcfg]
    rfl
  rw [feedAll_cons_of_effect (inReady_iff.2 ⟨hc, by simp [hs]⟩) hmiss rfl (by simp [hs]), hnext]

/-- The byte that completes the signature begins the frame (R126). -/
theorem feedAll_signature_second {s : State} (hcfg : s.cfg = referenceCfg) (hc : s.cfgError = false)
    (hs : s.st = .seekingStart) (hmatch : s.matchLen = 1) (ys : List Symbol) :
    feedAll (⟨0x55, false⟩ :: ys) s = feedAll ys (frameBegun [0xAA, 0x55] s) := by
  have hsync : s.cfg.sync = [0xAA, 0x55] := by rw [hcfg]; rfl
  have hhit : hit s ⟨0x55, false⟩ = true := by
    rw [hit, hmatch, hcfg]
    rfl
  have hop : selected s (some (.byte ⟨0x55, false⟩)) = some .seekHit := by
    rw [selected_seeking hc hs, gapm_reference hcfg, hhit]
    rfl
  have heff : OpEffect .seekHit ⟨0x55, false⟩ s (frameBegun [0xAA, 0x55] s) := by
    refine ⟨by rw [hcfg]; decide, ?_⟩
    rw [syncLen, hsync]
    rfl
  exact feedAll_cons_of_effect (inReady_iff.2 ⟨hc, by simp [hs]⟩) hop heff (by simp [frameBegun]) ys

/-- A reference frame leaves the core with its bytes to validate. -/
theorem feedAll_reference {s : State} {fr : RefFrame} (hcfg : s.cfg = referenceCfg) (hc : s.cfgError = false)
    (hs : s.st = .seekingStart) (hmatch : s.matchLen = 0) (hseek : s.seekCount < 64) (h : refFrameOk fr = true) :
    feedAll (plainSymbols fr.bytes) s = settle (frameHeld fr.bytes s) := by
  have hsplit : plainSymbols fr.bytes =
      ⟨0xAA, false⟩ :: ⟨0x55, false⟩ :: (plainSymbols fr.body ++ [⟨fr.k, false⟩]) := by
    simp [RefFrame.bytes_eq, plainSymbols]
  have hbytes : [0xAA, 0x55] ++ (plainSymbols fr.body ++ [(⟨fr.k, false⟩ : Symbol)]).map Symbol.b = fr.bytes := by
    simp [RefFrame.bytes_eq, plainSymbols, Function.comp_def]
  have hlen : [(0xAA : Byte), 0x55].length + (plainSymbols fr.body).length + 1 = s.cfg.frameLen := by
    simp [plainSymbols, RefFrame.length_body h, hcfg, referenceCfg]
  rw [hsplit, feedAll_signature_first hcfg hc hs hmatch hseek,
    feedAll_signature_second (s := { beginStep s with matchLen := 1, seekCount := s.seekCount + 1 }) hcfg hc hs rfl]
  refine (feedAll_frameBegun hc ⟨fr.k, false⟩ (plainSymbols fr.body) (fun y _ => gapm_reference hcfg y) hlen).trans ?_
  rw [hbytes]

/-! ### Decoding it -/

theorem cfgOk_referenceCfg : cfgOk referenceCfg = true := by
  decide

/-- `D.FRAME` reads the fields of the reference frame (R71, R155). -/
theorem readFrame_bytes {fr : RefFrame} (h : refFrameOk fr = true) :
    readFrame referenceCfg fr.bytes = .ok
      { temps := [fr.a, fr.b, fr.c, fr.d, fr.e, fr.f]
        relays := [fr.r.getLsbD 0, fr.r.getLsbD 1, fr.r.getLsbD 2, fr.r.getLsbD 3] } := by
  rw [readFrame_of_cfgOk cfgOk_referenceCfg (RefFrame.length_bytes h)]
  have hstatus : ∀ j < 4, (fr.statusHigh ++ fr.r).getLsbD j = fr.r.getLsbD j := fun j hj => by
    rw [BitVec.getLsbD_append, if_pos hj]
  congr 2
  · change [rawOf (rawHigh fr.a) (rawLow fr.a), rawOf (rawHigh fr.b) (rawLow fr.b), rawOf (rawHigh fr.c) (rawLow fr.c),
      rawOf (rawHigh fr.d) (rawLow fr.d), rawOf (rawHigh fr.e) (rawLow fr.e), rawOf (rawHigh fr.f) (rawLow fr.f)] = _
    simp only [rawOf_rawHigh_rawLow]
  · change (List.range 4).map (fun j => (fr.statusHigh ++ fr.r).getLsbD j) = (List.range 4).map fr.r.getLsbD
    exact List.map_congr_left fun j hj => hstatus j (List.mem_range.1 hj)

theorem checksumOk_bytes {fr : RefFrame} (h : refFrameOk fr = true) :
    checksumOk fr.bytes = (fr.k == sum8 (fr.bytes.take 31)) := by
  rw [RefFrame.take_bytes h, RefFrame.bytes_eq]
  exact checksumOk_concat (0xAA :: 0x55 :: fr.body) fr.k

/-- Settles O33: the frame is held, and the internal step passes or fails it by its checksum byte. -/
theorem referenceFrameDecodesToItsFields : Obligations.ReferenceFrameDecodesToItsFields := by
  intro s fr hcfg hc hs hmatch hseek hwf
  have hlen : fr.bytes.length = s.cfg.frameLen := by
    rw [RefFrame.length_bytes hwf, hcfg]
    rfl
  have hrun : exec (.frameRef fr) s = settle (frameHeld fr.bytes s) := feedAll_reference hcfg hc hs hmatch hseek hwf
  by_cases hsum : fr.k = sum8 (fr.bytes.take 31)
  · have hok : checksumOk fr.bytes = true := (checksumOk_bytes hwf).trans (beq_iff_eq.2 hsum)
    have hread := readFrame_bytes hwf
    rw [← hcfg] at hread
    refine ⟨_, hrun.trans (settle_frameHeld_pass hc hlen hok hread), ?_⟩
    simp [hc, ← hsum]
  · have hbad : checksumOk fr.bytes = false := (checksumOk_bytes hwf).trans (beq_false_of_ne hsum)
    have hwidth : s.cfg.cntW = 32 := by rw [hcfg]; rfl
    refine ⟨_, hrun.trans (settle_frameHeld_fail hc hlen hbad), ?_⟩
    simp [hc, hsum, bump, hwidth]

end Machine
end Sys2Proof
end

section
/-! Proofs of the statements of spec/40_bytesource_interface.md: a byte or a call waits while `in_ready = 0` (R103,
R104), and the start method that is not configured plays no part (R106). -/

namespace Sys2Proof.Machine

/-! ### Inputs that wait -/

/-- What is taken with `in_ready = 0` does not wait, so nothing is where all inputs do (R104, R190). -/
theorem takeInput_of_all_wait {s : State} (hr : s.inReady = false) (hwait : ∀ x ∈ s.input, Input.waits x = true) :
    takeInput s = none := by
  refine Option.eq_none_iff_forall_ne_some.2 fun ⟨x, rest⟩ hin => ?_
  obtain ⟨before, after, hsplit, -, -, -, hready⟩ := takeInput_eq_some hin
  have hx : Input.waits x = true := hwait x (by simp [hsplit])
  exact absurd (hready hx) (by simp [hr])

/-- In `VALIDATING` an input that waits keeps those behind it back too. -/
theorem takeInput_of_validating {s : State} {x : Input} {rest : List Input} (hc : s.cfgError = false)
    (hv : s.st = .validating) (hx : Input.waits x = true) (hin : s.input = x :: rest) : takeInput s = none := by
  simp [takeInput, hc, hv, hx, hin]

/-- Settles O9: nothing is taken, so the internal step runs in `VALIDATING` and none under `cfg_error`. -/
theorem byteWaitsWhileNotReady : Obligations.ByteWaitsWhileNotReady := by
  refine ⟨fun s x rest hc hv hx hin => ?validating, fun s hc hwait => ?cfgError⟩
  case validating =>
    rw [step_of_internal (takeInput_of_validating hc hv hx hin) (selected_validating hc hv), ← exec_withSymbol]
    cases checksumOk s.frame <;> rfl
  case cfgError =>
    have hr : s.inReady = false := by simp [State.inReady, hc]
    exact step_of_idle (takeInput_of_all_wait hr hwait) (.inl hc)

/-- Settles O32: the byte is held. -/
theorem feedWhileNotReadyHoldsTheByte : Obligations.FeedWhileNotReadyHoldsTheByte :=
  fun _ b g hr => feed_of_not_inReady hr ⟨b, g⟩

/-! ### What the start operations are selected by -/

/-- `A.SEEK.HIT` is selected by a hit alone, and `A.SEEK.GAP` and `A.ACC.ABORT` by a gap start alone (R122). -/
theorem start_of_selected_byte {s : State} {y : Symbol} {op : Operation}
    (h : selected s (some (.byte y)) = some op) :
    (op = .seekHit → hit s y = true) ∧ (op = .seekGap ∨ op = .accAbort → gapm s y = true) := by
  by_cases hr : s.inReady = true
  · obtain ⟨hc, hv⟩ := inReady_iff.1 hr
    cases hst : s.st with
    | seekingStart =>
      rw [selected_seeking hc hst, Option.some.injEq] at h
      split_ifs at h <;> subst h <;> simp_all
    | accumulating =>
      rw [selected_accumulating hc hst, Option.some.injEq] at h
      split_ifs at h <;> subst h <;> simp_all
    | validating => exact absurd hst hv
  · have hno : s.cfgError = true ∨ s.st = .validating := by
      rw [inReady_iff, not_and_or, Bool.not_eq_false, not_not] at hr
      exact hr
    rw [selected_byte_not_ready hno] at h
    cases h

theorem gapm_of_sentinel {s : State} (hm : s.cfg.startMode = .sentinel) (y : Symbol) : gapm s y = false := by
  simp [gapm, hm]

theorem hit_of_gap {s : State} (hm : s.cfg.startMode = .gap) (y : Symbol) : hit s y = false := by
  simp [hit, hm]

theorem selected_ne_of_sentinel {s : State} (hm : s.cfg.startMode = .sentinel) (y : Symbol) {op : Operation}
    (hop : op = .seekGap ∨ op = .accAbort) : selected s (some (.byte y)) ≠ some op := by
  intro h
  obtain ⟨-, hgap⟩ := start_of_selected_byte h
  exact absurd (hgap hop) (by simp [gapm_of_sentinel hm])

theorem selected_ne_seekHit_of_gap {s : State} (hm : s.cfg.startMode = .gap) (y : Symbol) :
    selected s (some (.byte y)) ≠ some .seekHit := by
  intro h
  obtain ⟨hhit, -⟩ := start_of_selected_byte h
  exact absurd (hhit rfl) (by simp [hit_of_gap hm])

/-! ### The gap flag in sentinel mode -/

/-- The gap flag enters the dispatch word through `gapm` alone. -/
theorem selected_flag_of_sentinel {s : State} (hm : s.cfg.startMode = .sentinel) (b : Byte) (g g' : Bool) :
    selected s (some (.byte ⟨b, g⟩)) = selected s (some (.byte ⟨b, g'⟩)) := by
  simp only [selected, dispatchWord, onByte, gapm_of_sentinel hm]
  rfl

/-- No effect depends on the gap flag. -/
theorem runOperation_flag (op : Operation) (b : Byte) (g g' : Bool) (s : State) :
    runOperation op ⟨b, g⟩ s = runOperation op ⟨b, g'⟩ s := by
  cases op <;> rfl

theorem feed_flag_of_sentinel {s : State} (hm : s.cfg.startMode = .sentinel) (hr : s.inReady = true) (b : Byte)
    (g g' : Bool) : feed ⟨b, g⟩ s = feed ⟨b, g'⟩ s := by
  obtain ⟨op, hop, -⟩ := selected_byte_of_inReady hr ⟨b, g⟩
  rw [feed_of_selected hr hop, feed_of_selected hr ((selected_flag_of_sentinel hm b g' g).trans hop),
    runOperation_flag op b g g']

/-! ### The signature in gap mode -/

/-- The state with another `SYNC`. -/
def withSync (sync : List Byte) (s : State) : State :=
  { s with cfg := { s.cfg with sync := sync } }

/-- A view commutes with a computation that may fault. -/
theorem mapNext_finish_bind {α : Type} (f : State → State) (x : Except Fault α) (k : α → State) :
    mapNext f (finish (do let a ← x; return k a)) = finish (do let a ← x; return f (k a)) := by
  cases x <;> rfl

/-- A byte write followed by a change that cannot fault. -/
theorem finish_writeByte_withSync (sync : List Byte) (s : State) (i : Nat) (b : Byte) {f : State → State}
    (hf : ∀ u, f (withSync sync u) = withSync sync (f u)) :
    finish (do let u ← writeByte (withSync sync s) i b; return f u) =
      mapNext (withSync sync) (finish (do let u ← writeByte s i b; return f u)) := by
  by_cases hlt : i < s.cfg.frameLen
  · rw [writeByte_of_lt b hlt, writeByte_of_lt (s := withSync sync s) b hlt]
    exact congrArg Host.Outcome.next (hf { s with buf := Memory.write s.buf i b })
  · rw [writeByte_outside b hlt, writeByte_outside (s := withSync sync s) b hlt]
    rfl

theorem selected_withSync {s : State} (hm : s.cfg.startMode = .gap) (sync : List Byte) (ev : Option InEvent) :
    selected (withSync sync s) ev = selected s ev := by
  have hhit : hit (withSync sync s) = hit s :=
    funext fun y => (hit_of_gap (s := withSync sync s) hm y).trans (hit_of_gap hm y).symm
  simp only [selected, dispatchWord, hhit]
  rfl

theorem nextMatch_of_gap {s : State} (hm : s.cfg.startMode = .gap) (b : Byte) : nextMatch s b = 0 := by
  simp only [nextMatch, hm]

/-- Of the effects only `A.SEEK.HIT`'s and `RESET`'s read `SYNC` in gap mode (R126, R210). -/
theorem runOperation_withSync {s : State} (hm : s.cfg.startMode = .gap) (sync : List Byte) {op : Operation}
    (hhit : op ≠ .seekHit) (hreset : op ≠ .reset) (y : Symbol) :
    runOperation op y (withSync sync s) = mapNext (withSync sync) (runOperation op y s) := by
  cases op with
  | seekHit => exact absurd rfl hhit
  | reset => exact absurd rfl hreset
  | tick | valFail => rfl
  | seekMiss =>
    simp only [runOperation, execASeekMiss, nextMatch_of_gap hm, nextMatch_of_gap (s := withSync sync s) hm]
    rfl
  | seekFlush =>
    simp only [runOperation, execASeekFlush, nextMatch_of_gap hm, nextMatch_of_gap (s := withSync sync s) hm]
    rfl
  | seekGap | accStore | accLast | accAbort =>
    exact finish_writeByte_withSync sync (beginStep s) _ y.b fun _ => rfl
  | valPass => exact (mapNext_finish_bind (withSync sync) (readFrame s.cfg s.frame)
      fun r => emit (.readings r) (resync (beginStep s))).symm

theorem settle_withSync {s : State} (hm : s.cfg.startMode = .gap) (sync : List Byte) :
    settle (withSync sync s) = mapNext (withSync sync) (settle s) := by
  have hst : (withSync sync s).st = s.st := rfl
  simp only [settle, hst, selected_withSync hm]
  split
  · split
    · next op hop =>
      have hfit := fits_of_selected hop
      refine runOperation_withSync hm sync ?_ ?_ _
      · rintro rfl
        obtain ⟨-, y, hev⟩ := hfit
        cases hev
      · rintro rfl
        cases hfit
    · rfl
  · rfl

theorem feed_withSync {s : State} (hm : s.cfg.startMode = .gap) (sync : List Byte) (y : Symbol) :
    feed y (withSync sync s) = mapNext (withSync sync) (feed y s) := by
  cases hr : s.inReady with
  | false => rw [feed_of_not_inReady hr, feed_of_not_inReady (s := withSync sync s) hr]; rfl
  | true =>
    obtain ⟨op, hop, hbyte⟩ := selected_byte_of_inReady hr y
    have hhit : op ≠ .seekHit := by rintro rfl; exact selected_ne_seekHit_of_gap hm y hop
    have hreset : op ≠ .reset := by rintro rfl; cases hbyte
    rw [feed_of_selected hr hop, feed_of_selected (s := withSync sync s) hr ((selected_withSync hm sync _).trans hop),
      runOperation_withSync hm sync hhit hreset]
    cases hrun : runOperation op y s with
    | next u =>
      obtain ⟨hcfg, -⟩ := runOperation_keeps hrun
      exact settle_withSync (hcfg ▸ hm) sync
    | fault f => rfl
    | refused r => rfl

/-- Settles O46: in sentinel mode no byte is a gap start, in gap mode none is a hit, and nothing else that a byte
runs reads the flag or `SYNC`. -/
theorem unusedStartMethodIsIgnored : Obligations.UnusedStartMethodIsIgnored := by
  refine ⟨fun s b g g' hm hr => ⟨?flag, ?seekGap, ?accAbort⟩, fun s b g sync hm => ⟨?seekHit, ?sync⟩⟩
  case flag => exact feed_flag_of_sentinel hm hr b g g'
  case seekGap => exact selected_ne_of_sentinel hm ⟨b, g⟩ (.inl rfl)
  case accAbort => exact selected_ne_of_sentinel hm ⟨b, g⟩ (.inr rfl)
  case seekHit => exact selected_ne_seekHit_of_gap hm ⟨b, g⟩
  case sync => exact feed_withSync hm sync ⟨b, g⟩

end Sys2Proof.Machine
end

section
/-! Proofs of the statements of spec/41_frame_assembler.md, the signature matcher: the downward search of `advance`
answers the length of the longest beginning of `SYNC` that ends the matched bytes (R121). -/

namespace Sys2Proof.Machine

/-! ### The search -/

theorem longestOverlap_le (sync w : List Byte) (n k : Nat) : longestOverlap sync w n k ≤ k := by
  induction k with
  | zero => exact Nat.le_refl 0
  | succ k ih =>
    rw [longestOverlap]
    split
    · exact Nat.le_refl _
    · exact Nat.le_succ_of_le ih

/-- The length that the search answers is one that overlaps. -/
theorem drop_longestOverlap (sync w : List Byte) (k : Nat) :
    w.drop (w.length - longestOverlap sync w w.length k) = sync.take (longestOverlap sync w w.length k) := by
  induction k with
  | zero => simp [longestOverlap]
  | succ k ih =>
    rw [longestOverlap]
    split
    · next h => exact h
    · exact ih

/-- No longer one within the search's range overlaps. -/
theorem le_longestOverlap {sync w : List Byte} {n j : Nat} (h : w.drop (n - j) = sync.take j) {k : Nat}
    (hjk : j ≤ k) : j ≤ longestOverlap sync w n k := by
  induction k with
  | zero => exact hjk
  | succ k ih =>
    rw [longestOverlap]
    split
    · exact hjk
    · next hne =>
      have hj : j ≠ k + 1 := by rintro rfl; exact hne h
      exact ih (by omega)

/-- A beginning of `sync` ends `w` exactly where it overlaps in the sense of the search. -/
theorem take_suffix_iff {sync w : List Byte} {k : Nat} (hk : k ≤ sync.length) :
    sync.take k <:+ w ↔ w.drop (w.length - k) = sync.take k := by
  rw [List.suffix_iff_eq_drop, List.length_take_of_le hk, eq_comm]

/-! ### `advance` -/

theorem advance_le (sync : List Byte) (m : Nat) (b : Byte) : advance sync m b ≤ m + 1 :=
  longestOverlap_le ..

/-- The matched bytes followed by `b` begin `SYNC` exactly when `b` is the next signature byte. -/
theorem take_succ_suffix_iff {sync : List Byte} {m : Nat} {b : Byte} (hm : m < sync.length) :
    sync.take (m + 1) <:+ sync.take m ++ [b] ↔ sync[m]? = some b := by
  have hlen : (sync.take m ++ [b]).length = m + 1 := by simp [hm.le]
  rw [take_suffix_iff hm, hlen, Nat.sub_self, List.drop_zero, List.take_add_one, List.append_cancel_left_eq,
    List.getElem?_eq_getElem hm]
  simp [eq_comm]

/-- Settles O22: the search goes down from `m + 1`, the length of the matched bytes followed by `b`. -/
theorem advanceIsTheLongestOverlap : Obligations.AdvanceIsTheLongestOverlap := by
  intro sync m b hm
  have hlen : (sync.take m ++ [b]).length = m + 1 := by simp [hm.le]
  have hle := advance_le sync m b
  have hsuffix : sync.take (advance sync m b) <:+ sync.take m ++ [b] := by
    rw [take_suffix_iff (hle.trans hm), advance, ← hlen]
    exact drop_longestOverlap ..
  have hmax : ∀ k, k ≤ m + 1 → sync.take k <:+ sync.take m ++ [b] → k ≤ advance sync m b := by
    intro k hk hk'
    rw [take_suffix_iff (hk.trans hm), hlen] at hk'
    exact le_longestOverlap hk' hk
  refine ⟨hle, hsuffix, hmax, fun hfull => ?_, fun hb => ?_⟩
  · exact (take_succ_suffix_iff hm).1 (hfull ▸ hsuffix)
  · exact hle.antisymm (hmax _ (Nat.le_refl _) ((take_succ_suffix_iff hm).2 hb))

end Sys2Proof.Machine
end

section
/-! Proofs of the statements of spec/41_frame_assembler.md, the nine operations: when each is selected (R80, R122), and
its effect, with what `buf` then reads (R124 to R132). -/

namespace Sys2Proof.Machine

/-! ### Selection by a byte -/

/-- The operation a byte selects, by the assembler state; none where `in_ready = 0` (R80, R83). -/
theorem selected_byte_iff {s : State} {y : Symbol} {op : Operation} :
    selected s (some (.byte y)) = some op ↔ s.cfgError = false ∧
      (s.st = .seekingStart ∧ (if gapm s y then .seekGap else if hit s y then .seekHit
          else if overWindow s then .seekFlush else .seekMiss) = op ∨
        s.st = .accumulating ∧
          (if gapm s y then .accAbort else if lastByte s then .accLast else .accStore) = op) := by
  by_cases hr : s.cfgError = true ∨ s.st = .validating
  · rw [selected_byte_not_ready hr]
    rcases hr with hc | hv
    · simp [hc]
    · simp [hv]
  · simp only [not_or, Bool.not_eq_true] at hr
    obtain ⟨hc, hv⟩ := hr
    cases hst : s.st with
    | seekingStart => simp [selected_seeking hc hst, hc]
    | accumulating => simp [selected_accumulating hc hst, hc]
    | validating => exact absurd hst hv

theorem overWindow_eq_false {s : State} : overWindow s = false ↔ s.seekCount + 1 ≤ s.cfg.seekWindow := by
  simp [overWindow]

theorem overWindow_eq_true {s : State} : overWindow s = true ↔ s.cfg.seekWindow < s.seekCount + 1 := by
  simp [overWindow]

theorem lastByte_eq_true {s : State} : lastByte s = true ↔ s.count + 1 = s.cfg.frameLen := by
  simp [lastByte]

theorem gapm_eq_true {s : State} {y : Symbol} : gapm s y = true ↔ s.cfg.startMode = .gap ∧ y.g = true := by
  simp [gapm]

theorem hit_eq_true {s : State} {y : Symbol} : hit s y = true ↔
    s.cfg.startMode = .sentinel ∧ advance s.cfg.sync s.matchLen y.b = s.cfg.sync.length := by
  simp [hit, syncLen]

/-- A hit is in sentinel mode, so it is no gap start (R122). -/
theorem gapm_of_hit {s : State} {y : Symbol} (h : hit s y = true) : gapm s y = false :=
  gapm_of_sentinel (hit_eq_true.1 h).1 y

theorem selected_seekMiss_iff {s : State} {y : Symbol} : selected s (some (.byte y)) = some .seekMiss ↔
    s.cfgError = false ∧ s.st = .seekingStart ∧ gapm s y = false ∧ hit s y = false ∧
      s.seekCount + 1 ≤ s.cfg.seekWindow := by
  rw [selected_byte_iff, ← overWindow_eq_false]
  simp [ite_eq_iff]

theorem selected_seekFlush_iff {s : State} {y : Symbol} : selected s (some (.byte y)) = some .seekFlush ↔
    s.cfgError = false ∧ s.st = .seekingStart ∧ gapm s y = false ∧ hit s y = false ∧
      s.cfg.seekWindow < s.seekCount + 1 := by
  rw [selected_byte_iff, ← overWindow_eq_true]
  simp [ite_eq_iff]

theorem selected_seekHit_iff {s : State} {y : Symbol} : selected s (some (.byte y)) = some .seekHit ↔
    s.cfgError = false ∧ s.st = .seekingStart ∧ hit s y = true := by
  rw [selected_byte_iff]
  simp only [ite_eq_iff, reduceCtorEq, and_false, and_true, false_or, or_false, Bool.not_eq_true]
  exact ⟨fun ⟨hc, hs, _, hh⟩ => ⟨hc, hs, hh⟩, fun ⟨hc, hs, hh⟩ => ⟨hc, hs, gapm_of_hit hh, hh⟩⟩

theorem selected_seekGap_iff {s : State} {y : Symbol} : selected s (some (.byte y)) = some .seekGap ↔
    s.cfgError = false ∧ s.st = .seekingStart ∧ gapm s y = true := by
  rw [selected_byte_iff]
  simp [ite_eq_iff]

theorem selected_accStore_iff {s : State} {y : Symbol} : selected s (some (.byte y)) = some .accStore ↔
    s.cfgError = false ∧ s.st = .accumulating ∧ gapm s y = false ∧ s.count + 1 ≠ s.cfg.frameLen := by
  rw [selected_byte_iff, Ne, ← lastByte_eq_true]
  simp [ite_eq_iff]

theorem selected_accLast_iff {s : State} {y : Symbol} : selected s (some (.byte y)) = some .accLast ↔
    s.cfgError = false ∧ s.st = .accumulating ∧ gapm s y = false ∧ s.count + 1 = s.cfg.frameLen := by
  rw [selected_byte_iff, ← lastByte_eq_true]
  simp [ite_eq_iff]

theorem selected_accAbort_iff {s : State} {y : Symbol} : selected s (some (.byte y)) = some .accAbort ↔
    s.cfgError = false ∧ s.st = .accumulating ∧ gapm s y = true := by
  rw [selected_byte_iff]
  simp [ite_eq_iff]

/-! ### Selection of the internal step -/

theorem selected_none_iff {s : State} {op : Operation} : selected s none = some op ↔
    s.cfgError = false ∧ s.st = .validating ∧ (if checksumOk s.frame then .valPass else .valFail) = op := by
  cases hc : s.cfgError with
  | true => simp [(selected_cfgError hc).1]
  | false =>
    by_cases hs : s.st = .validating
    · simp [selected_validating hc hs, hs]
    · simp [(selected_idle hc hs).1, hs]

/-- The checksum test on the bytes of `buf` (R70, R74). -/
theorem checksumOk_frame_iff {s : State} (h : 1 ≤ s.cfg.frameLen) : checksumOk s.frame = true ↔
    s.bufByte (s.cfg.frameLen - 1) = sum8 ((List.range (s.cfg.frameLen - 1)).map s.bufByte) := by
  have hlast : s.frame[s.cfg.frameLen - 1]? = some (s.bufByte (s.cfg.frameLen - 1)) := by
    simp [State.frame, Nat.lt_of_succ_le h]
  have htake : s.frame.take (s.cfg.frameLen - 1) = (List.range (s.cfg.frameLen - 1)).map s.bufByte := by
    simp [State.frame, ← List.map_take, List.take_range]
  simp [checksumOk, hlast, htake]

/-! ### The effects -/

/-- A dispatched operation has a next state with a property where its effect has. -/
theorem hasNext_of_effect {op : Operation} {y : Symbol} {s t : State} {p : State → Prop} (heff : OpEffect op y s t)
    (hp : p t) : HasNext (exec (op.withSymbol y) s) p :=
  ⟨t, (exec_withSymbol op y s).trans (runOperation_eq_next.2 heff), hp⟩

/-- The bytes of `buf` after one byte was written. -/
theorem bufByte_of_write {s t : State} {i : Nat} {b : Byte} (hbuf : t.buf = Memory.write s.buf i b)
    (hepoch : t.bufEpoch = s.bufEpoch) (a : Nat) : t.bufByte a = if a = i then b else s.bufByte a := by
  simp only [State.bufByte, hbuf, hepoch, Memory.lookup_write]
  split_ifs <;> rfl

theorem frame_getD {s : State} {i : Nat} (h : i < s.cfg.frameLen) (b : Byte) : s.frame.getD i b = s.bufByte i := by
  simp [State.frame, h]

/-! ### The obligations -/

/-- Settles O13: the effect is the pseudocode's on every state (log 14). -/
theorem seekMissResult : Obligations.SeekMissResult :=
  fun _ _ _ => ⟨selected_seekMiss_iff, rfl⟩

/-- Settles O14: the effect is the pseudocode's on every state (log 14). -/
theorem seekFlushResult : Obligations.SeekFlushResult :=
  fun _ _ _ => ⟨selected_seekFlush_iff, rfl⟩

/-- Settles O15: the signature is written from index 0 on. -/
theorem seekHitResult : Obligations.SeekHitResult := by
  intro s b
  refine ⟨fun g => ?selection, fun hfits => ?effect⟩
  case selection => rw [selected_seekHit_iff, hit_eq_true]
  case effect =>
    exact hasNext_of_effect (op := .seekHit) (y := ⟨b, false⟩) ⟨hfits, rfl⟩ ⟨rfl, bufByte_of_writeAll rfl rfl⟩

/-- Settles O16: index 0 is in the frame space. -/
theorem seekGapResult : Obligations.SeekGapResult := by
  intro s b
  refine ⟨fun g => ?selection, fun hlen => ?effect⟩
  case selection => rw [selected_seekGap_iff, gapm_eq_true]
  case effect =>
    exact hasNext_of_effect (op := .seekGap) (y := ⟨b, true⟩) ⟨hlen, rfl⟩ ⟨rfl, bufByte_of_write rfl rfl⟩

/-- Settles O17: index `count` is in the frame space. -/
theorem accStoreResult : Obligations.AccStoreResult :=
  fun _ b => ⟨fun _ => selected_accStore_iff, fun hroom =>
    hasNext_of_effect (op := .accStore) (y := ⟨b, false⟩) ⟨hroom, rfl⟩ ⟨rfl, bufByte_of_write rfl rfl⟩⟩

/-- Settles O18: in `VALIDATING` no byte is accepted. -/
theorem accLastResult : Obligations.AccLastResult := by
  intro s b
  refine ⟨fun g => selected_accLast_iff, fun hroom => ?_⟩
  refine hasNext_of_effect (op := .accLast) (y := ⟨b, false⟩) ⟨hroom, rfl⟩ ⟨rfl, ?_, bufByte_of_write rfl rfl⟩
  simp [State.inReady]

/-- Settles O19: a gap start goes before the test whether the frame is full. -/
theorem accAbortResult : Obligations.AccAbortResult := by
  intro s b
  refine ⟨fun g => ?selection, fun hlen => ?effect⟩
  case selection => rw [selected_accAbort_iff, gapm_eq_true]
  case effect =>
    exact hasNext_of_effect (op := .accAbort) (y := ⟨b, true⟩) ⟨hlen, rfl⟩ ⟨rfl, bufByte_of_write rfl rfl⟩

/-- Settles O20: the decoded bytes lie below `FRAME_LEN`, so the readings are those of `buf`. -/
theorem valPassResult : Obligations.ValPassResult := by
  intro s
  refine ⟨fun hlen => ?selection, fun hok => ?effect⟩
  case selection =>
    rw [selected_none_iff, ← checksumOk_frame_iff hlen]
    simp
  case effect =>
    obtain ⟨htemp, hrelay⟩ := offsets_of_cfgOk hok
    obtain ⟨hlen, -⟩ := sizes_of_cfgOk hok
    have hread := readFrame_of_cfgOk hok (frame_length s)
    refine ⟨_, (runOperation_eq_next (op := .valPass) (y := ⟨0, false⟩)).2 ⟨_, hread, rfl⟩, ?temps, ?relays⟩
    case temps =>
      refine List.map_congr_left fun i _ => ?_
      have hi := htemp i
      rw [frame_getD (by omega), frame_getD (by omega)]
      rfl
    case relays => rw [frame_getD (by omega)]

/-- Settles O21: the other branch of the checksum test. -/
theorem valFailResult : Obligations.ValFailResult := by
  intro s
  refine ⟨fun hlen => ?_, rfl⟩
  rw [selected_none_iff, Ne, ← checksumOk_frame_iff hlen]
  simp

end Sys2Proof.Machine
end

section
/-! Proof of the invariant of spec/41_frame_assembler.md R133: each clause is kept by the effect of a selected operation,
and a step, a host's call included, is a sequence of selected operations. -/

namespace Sys2Proof.Machine

/-! ### What a step keeps -/

/-- A property of states that selected operations keep, and that does not depend on the model's own fields that a step
changes besides: the pending inputs, the record of the step before, and a host's function value. -/
structure KeptByOperations (P : State → Prop) : Prop where
  /-- Taking an input away. -/
  takeAway : ∀ {s}, P s → ∀ rest, P { s with input := rest }
  /-- Clearing the record of the step before. -/
  begin : ∀ {s}, P s → P (beginStep s)
  /-- Keeping a decoder function's value (log 10). -/
  value : ∀ {s}, P s → ∀ v, P (returnValue v s)
  /-- Running an operation that the dispatch word selects, with the symbol of its event. -/
  run : ∀ {s t op y ev}, P s → selected s ev = some op → (op.takesByte = true → ev = some (.byte y)) →
    OpEffect op y s t → P t

section
variable {P : State → Prop} {s t : State}

theorem KeptByOperations.settle (K : KeptByOperations P) (hs : P s) (h : settle s = .next t) : P t := by
  unfold Machine.settle at h
  split at h
  · split at h
    · next op hop =>
      have hplain := takesByte_of_selected_none hop
      exact K.run hs hop (by simp [hplain]) (runOperation_eq_next.1 h)
    · cases h; exact hs
  · cases h; exact hs

theorem KeptByOperations.feed (K : KeptByOperations P) (hs : P s) (hr : s.inReady = true) {y : Symbol}
    (h : feed y s = .next t) : P t := by
  obtain ⟨op, hop, -⟩ := selected_byte_of_inReady hr y
  rw [feed_of_selected hr hop] at h
  obtain ⟨u, hu, ht⟩ := andThen_eq_next h
  exact K.settle (K.run hs hop (fun _ => rfl) (runOperation_eq_next.1 hu)) ht

theorem KeptByOperations.feedAll (K : KeptByOperations P) (ys : List Symbol) : ∀ {s : State}, P s →
    s.inReady = true → feedAll ys s = .next t → P t := by
  induction ys with
  | nil => intro s hs _ h; cases h; exact hs
  | cons y ys ih =>
    intro s hs hr h
    simp only [Machine.feedAll, hr, if_true] at h
    obtain ⟨u, hu, ht⟩ := andThen_eq_next h
    obtain ⟨-, -, -, hready⟩ := feed_keeps hr hu
    exact ih (K.feed hs hr hu) hready ht

/-- A decoder function that the host evaluates. -/
theorem KeptByOperations.finishValue (K : KeptByOperations P) (hs : P s) {α : Type} {x : Except Fault α}
    {f : α → FuncResult} (h : finish (do let a ← x; return returnValue (f a) s) = .next t) : P t := by
  obtain ⟨a, -, rfl⟩ := finish_bind_eq_next.1 h
  exact K.value hs (f a)

/-- The operations that a host may call. -/
theorem KeptByOperations.exec (K : KeptByOperations P) (hs : P s) (hr : s.inReady = true) {i : Instr}
    (hc : callable i = true) (h : exec i s = .next t) : P t := by
  cases i with
  | dXor v => cases h; exact K.value hs _
  | dTemp | dFrame => exact K.finishValue hs h
  | dRelay frame j =>
    simp only [Machine.exec, execDRelay] at h
    split at h
    · exact K.finishValue hs h
    · exact K.finishValue (x := .error _) hs h
  | pFeed b g => exact K.feed hs hr h
  | pPoll bs => exact K.feedAll bs (K.begin hs) hr h
  | frameRef fr => exact K.feedAll _ hs hr h
  | _ => cases hc

theorem KeptByOperations.step (K : KeptByOperations P) (hs : P s) (h : step s = .next t) : P t := by
  rcases step_cases h with ⟨code, rest, i, -, hr, -, hc, hrun⟩ | ⟨e, rest, op, y, -, hop, hy, hrun⟩ |
    ⟨op, -, -, -, hop, hrun⟩ | ⟨-, -, rfl⟩
  · exact K.exec (K.takeAway hs rest) hr hc hrun
  · refine K.run (s := { s with input := rest }) (K.takeAway hs rest) hop (fun hb => ?_) (runOperation_eq_next.1 hrun)
    exact congrArg some (hy hb)
  · have hplain := takesByte_of_selected_none hop
    exact K.run hs hop (by simp [hplain]) (runOperation_eq_next.1 hrun)
  · exact K.begin hs

end

/-! ### The clauses of the invariant -/

/-- In `ACCUMULATING` the clause of R23 is a pair of bounds. -/
theorem countInv_of_accumulating {t : State} (hst : t.st = .accumulating)
    (h : max 1 (syncLen t.cfg) ≤ t.count ∧ t.count + 1 ≤ t.cfg.frameLen) : CountInv t :=
  ⟨fun hs => (nomatch hst.symm.trans hs), fun _ => h, fun hv => nomatch hst.symm.trans hv⟩

theorem syncLen_of_gapm {s : State} {y : Symbol} (hok : cfgOk s.cfg = true) (h : gapm s y = true) :
    syncLen s.cfg = 0 := by
  rw [syncLen, sync_of_cfgOk_gap hok (gapm_eq_true.1 h).1, List.length_nil]

/-- The first byte of a frame in gap mode, where the signature is empty. -/
theorem countInv_of_gapm {s t : State} {y : Symbol} (hok : cfgOk s.cfg = true) (h : gapm s y = true)
    (hcfg : t.cfg = s.cfg) (hst : t.st = .accumulating) (hcount : t.count = 1) : CountInv t := by
  obtain ⟨hlen, -⟩ := sizes_of_cfgOk hok
  refine countInv_of_accumulating hst ?_
  rw [hcfg, hcount, syncLen_of_gapm hok h]
  exact ⟨Nat.le_refl 1, hlen⟩

/-- R23. -/
theorem countInv_of_effect {op : Operation} {y : Symbol} {s t : State}
    (hok : op ≠ .reset → op ≠ .tick → cfgOk s.cfg = true)
    (hsel : op.takesByte = true → selected s (some (.byte y)) = some op) (h : CountInv s)
    (heff : OpEffect op y s t) : CountInv t := by
  cases op with
  | reset | valFail => obtain rfl := heff; exact ⟨fun _ => rfl, nofun, nofun⟩
  | valPass => obtain ⟨r, -, rfl⟩ := heff; exact ⟨fun _ => rfl, nofun, nofun⟩
  | tick | seekMiss | seekFlush => obtain rfl := heff; exact h
  | seekHit =>
    obtain ⟨-, rfl⟩ := heff
    obtain ⟨-, -, hhit⟩ := selected_seekHit_iff.1 (hsel rfl)
    obtain ⟨hpos, hlt⟩ := sync_of_cfgOk_sentinel (hok nofun nofun) (hit_eq_true.1 hhit).1
    exact countInv_of_accumulating rfl ⟨max_le hpos (Nat.le_refl _), hlt⟩
  | seekGap =>
    obtain ⟨-, rfl⟩ := heff
    obtain ⟨-, -, hgap⟩ := selected_seekGap_iff.1 (hsel rfl)
    exact countInv_of_gapm (hok nofun nofun) hgap rfl rfl rfl
  | accAbort =>
    obtain ⟨-, rfl⟩ := heff
    obtain ⟨-, hst, hgap⟩ := selected_accAbort_iff.1 (hsel rfl)
    exact countInv_of_gapm (hok nofun nofun) hgap rfl hst rfl
  | accStore =>
    obtain ⟨-, rfl⟩ := heff
    obtain ⟨-, hst, -, hnotLast⟩ := selected_accStore_iff.1 (hsel rfl)
    obtain ⟨-, hacc, -⟩ := h
    obtain ⟨hlow, hhigh⟩ := hacc hst
    exact countInv_of_accumulating hst ⟨Nat.le_succ_of_le hlow, Nat.lt_of_le_of_ne hhigh hnotLast⟩
  | accLast => obtain ⟨-, rfl⟩ := heff; exact ⟨nofun, nofun, fun _ => rfl⟩

/-- The match progress stays below `SYNC_LEN` where the byte completes no signature (R24). -/
theorem nextMatch_le {s : State} {y : Symbol} (hok : cfgOk s.cfg = true) (hm : s.matchLen ≤ syncLen s.cfg - 1)
    (hhit : hit s y = false) : nextMatch s y.b ≤ syncLen s.cfg - 1 := by
  cases hmode : s.cfg.startMode with
  | gap => rw [nextMatch_of_gap hmode]; exact Nat.zero_le _
  | sentinel =>
    obtain ⟨hpos, -⟩ := sync_of_cfgOk_sentinel hok hmode
    have hne : advance s.cfg.sync s.matchLen y.b ≠ syncLen s.cfg := by simpa [hit, hmode] using hhit
    have hle := advance_le s.cfg.sync s.matchLen y.b
    simp only [nextMatch, hmode]
    omega

/-- R24 and R25. -/
theorem seekInv_of_effect {op : Operation} {y : Symbol} {s t : State}
    (hok : op ≠ .reset → op ≠ .tick → cfgOk s.cfg = true)
    (hsel : op.takesByte = true → selected s (some (.byte y)) = some op) (h : SeekInv s)
    (heff : OpEffect op y s t) : SeekInv t := by
  obtain ⟨hmatch, hseek, hzero⟩ := h
  cases op with
  | reset | valFail => obtain rfl := heff; exact ⟨Nat.zero_le _, Nat.zero_le _, fun _ => ⟨rfl, rfl⟩⟩
  | valPass => obtain ⟨r, -, rfl⟩ := heff; exact ⟨Nat.zero_le _, Nat.zero_le _, fun _ => ⟨rfl, rfl⟩⟩
  | seekHit => obtain ⟨-, rfl⟩ := heff; exact ⟨Nat.zero_le _, Nat.zero_le _, fun _ => ⟨rfl, rfl⟩⟩
  | tick => obtain rfl := heff; exact ⟨hmatch, hseek, hzero⟩
  | seekMiss =>
    obtain rfl := heff
    obtain ⟨-, hst, -, hhit, hroom⟩ := selected_seekMiss_iff.1 (hsel rfl)
    exact ⟨nextMatch_le (hok nofun nofun) hmatch hhit, hroom, fun hne => absurd hst hne⟩
  | seekFlush =>
    obtain rfl := heff
    obtain ⟨-, hst, -, hhit, -⟩ := selected_seekFlush_iff.1 (hsel rfl)
    exact ⟨nextMatch_le (hok nofun nofun) hmatch hhit, Nat.zero_le _, fun hne => absurd hst hne⟩
  | seekGap =>
    obtain ⟨-, rfl⟩ := heff
    obtain ⟨-, -, hgap⟩ := selected_seekGap_iff.1 (hsel rfl)
    have hnone : s.matchLen = 0 := by rw [syncLen_of_gapm (hok nofun nofun) hgap] at hmatch; omega
    exact ⟨hmatch, Nat.zero_le _, fun _ => ⟨hnone, rfl⟩⟩
  | accStore =>
    obtain ⟨-, rfl⟩ := heff
    exact ⟨hmatch, hseek, hzero⟩
  | accLast =>
    obtain ⟨-, rfl⟩ := heff
    obtain ⟨-, hst, -⟩ := selected_accLast_iff.1 (hsel rfl)
    exact ⟨hmatch, hseek, fun _ => hzero (by simp [hst])⟩
  | accAbort =>
    obtain ⟨-, rfl⟩ := heff
    obtain ⟨-, hst, -⟩ := selected_accAbort_iff.1 (hsel rfl)
    obtain ⟨hnone, -⟩ := hzero (by simp [hst])
    exact ⟨hmatch, Nat.zero_le _, fun _ => ⟨hnone, rfl⟩⟩

/-- R31 and R32. -/
theorem countersFit_of_effect {op : Operation} {y : Symbol} {s t : State} (h : CountersFit s)
    (heff : OpEffect op y s t) : CountersFit t := by
  by_cases hreset : op = .reset
  · subst hreset
    obtain rfl := heff
    exact ⟨Nat.two_pow_pos _, Nat.two_pow_pos _⟩
  · obtain ⟨hf, hc⟩ := heff.counters hreset
    obtain ⟨hcfg, -⟩ := runOperation_keeps (runOperation_eq_next.2 heff)
    obtain ⟨hfit, hfit'⟩ := h
    rw [CountersFit, hf, hc, hcfg]
    exact ⟨by split <;> [exact bump_lt ..; exact hfit], by split <;> [exact bump_lt ..; exact hfit']⟩

/-- The clause on `buf`, on the memory alone: its form, its place, and that the first `k` bytes are written. -/
def HoldsBelow (n k : Nat) (m : Memory) : Prop :=
  Memory.wf m = true ∧ Memory.within n m = true ∧ ∀ i, i < k → (Memory.lookup m i).isSome = true

theorem bufInv_iff (s : State) : BufInv s ↔ HoldsBelow s.cfg.frameLen s.count s.buf := Iff.rfl

/-- A discarded partial frame: nothing need be written any more. -/
theorem HoldsBelow.discard {n k : Nat} {m : Memory} (h : HoldsBelow n k m) : HoldsBelow n 0 m := by
  obtain ⟨hwf, hin, -⟩ := h
  exact ⟨hwf, hin, fun i hi => absurd hi (Nat.not_lt_zero i)⟩

theorem HoldsBelow.write {n k : Nat} {m : Memory} (h : HoldsBelow n k m) (hk : k < n) (b : Byte) :
    HoldsBelow n (k + 1) (Memory.write m k b) := by
  obtain ⟨hwf, hin, hwritten⟩ := h
  refine ⟨Memory.write_wf k b hwf, Memory.write_within b hk hin, fun i hi => ?_⟩
  rw [Memory.lookup_write]
  split
  · rfl
  · exact hwritten i (by omega)

theorem HoldsBelow.writeAll {n : Nat} (bs : List Byte) : ∀ {k : Nat} {m : Memory}, HoldsBelow n k m →
    k + bs.length ≤ n → HoldsBelow n (k + bs.length) (Memory.writeAll m k bs) := by
  induction bs with
  | nil => exact fun h _ => h
  | cons b bs ih =>
    intro k m h hfits
    have hlen : k + (b :: bs).length = k + 1 + bs.length := by simp only [List.length_cons]; omega
    rw [hlen] at hfits ⊢
    exact ih (h.write (by omega) b) hfits

/-- R22 and R23, the bytes of the partial frame. -/
theorem bufInv_of_effect {op : Operation} {y : Symbol} {s t : State}
    (hsel : op.takesByte = true → selected s (some (.byte y)) = some op) (h : BufInv s)
    (heff : OpEffect op y s t) : BufInv t := by
  rw [bufInv_iff] at h ⊢
  cases op with
  | reset => obtain rfl := heff; exact ⟨rfl, rfl, fun i hi => absurd hi (Nat.not_lt_zero i)⟩
  | tick | seekMiss | seekFlush => obtain rfl := heff; exact h
  | valFail => obtain rfl := heff; exact h.discard
  | valPass => obtain ⟨r, -, rfl⟩ := heff; exact h.discard
  | seekHit =>
    obtain ⟨hfits, rfl⟩ := heff
    have hsync := h.discard.writeAll s.cfg.sync (by rwa [Nat.zero_add])
    rwa [Nat.zero_add] at hsync
  | seekGap | accAbort => obtain ⟨hlen, rfl⟩ := heff; exact h.discard.write hlen y.b
  | accStore => obtain ⟨hroom, rfl⟩ := heff; exact h.write hroom y.b
  | accLast =>
    obtain ⟨hroom, rfl⟩ := heff
    obtain ⟨-, -, -, hlast⟩ := selected_accLast_iff.1 (hsel rfl)
    have hfull := h.write hroom y.b
    rwa [hlast] at hfull

/-! ### The invariant -/

/-- R28 and R190: only `RESET` writes `cfg_error`, and under it only `RESET` and `TICK` are selected, which emit
nothing. -/
theorem inertUnderError_of_effect {op : Operation} {y : Symbol} {s t : State} (hagree : CfgErrorAgrees s)
    (hok : op ≠ .reset → op ≠ .tick → cfgOk s.cfg = true) (h : InertUnderError s) (heff : OpEffect op y s t) :
    CfgErrorAgrees t ∧ InertUnderError t := by
  by_cases hreset : op = .reset
  · subst hreset
    obtain rfl := heff
    refine ⟨rfl, fun herr => ?_⟩
    obtain ⟨-, -, -, -, -, -, htrace⟩ := h (hagree.trans herr)
    exact ⟨rfl, rfl, rfl, rfl, rfl, rfl, htrace⟩
  · obtain ⟨hcfg, -, -, hce⟩ := runOperation_keeps (runOperation_eq_next.2 heff)
    have hce := hce hreset
    refine ⟨by rw [CfgErrorAgrees, hce, hcfg, hagree], ?_⟩
    by_cases htick : op = .tick
    · subst htick
      obtain rfl := heff
      exact h
    · have hno : t.cfgError = false := by rw [hce, hagree, hok hreset htick]; rfl
      exact fun herr => nomatch hno.symm.trans herr

theorem inv_keptByOperations : KeptByOperations Inv where
  takeAway h _ := h
  begin h := h
  value h _ := h
  run := by
    intro s t op y ev h hsel hy heff
    obtain ⟨hagree, hinert, hcount, hseek, hfit, hbuf⟩ := h
    have hok := cfgOk_of_selected hagree hsel
    have hbyte : op.takesByte = true → selected s (some (.byte y)) = some op := fun hb => hy hb ▸ hsel
    obtain ⟨hagree', hinert'⟩ := inertUnderError_of_effect hagree hok hinert heff
    exact ⟨hagree', hinert', countInv_of_effect hok hbyte hcount heff, seekInv_of_effect hok hbyte hseek heff,
      countersFit_of_effect hfit heff, bufInv_of_effect hbyte hbuf heff⟩

/-- Settles O35: every operation that a step or a host's call runs keeps the clauses, and `RESET` establishes those of
R23, R24 and R25 whatever held before. -/
theorem stepKeepsTheInvariant : Obligations.StepKeepsTheInvariant := by
  refine ⟨fun s t hinv h => inv_keptByOperations.step hinv h, fun s => ?_⟩
  have hcount : CountInv { clearCore s with cfgError := !cfgOk s.cfg } := ⟨fun _ => rfl, nofun, nofun⟩
  have hseek : SeekInv { clearCore s with cfgError := !cfgOk s.cfg } :=
    ⟨Nat.zero_le _, Nat.zero_le _, fun _ => ⟨rfl, rfl⟩⟩
  exact ⟨_, execReset_eq s, hcount, hseek⟩

end Sys2Proof.Machine
end

section
/-! Proofs of the statements of spec/42_frame_decoder.md: the value of each decoder function (R151 to R155), the stops on
other operands (log 12), and what the readings depend on (R159). -/

namespace Sys2Proof.Machine

/-! ### The operands of the decoder functions -/

/-- R76: masking a byte twice gives it back. -/
theorem xorTransform_xorTransform (cfg : Cfg) (v : Byte) : xorTransform cfg (xorTransform cfg v) = v := by
  cases h : cfg.xorEn with
  | false => simp [xorTransform, h]
  | true => simp [xorTransform, h]

/-- R152: two's complement, as arithmetic on the raw value. -/
theorem tempValue_eq (cfg : Cfg) (raw : Raw) : tempValue cfg raw =
    if cfg.tempSigned = true ∧ 32768 ≤ raw.toNat then (raw.toNat : Int) - 65536 else (raw.toNat : Int) := by
  cases h : cfg.tempSigned with
  | false => simp [tempValue, h]
  | true =>
    simp only [tempValue, h, true_and, if_true, BitVec.toInt_eq_toNat_cond]
    split <;> split <;> omega

theorem memRead1_of_getElem? {frame : List Byte} {a : Nat} {b : Byte} (h : frame[a]? = some b) :
    memRead1 frame a = .ok b := by
  rw [memRead1, h]

theorem memRead1_congr {frame frame' : List Byte} {a : Nat} (h : frame[a]? = frame'[a]?) :
    memRead1 frame a = memRead1 frame' a := by
  rw [memRead1, h, memRead1]

/-- The read of a relay bit is the read of the status byte (R154). -/
theorem readRelay_of_read {cfg : Cfg} {frame : List Byte} {status : Byte}
    (h : memRead1 frame cfg.relayOffset = .ok status) (j : Nat) :
    readRelay cfg frame j = .ok ((xorTransform cfg status).getLsbD j) := by
  rw [readRelay, h, ← relayBit_eq]
  rfl

theorem readTemp_congr {cfg : Cfg} {frame frame' : List Byte} {i : Fin 6}
    (hhi : frame[cfg.tempOffset[i]]? = frame'[cfg.tempOffset[i]]?)
    (hlo : frame[cfg.tempOffset[i] + 1]? = frame'[cfg.tempOffset[i] + 1]?) :
    readTemp cfg frame i = readTemp cfg frame' i := by
  rw [readTemp, memRead1_congr hhi, memRead1_congr hlo, readTemp]

theorem readRelay_congr {cfg : Cfg} {frame frame' : List Byte}
    (h : frame[cfg.relayOffset]? = frame'[cfg.relayOffset]?) (j : Nat) :
    readRelay cfg frame j = readRelay cfg frame' j := by
  rw [readRelay, memRead1_congr h, readRelay]

/-! ### The readings, field by field -/

/-- A list of reads succeeds only if each of them does, and its value lists their values. -/
theorem forall₂_of_mapM_eq_ok {α β : Type} {f : α → Except Fault β} : ∀ {xs : List α} {ys : List β},
    xs.mapM f = .ok ys → List.Forall₂ (fun x y => f x = .ok y) xs ys
  | [], ys, h => by cases h; exact .nil
  | x :: xs, ys, h => by
    rw [List.mapM_cons] at h
    cases hx : f x with
    | error e => rw [hx] at h; cases h
    | ok y =>
      cases hxs : xs.mapM f with
      | error e => rw [hx, hxs] at h; cases h
      | ok zs =>
        rw [hx, hxs] at h
        cases h
        exact .cons hx (forall₂_of_mapM_eq_ok hxs)

/-- What two lists in relation hold at an index of the first. -/
theorem getElem?_of_forall₂ {α β : Type} {R : α → β → Prop} {xs : List α} {ys : List β} (h : List.Forall₂ R xs ys)
    {n : Nat} {x : α} (hx : xs[n]? = some x) : ∃ y, ys[n]? = some y ∧ R x y := by
  obtain ⟨hn, rfl⟩ := List.getElem?_eq_some_iff.1 hx
  exact ⟨_, List.getElem?_eq_getElem (h.length_eq ▸ hn), h.get hn (h.length_eq ▸ hn)⟩

/-- All that `D.FRAME` can answer: the reads of the single fields, in index order (R155). -/
theorem reads_of_readFrame_eq_ok {cfg : Cfg} {frame : List Byte} {r : Readings} (h : readFrame cfg frame = .ok r) :
    List.Forall₂ (fun i raw => readTemp cfg frame i = .ok raw) (List.finRange 6) r.temps ∧
    List.Forall₂ (fun j bit => readRelay cfg frame j = .ok bit) (List.range cfg.nRelays) r.relays := by
  rw [readFrame] at h
  cases htemps : (List.finRange 6).mapM (readTemp cfg frame) with
  | error e => rw [htemps] at h; cases h
  | ok temps =>
    cases hrelays : (List.range cfg.nRelays).mapM (readRelay cfg frame) with
    | error e => rw [htemps, hrelays] at h; cases h
    | ok relays =>
      rw [htemps, hrelays] at h
      cases h
      exact ⟨forall₂_of_mapM_eq_ok htemps, forall₂_of_mapM_eq_ok hrelays⟩

/-! ### A host's evaluation of one function -/

theorem ofFrame_of_length {α : Type} {cfg : Cfg} {frame : List Byte} (h : frame.length = cfg.frameLen)
    (value : Except Fault α) : ofFrame cfg frame value = value :=
  if_pos h

theorem ofFrame_of_length_ne {α : Type} {cfg : Cfg} {frame : List Byte} (h : frame.length ≠ cfg.frameLen)
    (value : Except Fault α) : ofFrame cfg frame value = .error (.notAFrame frame.length) :=
  if_neg h

/-- A stop before a change that cannot fault. -/
theorem finish_bind_of_error {α : Type} {x : Except Fault α} {e : Fault} (h : x = .error e) (f : α → State) :
    finish (do let a ← x; return f a) = .fault e := by
  rw [h]
  rfl

/-- `D.RELAY` of a relay index of the configuration. -/
theorem exec_dRelay_of_lt {s : State} (frame : List Byte) {j : Fin 8} (hj : j.val < s.cfg.nRelays) :
    exec (.dRelay frame j) s = finish (do
      let bit ← ofFrame s.cfg frame (readRelay s.cfg frame j.val)
      return returnValue (.relay bit) s) := by
  simp only [exec, execDRelay, if_pos hj]

theorem exec_dTemp_of_read {s : State} {frame : List Byte} {i : Fin 6} {raw : Raw}
    (hlen : frame.length = s.cfg.frameLen) (hread : readTemp s.cfg frame i = .ok raw) :
    exec (.dTemp frame i) s = .next (returnValue (.temp raw (tempValue s.cfg raw)) s) :=
  finish_bind_eq_next.2 ⟨raw, (ofFrame_of_length hlen _).trans hread, rfl⟩

theorem exec_dRelay_of_read {s : State} {frame : List Byte} {j : Fin 8} {bit : Bool}
    (hlen : frame.length = s.cfg.frameLen) (hj : j.val < s.cfg.nRelays)
    (hread : readRelay s.cfg frame j.val = .ok bit) :
    exec (.dRelay frame j) s = .next (returnValue (.relay bit) s) :=
  (exec_dRelay_of_lt frame hj).trans
    (finish_bind_eq_next.2 ⟨bit, (ofFrame_of_length hlen _).trans hread, rfl⟩)

theorem exec_dFrame_of_read {s : State} {frame : List Byte} {r : Readings}
    (hlen : frame.length = s.cfg.frameLen) (hread : readFrame s.cfg frame = .ok r) :
    exec (.dFrame frame) s = .next (returnValue (.readings r) s) :=
  finish_bind_eq_next.2 ⟨r, (ofFrame_of_length hlen _).trans hread, rfl⟩

/-! ### The obligations -/

/-- Settles O26: `D.FRAME` never fails on a Frame under `cfg_ok`, and it succeeds only with the value of each field's
read, which `D.TEMP` and `D.RELAY` answer too. -/
theorem frameResult : Obligations.FrameResult := by
  intro s frame hok hlen
  have hread := readFrame_of_cfgOk hok hlen
  obtain ⟨htemps, hrelays⟩ := reads_of_readFrame_eq_ok hread
  refine ⟨_, exec_dFrame_of_read hlen hread, ?tempCount, ?relayCount, fun i => ?temp, fun j hj => ?relay⟩
  case tempCount => exact htemps.length_eq.symm.trans List.length_finRange
  case relayCount => exact hrelays.length_eq.symm.trans List.length_range
  case temp =>
    obtain ⟨raw, hraw, htemp⟩ := getElem?_of_forall₂ htemps (n := i.val) (x := i) (by simp)
    exact ⟨raw, _, hraw, _, exec_dTemp_of_read hlen htemp, rfl⟩
  case relay =>
    obtain ⟨bit, hbit, hrelay⟩ := getElem?_of_forall₂ hrelays (n := j.val) (List.getElem?_range hj)
    exact ⟨bit, hbit, _, exec_dRelay_of_read hlen hj hrelay, rfl⟩

/-- Settles O23: the value is `xorTransform`, which is its own inverse. -/
theorem xorResult : Obligations.XorResult :=
  fun s v => ⟨rfl, xorTransform_xorTransform s.cfg v⟩

/-- Settles O24, by the two one-byte reads of the field and the arithmetic of R152. -/
theorem tempResult : Obligations.TempResult := by
  intro s frame i hi lo hlen hhi hlo
  have hread := readTemp_of_reads (memRead1_of_getElem? hhi) (memRead1_of_getElem? hlo)
  refine ⟨rawOf (xorTransform s.cfg hi) (xorTransform s.cfg lo), ?raw, ?run⟩
  case raw => rw [toNat_rawOf, Nat.mul_comm]
  case run =>
    rw [exec_dTemp_of_read hlen hread, tempValue_eq]
    rfl

/-- Settles O25, by the read of the status byte. -/
theorem relayResult : Obligations.RelayResult :=
  fun _ _ j _ hlen hstatus hj =>
    exec_dRelay_of_read hlen hj (readRelay_of_read (memRead1_of_getElem? hstatus) j.val)

/-- Settles O27: the length is tested before any field is read, and a relay index before the length. -/
theorem decoderStopsOnForeignOperands : Obligations.DecoderStopsOnForeignOperands := by
  refine fun s frame => ⟨fun hlen => ⟨fun i => ?temp, ?frame, fun j hj => ?relay⟩, fun j hj => ?index⟩
  case temp => exact finish_bind_of_error (ofFrame_of_length_ne hlen _) _
  case frame => exact finish_bind_of_error (ofFrame_of_length_ne hlen _) _
  case relay => exact (exec_dRelay_of_lt frame hj).trans (finish_bind_of_error (ofFrame_of_length_ne hlen _) _)
  case index =>
    simp only [exec, execDRelay, if_neg (Nat.not_lt.2 hj)]
    rfl

/-- Settles O29: each field's read depends on the bytes at its own position. -/
theorem readingsDependOnDecodedBytesOnly : Obligations.ReadingsDependOnDecodedBytesOnly := by
  intro cfg frame frame' htemps hstatus
  have htemp : readTemp cfg frame = readTemp cfg frame' := funext fun i =>
    have ⟨hhi, hlo⟩ := htemps i
    readTemp_congr hhi hlo
  have hrelay : readRelay cfg frame = readRelay cfg frame' := funext (readRelay_congr hstatus)
  rw [readFrame, htemp, hrelay, readFrame]

end Sys2Proof.Machine
end

section
/-! Proofs of the statements of spec/43_poll_cycle.md sections 1 and 2: `TICK`, `P.FEED` and `P.POLL` from every state of
the invariant, and that the cutting into ticks plays no part (R170, R171, R172, R175). -/

namespace Sys2Proof.Machine

/-! ### Sequences of bytes -/

theorem inv_beginStep {s : State} (h : Inv s) : Inv (beginStep s) :=
  inv_keptByOperations.begin h

theorem hold_hold (xs ys : List Symbol) (s : State) : hold ys (hold xs s) = hold (xs ++ ys) s := by
  simp only [hold, List.map_append, ← List.append_assoc]
  rfl

theorem feedAll_of_not_inReady {s : State} (hr : s.inReady = false) {ys : List Symbol} (hys : ys ≠ []) :
    feedAll ys s = .next (hold ys s) := by
  obtain ⟨y, ys, rfl⟩ := List.exists_cons_of_ne_nil hys
  simp only [feedAll, hr, Bool.false_eq_true, if_false]

theorem feedAll_cons_of_inReady {s : State} (hr : s.inReady = true) (y : Symbol) (ys : List Symbol) :
    feedAll (y :: ys) s = andThen (feed y s) (feedAll ys) := by
  simp only [feedAll, hr, if_true]

/-- Feeding goes on where it stopped, also where bytes are held. -/
theorem feedAll_append (xs ys : List Symbol) : ∀ s : State,
    feedAll (xs ++ ys) s = andThen (feedAll xs s) (feedAll ys) := by
  induction xs with
  | nil => exact fun s => rfl
  | cons x xs ih =>
    intro s
    cases hr : s.inReady with
    | true =>
      rw [List.cons_append, feedAll_cons_of_inReady hr, feedAll_cons_of_inReady hr, andThen_assoc]
      congr 1
      exact funext ih
    | false =>
      rw [feedAll_of_not_inReady hr (by simp), feedAll_of_not_inReady hr (by simp), andThen_next]
      by_cases hys : ys = []
      · simp [hys, feedAll]
      · rw [feedAll_of_not_inReady (s := hold (x :: xs) s) hr hys, hold_hold]

theorem feedAll_append_of_next {xs ys : List Symbol} {s t : State} (h : feedAll xs s = .next t) :
    feedAll (xs ++ ys) s = feedAll ys t := by
  rw [feedAll_append, h, andThen_next]

theorem feedAll_beginStep {ys : List Symbol} (hys : ys ≠ []) (s : State) :
    feedAll ys (beginStep s) = feedAll ys s := by
  obtain ⟨y, ys, rfl⟩ := List.exists_cons_of_ne_nil hys
  exact feedAll_cons_beginStep y ys s

/-- `P.POLL` is the feeding of its bytes, but for the record of the step before (R171, R172). -/
theorem exec_pPoll (ys : List Symbol) (s : State) : exec (.pPoll ys) s = feedAll ys (beginStep s) := rfl

/-- Settles O12. -/
theorem tickChangesNothing : Obligations.TickChangesNothing :=
  fun s => ⟨selected_tick s, rfl⟩

/-! ### Tick invariance -/

theorem mapNext_andThen (f : State → State) (o : Host.Outcome State Fault Refusal)
    (k : State → Host.Outcome State Fault Refusal) :
    mapNext f (andThen o k) = andThen o fun u => mapNext f (k u) :=
  andThen_assoc ..

/-- The record of the step before stays where no byte is fed, and is no part of the view. -/
theorem mapNext_quiet_feedAll_beginStep (ys : List Symbol) (s : State) :
    mapNext quiet (feedAll ys (beginStep s)) = mapNext quiet (feedAll ys s) := by
  by_cases hys : ys = []
  · rw [hys]
    rfl
  · rw [feedAll_beginStep hys]

/-- Ticks feed their bytes as one sequence. -/
theorem mapNext_quiet_runInstrs_pPoll (ticks : List (List Symbol)) : ∀ s : State,
    mapNext quiet (runInstrs (ticks.map .pPoll) s) = mapNext quiet (feedAll ticks.flatten s) := by
  induction ticks with
  | nil => exact fun s => rfl
  | cons ys ticks ih =>
    intro s
    calc mapNext quiet (runInstrs ((ys :: ticks).map .pPoll) s)
      _ = andThen (feedAll ys (beginStep s)) fun u => mapNext quiet (runInstrs (ticks.map .pPoll) u) :=
        mapNext_andThen quiet (exec (.pPoll ys) s) _
      _ = andThen (feedAll ys (beginStep s)) fun u => mapNext quiet (feedAll ticks.flatten u) := by simp only [ih]
      _ = mapNext quiet (feedAll (ys ++ ticks.flatten) (beginStep s)) := by
        rw [feedAll_append, mapNext_andThen]
      _ = mapNext quiet (feedAll (ys :: ticks).flatten s) := mapNext_quiet_feedAll_beginStep _ s

/-- Settles O45: either cutting feeds the concatenation of its ticks. -/
theorem tickInvariance : Obligations.TickInvariance := by
  intro s ticks ticks' h
  rw [mapNext_quiet_runInstrs_pPoll, mapNext_quiet_runInstrs_pPoll, h]

/-! ### `P.FEED` completes -/

/-- The operation an accepted byte selects, and its effect, which the invariant survives. -/
theorem exists_effect_of_inReady {s : State} (hinv : Inv s) (hr : s.inReady = true) (y : Symbol) :
    ∃ op t, selected s (some (.byte y)) = some op ∧ OpEffect op y s t ∧ Inv t ∧ t.cfgError = false := by
  obtain ⟨op, hop, hbyte⟩ := selected_byte_of_inReady hr y
  obtain ⟨t, heff⟩ := exists_effect_of_selected hinv hop y
  obtain ⟨-, -, -, hce⟩ := runOperation_keeps (runOperation_eq_next.2 heff)
  refine ⟨op, t, hop, heff, inv_keptByOperations.run hinv hop (fun _ => rfl) heff, ?_⟩
  rw [hce (by rintro rfl; cases hbyte), (inReady_iff.1 hr).1]

/-- The internal step completes and leads to `SEEKING_START` (R131, R132). -/
theorem exists_effect_of_validating {s : State} (hinv : Inv s) (hc : s.cfgError = false) (hv : s.st = .validating) :
    ∃ op t, selected s none = some op ∧ OpEffect op ⟨0, false⟩ s t ∧ settle s = .next t ∧
      t.st = .seekingStart := by
  have hop := selected_validating hc hv
  obtain ⟨t, heff⟩ := exists_effect_of_selected hinv hop ⟨0, false⟩
  obtain ⟨-, hafter⟩ := stAfter_of_fits_none (fits_of_selected hop)
  exact ⟨_, t, hop, heff, (settle_validating hc hv).trans (runOperation_eq_next.2 heff), heff.st_eq.trans hafter⟩

/-- Only the byte that fills a frame leaves an internal step pending, and it emits nothing (R129). -/
theorem OpEffect.trace_eq_of_validating {op : Operation} {y : Symbol} {s t : State} (h : OpEffect op y s t)
    (hs : s.st ≠ .validating) (ht : t.st = .validating) : t.trace = s.trace := by
  rw [h.st_eq] at ht
  cases op with
  | accLast => obtain ⟨-, rfl⟩ := h; rfl
  | tick | seekMiss | seekFlush | accStore | accAbort => exact absurd ht hs
  | reset | seekHit | seekGap | valPass | valFail => cases ht

/-- An operation leaves the trace as it is or appends one event. -/
theorem OpEffect.trace_cases {op : Operation} {y : Symbol} {s t : State} (h : OpEffect op y s t) :
    t.trace = s.trace ∨ ∃ e, t.trace = s.trace ++ [e] := by
  have hlen := h.length_out_le_one
  rw [h.trace_eq]
  match hout : t.out with
  | [] => exact .inl (List.append_nil _)
  | [e] => exact .inr ⟨e, rfl⟩
  | _ :: _ :: _ => rw [hout] at hlen; simp at hlen

/-- Settles O30: the selected operation and the internal step complete from states of the invariant, and only one of
the two emits. -/
theorem feedRunsToQuiescence : Obligations.FeedRunsToQuiescence := by
  intro s b g hinv hr
  obtain ⟨op, s1, hop, heff, hinv1, hc1⟩ := exists_effect_of_inReady hinv hr ⟨b, g⟩
  have hrun : exec (op.withSymbol ⟨b, g⟩) s = .next s1 :=
    (exec_withSymbol op ⟨b, g⟩ s).trans (runOperation_eq_next.2 heff)
  have hfeed : exec (.pFeed b g) s = settle s1 := feed_of_effect hr hop heff
  by_cases hv : s1.st = .validating
  · obtain ⟨op2, t, hop2, heff2, hsettle, hst⟩ := exists_effect_of_validating hinv1 hc1 hv
    have hrun2 : exec (op2.withSymbol ⟨0, false⟩) s1 = .next t :=
      (exec_withSymbol op2 ⟨0, false⟩ s1).trans (runOperation_eq_next.2 heff2)
    obtain ⟨-, -, -, hready⟩ := settle_keeps hc1 hsettle
    refine ⟨op, s1, t, hop, hrun, hfeed.trans hsettle, fun hne => absurd hv hne, fun _ => ⟨op2, hop2, hrun2⟩,
      hready, ?_⟩
    rw [← heff.trace_eq_of_validating (inReady_iff.1 hr).2 hv]
    exact heff2.trace_cases
  · exact ⟨op, s1, s1, hop, hrun, hfeed.trans (settle_of_ne hv), fun _ => rfl, fun h => absurd h hv,
      inReady_iff.2 ⟨hc1, hv⟩, heff.trace_cases⟩

/-! ### `P.POLL` completes -/

/-- A sequence of bytes from a core that accepts them is one `P.FEED` after the other. -/
theorem feedAll_eq_runInstrs (ys : List Symbol) : ∀ {s : State}, s.inReady = true →
    feedAll ys s = runInstrs (ys.map fun y => .pFeed y.b y.g) s := by
  induction ys with
  | nil => exact fun _ => rfl
  | cons y ys ih =>
    intro s hr
    rw [feedAll_cons_of_inReady hr]
    change _ = andThen (feed y s) _
    cases hfeed : feed y s with
    | next t =>
      obtain ⟨-, -, -, hready⟩ := feed_keeps hr hfeed
      exact ih hready
    | fault f => rfl
    | refused r => rfl

/-- Feeding completes from every state of the invariant that accepts bytes. -/
theorem exists_feedAll (ys : List Symbol) : ∀ {s : State}, Inv s → s.inReady = true →
    ∃ t, feedAll ys s = .next t := by
  induction ys with
  | nil => exact fun _ _ => ⟨_, rfl⟩
  | cons y ys ih =>
    intro s hinv hr
    obtain ⟨-, -, t, -, -, hfeed, -⟩ := feedRunsToQuiescence s y.b y.g hinv hr
    have hfeed : feed y s = .next t := hfeed
    obtain ⟨-, -, -, hready⟩ := feed_keeps hr hfeed
    rw [feedAll_cons_of_inReady hr, hfeed, andThen_next]
    exact ih (inv_keptByOperations.feed hinv hr hfeed) hready

/-- Settles O31. -/
theorem pollFeedsInOrder : Obligations.PollFeedsInOrder :=
  fun s bs hinv hr => ⟨feedAll_eq_runInstrs (s := beginStep s) bs hr, exists_feedAll bs (inv_beginStep hinv) hr⟩

/-! ### An accumulating core completes its frame -/

/-- The bytes a frame still lacks lead through `VALIDATING` to `SEEKING_START` (R128, R129). -/
theorem exists_feedAll_of_accumulating (ys : List Symbol) : ∀ {s : State}, Inv s → s.cfgError = false →
    s.st = .accumulating → s.count + ys.length = s.cfg.frameLen → (∀ y ∈ ys, gapm s y = false) →
    ∃ t, feedAll ys s = .next t ∧ Inv t ∧ t.cfgError = false ∧ t.st = .seekingStart := by
  induction ys with
  | nil =>
    intro s ⟨_, _, ⟨_, hacc, _⟩, _⟩ _ hst hlen _
    obtain ⟨-, hroom⟩ := hacc hst
    simp only [List.length_nil] at hlen
    omega
  | cons y ys ih =>
    intro s hinv hc hst hlen hgap
    have hr : s.inReady = true := inReady_iff.2 ⟨hc, by simp [hst]⟩
    have hy : gapm s y = false := hgap y (by simp)
    rw [List.length_cons] at hlen
    by_cases hlast : s.count + 1 = s.cfg.frameLen
    · obtain rfl : ys = [] := List.length_eq_zero_iff.1 (by omega)
      have hop : selected s (some (.byte y)) = some .accLast := selected_accLast_iff.2 ⟨hc, hst, hy, hlast⟩
      obtain ⟨u, heff⟩ := exists_effect_of_selected hinv hop y
      have hinvu : Inv u := inv_keptByOperations.run hinv hop (fun _ => rfl) heff
      have hfeed : feed y s = settle u := feed_of_effect hr hop heff
      obtain ⟨-, rfl⟩ := heff
      obtain ⟨-, t, -, -, hsettle, hstt⟩ := exists_effect_of_validating hinvu hc rfl
      rw [hsettle] at hfeed
      obtain ⟨-, -, -, hready⟩ := feed_keeps hr hfeed
      refine ⟨t, ?_, inv_keptByOperations.feed hinv hr hfeed, (inReady_iff.1 hready).1, hstt⟩
      rw [feedAll_cons_of_inReady hr, hfeed, andThen_next, feedAll]
    · have hop : selected s (some (.byte y)) = some .accStore := selected_accStore_iff.2 ⟨hc, hst, hy, hlast⟩
      obtain ⟨u, heff⟩ := exists_effect_of_selected hinv hop y
      have hinvu : Inv u := inv_keptByOperations.run hinv hop (fun _ => rfl) heff
      have hfeed := feedAll_cons_of_effect hr hop heff (by rw [heff.st_eq]; simp [stAfter, hst]) ys
      obtain ⟨-, rfl⟩ := heff
      rw [hfeed]
      refine ih hinvu hc hst ?_ fun y' hy' => hgap y' (by simp [hy'])
      simp only [beginStep_cfg]
      omega

/-- Settles O50: an accumulating core has no configuration error, and the frame's last byte leads to the internal
step. -/
theorem seekingIsReachedWithinOneFrame : Obligations.SeekingIsReachedWithinOneFrame := by
  intro s ys hinv hst hlen hgap
  have hc : s.cfgError = false := by
    obtain ⟨-, hinert, -⟩ := hinv
    refine Bool.eq_false_iff.2 fun herr => ?_
    obtain ⟨hseek, -⟩ := hinert herr
    exact nomatch hst.symm.trans hseek
  obtain ⟨t, hfeed, ⟨-, -, ⟨hcount, -⟩, -⟩, hct, hstt⟩ :=
    exists_feedAll_of_accumulating ys (inv_beginStep hinv) hc hst hlen hgap
  exact ⟨t, hfeed, hstt, hcount hstt, inReady_iff.2 ⟨hct, by simp [hstt]⟩⟩

end Sys2Proof.Machine
end

section
/-! The signature matcher by the bytes it has seen: the match progress after a history, and a hit where `SYNC` ends the
history (R121, R122). -/

namespace Sys2Proof.Machine

/-- `m` is the match progress after the bytes `w`: the length of the longest beginning of `sync`, short of all of it,
that ends `w` (R24, R121). -/
structure MatchProgress (sync w : List Byte) (m : Nat) : Prop where
  lt : m < sync.length
  suffix : sync.take m <:+ w
  longest : ∀ k, k < sync.length → sync.take k <:+ w → k ≤ m

/-- Reading the bytes `bs` after `w`, at no point do the bytes read end in `sync`. -/
def NoSignature (sync w bs : List Byte) : Prop :=
  ∀ p, p <+: bs → ¬ sync <:+ w ++ p

section
variable {sync w bs : List Byte} {m m' : Nat} {b : Byte}

/-- A match progress stands for the bytes matched so far. -/
theorem matchProgress_take (hm : m < sync.length) : MatchProgress sync (sync.take m) m where
  lt := hm
  suffix := List.suffix_rfl
  longest k hk hs := by
    have hle := hs.length_le
    rwa [List.length_take_of_le hk.le, List.length_take_of_le hm.le] at hle

theorem MatchProgress.unique (h : MatchProgress sync w m) (h' : MatchProgress sync w m') : m = m' :=
  (h'.longest m h.lt h.suffix).antisymm (h.longest m' h'.lt h'.suffix)

/-- What `advance` answers ends the history with the new byte. -/
theorem MatchProgress.take_advance_suffix (h : MatchProgress sync w m) (b : Byte) :
    sync.take (advance sync m b) <:+ w ++ [b] := by
  obtain ⟨-, hsuffix, -⟩ := advanceIsTheLongestOverlap sync m b h.lt
  exact hsuffix.trans (List.suffix_append_self_iff.2 h.suffix)

/-- No longer beginning of `SYNC` does: without its last byte it would have ended the history before. -/
theorem MatchProgress.le_advance (h : MatchProgress sync w m) {k : Nat} (hk : k ≤ sync.length)
    (hs : sync.take k <:+ w ++ [b]) : k ≤ advance sync m b := by
  obtain ⟨-, -, hmax, -⟩ := advanceIsTheLongestOverlap sync m b h.lt
  cases k with
  | zero => exact Nat.zero_le _
  | succ j =>
    rw [← List.take_concat_get' _ _ hk] at hs
    obtain ⟨hbefore, hb⟩ := (List.suffix_append_inj_of_length_eq (s₁ := [sync[j]]) (s₂ := [b]) rfl).1 hs
    have hj : j ≤ m := h.longest j hk hbefore
    have hsub : sync.take j <:+ sync.take m := by
      refine List.suffix_of_suffix_length_le hbefore h.suffix ?_
      rwa [List.length_take_of_le (Nat.le_of_lt hk), List.length_take_of_le h.lt.le]
    refine hmax (j + 1) (Nat.succ_le_succ hj) ?_
    rw [← List.take_concat_get' _ _ hk, hb]
    exact List.suffix_append_self_iff.2 hsub

/-- The signature is complete exactly where it ends the history. -/
theorem MatchProgress.advance_eq_length_iff (h : MatchProgress sync w m) :
    advance sync m b = sync.length ↔ sync <:+ w ++ [b] := by
  constructor
  · intro hfull
    have hsuffix := h.take_advance_suffix b
    rwa [hfull, List.take_length] at hsuffix
  · intro hs
    refine ((advance_le sync m b).trans h.lt).antisymm (h.le_advance le_rfl ?_)
    rwa [List.take_length]

/-- A byte that completes no signature. -/
theorem MatchProgress.concat (h : MatchProgress sync w m) (hno : ¬ sync <:+ w ++ [b]) :
    MatchProgress sync (w ++ [b]) (advance sync m b) where
  lt := lt_of_le_of_ne ((advance_le sync m b).trans h.lt) (mt h.advance_eq_length_iff.1 hno)
  suffix := h.take_advance_suffix b
  longest _ hk hs := h.le_advance hk.le hs

theorem NoSignature.head (h : NoSignature sync w (b :: bs)) : ¬ sync <:+ w ++ [b] :=
  h [b] (by simp)

theorem NoSignature.tail (h : NoSignature sync w (b :: bs)) : NoSignature sync (w ++ [b]) bs := by
  intro p hp
  rw [List.append_assoc]
  exact h (b :: p) (by simpa using hp)

/-- Fewer bytes than the signature's do not hold it. -/
theorem noSignature_of_length_lt (h : w.length + bs.length < sync.length) : NoSignature sync w bs := by
  intro p hp hs
  have hle := hs.length_le
  have hple := hp.length_le
  rw [List.length_append] at hle
  omega

/-- A signature that ends the bytes begins at an index that leaves room for it. -/
theorem noSignature_of_drop {rest : List Byte}
    (h : ∀ k, k + sync.length ≤ w.length + bs.length → ¬ sync <+: (w ++ bs ++ rest).drop k) :
    NoSignature sync w bs := by
  rintro p ⟨q, rfl⟩ ⟨x, hx⟩
  have hlen := congrArg List.length hx
  simp only [List.length_append] at hlen
  refine h x.length (by simp only [List.length_append]; omega) ⟨q ++ rest, ?_⟩
  have hsplit : w ++ (p ++ q) ++ rest = x ++ (sync ++ (q ++ rest)) := by
    simp only [← List.append_assoc, hx]
  rw [hsplit, List.drop_left]

/-- The symbols of bytes that begin with a signature: those before its last byte, that byte, and the rest. -/
theorem exists_signature_split {ys : List Symbol} (hpos : 1 ≤ sync.length) (h : sync <+: ys.map Symbol.b) :
    ∃ head y rest, ys = head ++ y :: rest ∧ head.map Symbol.b ++ [y.b] = sync ∧ head.length + 1 = sync.length := by
  obtain ⟨t, ht⟩ := h
  obtain ⟨first, rest, rfl, rfl, -⟩ := List.map_eq_append_iff.1 ht.symm
  rw [List.length_map] at hpos ⊢
  have hne : first ≠ [] := List.ne_nil_of_length_pos hpos
  refine ⟨first.dropLast, first.getLast hne, rest, ?_, ?_, ?_⟩
  · rw [List.append_cons, List.dropLast_append_getLast]
  · rw [← List.map_singleton, ← List.map_append, List.dropLast_append_getLast]
  · rw [List.length_dropLast, Nat.sub_add_cancel hpos]

theorem sync_append_map {head rest : List Symbol} {y : Symbol} (h : head.map Symbol.b ++ [y.b] = sync) :
    sync ++ rest.map Symbol.b = (head ++ y :: rest).map Symbol.b := by
  simp [← h]

end

theorem hit_iff_suffix {s : State} {w : List Byte} (hm : s.cfg.startMode = .sentinel)
    (h : MatchProgress s.cfg.sync w s.matchLen) (y : Symbol) : hit s y = true ↔ s.cfg.sync <:+ w ++ [y.b] := by
  rw [hit_eq_true, ← h.advance_eq_length_iff]
  exact and_iff_right hm

end Sys2Proof.Machine
end

section
/-! How a core that seeks comes to a frame and what it does with it, said once for both start modes: bytes that start
nothing, the start, the bytes of the frame, and the verdict on it (R124 to R132). -/

namespace Sys2Proof.Machine

/-! ### Bytes that start no frame -/

theorem gapm_congr {s t : State} (h : t.cfg = s.cfg) (y : Symbol) : gapm t y = gapm s y := by
  simp only [gapm, h]

/-- The core after a byte that starts no frame (R124, R125). -/
def seekPast (y : Symbol) (s : State) : State :=
  if overWindow s then raise .framing { beginStep s with matchLen := nextMatch s y.b, seekCount := 0 }
  else { beginStep s with matchLen := nextMatch s y.b, seekCount := s.seekCount + 1 }

/-- `t` has the configuration of `s`, and the trace has grown by `n` FramingErrors and no other event. -/
structure Passed (s : State) (n : Nat) (t : State) : Prop where
  cfg : t.cfg = s.cfg
  cfgError : t.cfgError = s.cfgError
  trace : t.trace = s.trace ++ List.replicate n .errFraming

/-- How often `k` bytes that start no frame exceed the seek window (R125). A count beyond the window, which no step
leads to, is like a full one. -/
def flushCount (s : State) (k : Nat) : Nat :=
  (min s.seekCount s.cfg.seekWindow + k) / (s.cfg.seekWindow + 1)

/-- `t` still seeks after `k` bytes from the seeking state `s` that started no frame. -/
structure Sought (s : State) (k : Nat) (t : State) : Prop extends Passed s (flushCount s k) t where
  st : t.st = .seekingStart
  count : t.count = s.count

theorem Passed.refl (s : State) : Passed s 0 s :=
  ⟨rfl, rfl, (List.append_nil _).symm⟩

theorem seekPast_of_not_over {s : State} (h : overWindow s = false) (y : Symbol) :
    seekPast y s = { beginStep s with matchLen := nextMatch s y.b, seekCount := s.seekCount + 1 } := by
  rw [seekPast, h]
  rfl

theorem seekPast_of_over {s : State} (h : overWindow s = true) (y : Symbol) :
    seekPast y s = raise .framing { beginStep s with matchLen := nextMatch s y.b, seekCount := 0 } := by
  rw [seekPast, h]
  rfl

/-- What `seekPast` leaves as it is, and the match progress. -/
theorem seekPast_keeps (y : Symbol) (s : State) :
    (seekPast y s).cfg = s.cfg ∧ (seekPast y s).cfgError = s.cfgError ∧ (seekPast y s).st = s.st ∧
      (seekPast y s).matchLen = nextMatch s y.b := by
  cases h : overWindow s with
  | false => rw [seekPast_of_not_over h]; exact ⟨rfl, rfl, rfl, rfl⟩
  | true => rw [seekPast_of_over h]; exact ⟨rfl, rfl, rfl, rfl⟩

theorem flushCount_of_le {s : State} (h : s.seekCount ≤ s.cfg.seekWindow) (k : Nat) :
    flushCount s k = (s.seekCount + k) / (s.cfg.seekWindow + 1) := by
  rw [flushCount, Nat.min_eq_left h]

theorem flushCount_zero (s : State) : flushCount s 0 = 0 :=
  Nat.div_eq_of_lt (Nat.lt_succ_of_le (Nat.min_le_right ..))

/-- A byte with room in the window is counted in it. -/
theorem flushCount_succ_of_not_over {s : State} (h : overWindow s = false) (y : Symbol) (k : Nat) :
    flushCount s (k + 1) = flushCount (seekPast y s) k := by
  have hroom := overWindow_eq_false.1 h
  rw [seekPast_of_not_over h, flushCount_of_le (Nat.le_of_succ_le hroom), flushCount_of_le hroom, Nat.add_comm k,
    ← Nat.add_assoc]
  rfl

/-- A byte that exceeds the window empties it. -/
theorem flushCount_succ_of_over {s : State} (h : overWindow s = true) (y : Symbol) (k : Nat) :
    flushCount s (k + 1) = flushCount (seekPast y s) k + 1 := by
  have hfull : min s.seekCount s.cfg.seekWindow + (k + 1) = k + (s.cfg.seekWindow + 1) := by
    have hlt := overWindow_eq_true.1 h
    omega
  have hempty : flushCount (seekPast y s) k = k / (s.cfg.seekWindow + 1) := by
    simp [seekPast_of_over h, flushCount]
  rw [hempty, flushCount, hfull, Nat.add_div_right _ (Nat.succ_pos _)]

theorem Sought.refl {s : State} (hst : s.st = .seekingStart) : Sought s 0 s :=
  ⟨(flushCount_zero s).symm ▸ Passed.refl s, hst, rfl⟩

/-- One more byte in front: it is counted in the window, or exceeds it with one FramingError. -/
theorem Sought.cons {s t : State} {y : Symbol} {k : Nat} (h : Sought (seekPast y s) k t) : Sought s (k + 1) t := by
  obtain ⟨⟨hcfg, hce, htrace⟩, hst, hcount⟩ := h
  cases hover : overWindow s with
  | false =>
    rw [← flushCount_succ_of_not_over hover] at htrace
    rw [seekPast_of_not_over hover] at hcfg hce htrace hcount
    exact ⟨⟨hcfg, hce, htrace⟩, hst, hcount⟩
  | true =>
    have hflush := flushCount_succ_of_over hover y k
    rw [seekPast_of_over hover] at hcfg hce htrace hcount hflush
    refine ⟨⟨hcfg, hce, ?_⟩, hst, hcount⟩
    rw [htrace, hflush, List.replicate_succ]
    simp

/-- A byte that is no gap start and no hit is sought past (R124, R125). -/
theorem feedAll_cons_seekPast {s : State} {y : Symbol} (hc : s.cfgError = false) (hst : s.st = .seekingStart)
    (hgap : gapm s y = false) (hhit : hit s y = false) (ys : List Symbol) :
    feedAll (y :: ys) s = feedAll ys (seekPast y s) := by
  have hr : s.inReady = true := inReady_iff.2 ⟨hc, by simp [hst]⟩
  obtain ⟨-, -, hst', -⟩ := seekPast_keeps y s
  have hne : (seekPast y s).st ≠ .validating := by simp [hst', hst]
  cases hover : overWindow s with
  | false =>
    exact feedAll_cons_of_effect hr (selected_seekMiss_iff.2 ⟨hc, hst, hgap, hhit, overWindow_eq_false.1 hover⟩)
      (seekPast_of_not_over hover y) hne ys
  | true =>
    exact feedAll_cons_of_effect hr (selected_seekFlush_iff.2 ⟨hc, hst, hgap, hhit, overWindow_eq_true.1 hover⟩)
      (seekPast_of_over hover y) hne ys

/-- Bytes in which no signature ends, in sentinel mode. -/
theorem exists_sought_of_sentinel (ys : List Symbol) : ∀ {s : State} {w : List Byte}, s.cfg.startMode = .sentinel →
    s.cfgError = false → s.st = .seekingStart → MatchProgress s.cfg.sync w s.matchLen →
    NoSignature s.cfg.sync w (ys.map Symbol.b) →
    ∃ t, Sought s ys.length t ∧ MatchProgress s.cfg.sync (w ++ ys.map Symbol.b) t.matchLen ∧
      feedAll ys s = .next t := by
  induction ys with
  | nil =>
    intro s w _ _ hst hprog _
    exact ⟨s, Sought.refl hst, by simpa using hprog, rfl⟩
  | cons y ys ih =>
    intro s w hm hc hst hprog hno
    obtain ⟨hcfg, hce, hst', hmatch⟩ := seekPast_keeps y s
    have hhit : hit s y = false := Bool.eq_false_iff.2 fun h => hno.head ((hit_iff_suffix hm hprog y).1 h)
    have hnext : nextMatch s y.b = advance s.cfg.sync s.matchLen y.b := by simp only [nextMatch, hm]
    have hprog' := hprog.concat hno.head
    rw [← hnext, ← hmatch, ← hcfg] at hprog'
    obtain ⟨t, hsought, hprogt, hfeed⟩ := ih (s := seekPast y s) (by rw [hcfg, hm]) (hce.trans hc) (hst'.trans hst)
      hprog' (by rw [hcfg]; exact hno.tail)
    refine ⟨t, hsought.cons, ?_, (feedAll_cons_seekPast hc hst (gapm_of_sentinel hm y) hhit ys).trans hfeed⟩
    simpa [hcfg] using hprogt

/-- Bytes without a flag, in gap mode, where there is no match progress (R122). -/
theorem exists_sought_of_gap (ys : List Symbol) : ∀ {s : State}, s.cfg.startMode = .gap → s.cfgError = false →
    s.st = .seekingStart → s.matchLen = 0 → (∀ y ∈ ys, gapm s y = false) →
    ∃ t, Sought s ys.length t ∧ t.matchLen = 0 ∧ feedAll ys s = .next t := by
  induction ys with
  | nil => exact fun {s} _ _ hst hmatch _ => ⟨s, Sought.refl hst, hmatch, rfl⟩
  | cons y ys ih =>
    intro s hm hc hst _ hgap
    obtain ⟨hcfg, hce, hst', hmatch⟩ := seekPast_keeps y s
    have hgap' : ∀ y' ∈ ys, gapm (seekPast y s) y' = false := fun y' hy' =>
      (gapm_congr hcfg y').trans (hgap y' (by simp [hy']))
    obtain ⟨t, hsought, hmatcht, hfeed⟩ := ih (s := seekPast y s) (by rw [hcfg, hm]) (hce.trans hc)
      (hst'.trans hst) (hmatch.trans (nextMatch_of_gap hm y.b)) hgap'
    exact ⟨t, hsought.cons, hmatcht,
      (feedAll_cons_seekPast hc hst (hgap y (by simp)) (hit_of_gap hm y) ys).trans hfeed⟩

/-! ### The start of a frame -/

/-- Fed `ys`, the core `s` accumulates with the bytes `bs` of a frame in `buf`, after `n` FramingErrors and no other
event. The record of the last step is left out, since an abort leaves its error there. -/
def BeginsFrame (s : State) (ys : List Symbol) (bs : List Byte) (n : Nat) : Prop :=
  ∃ u t, Passed s n u ∧ feedAll ys s = .next t ∧ beginStep t = frameBegun bs u

/-- The byte that begins a frame, after bytes that do not (R126, R127). -/
theorem Sought.beginsFrame {s u : State} {ys : List Symbol} {y : Symbol} {op : Operation} {bs : List Byte}
    (h : Sought s ys.length u) (hc : s.cfgError = false) (hfeed : feedAll ys s = .next u)
    (hop : selected u (some (.byte y)) = some op) (heff : OpEffect op y u (frameBegun bs u)) :
    BeginsFrame s (ys ++ [y]) bs (flushCount s ys.length) := by
  have hr : u.inReady = true := inReady_iff.2 ⟨h.cfgError.trans hc, by simp [h.st]⟩
  refine ⟨u, frameBegun bs u, h.toPassed, ?_, rfl⟩
  rw [feedAll_append_of_next hfeed]
  exact feedAll_cons_of_effect hr hop heff nofun []

/-- In sentinel mode a frame begins where `SYNC` ends the bytes for the first time (R126). -/
theorem beginsFrame_of_sentinel {s : State} {w : List Byte} {ys : List Symbol} {y : Symbol}
    (hm : s.cfg.startMode = .sentinel) (hok : cfgOk s.cfg = true) (hc : s.cfgError = false)
    (hst : s.st = .seekingStart) (hprog : MatchProgress s.cfg.sync w s.matchLen)
    (hno : NoSignature s.cfg.sync w (ys.map Symbol.b)) (hends : s.cfg.sync <:+ w ++ ys.map Symbol.b ++ [y.b]) :
    BeginsFrame s (ys ++ [y]) s.cfg.sync (flushCount s ys.length) := by
  obtain ⟨u, hsought, hprogu, hfeed⟩ := exists_sought_of_sentinel ys hm hc hst hprog hno
  have hcfg := hsought.cfg
  rw [← hcfg] at hm hprogu hends hok ⊢
  have hop : selected u (some (.byte y)) = some .seekHit :=
    selected_seekHit_iff.2 ⟨hsought.cfgError.trans hc, hsought.st, (hit_iff_suffix hm hprogu y).2 hends⟩
  exact hsought.beginsFrame hc hfeed hop ⟨(syncLen_lt_of_cfgOk hok).le, rfl⟩

/-- In gap mode a frame begins at the first flagged byte (R127). -/
theorem beginsFrame_of_gap {s : State} {ys : List Symbol} {y : Symbol} (hm : s.cfg.startMode = .gap)
    (hok : cfgOk s.cfg = true) (hc : s.cfgError = false) (hst : s.st = .seekingStart) (hmatch : s.matchLen = 0)
    (hgap : ∀ y' ∈ ys, gapm s y' = false) (hy : y.g = true) :
    BeginsFrame s (ys ++ [y]) [y.b] (flushCount s ys.length) := by
  obtain ⟨u, hsought, hmatchu, hfeed⟩ := exists_sought_of_gap ys hm hc hst hmatch hgap
  rw [← hsought.cfg] at hm hok
  have hop : selected u (some (.byte y)) = some .seekGap :=
    selected_seekGap_iff.2 ⟨hsought.cfgError.trans hc, hsought.st, gapm_eq_true.2 ⟨hm, hy⟩⟩
  refine hsought.beginsFrame hc hfeed hop ⟨Nat.zero_lt_of_lt (syncLen_lt_of_cfgOk hok), ?_⟩
  simp [startFrame, frameBegun, beginStep, Memory.writeAll, hmatchu]

/-- In gap mode a flagged byte begins a frame in the middle of another, with a FramingError (R130). -/
theorem beginsFrame_of_abort {s : State} {y : Symbol} (hm : s.cfg.startMode = .gap) (hok : cfgOk s.cfg = true)
    (hc : s.cfgError = false) (hst : s.st = .accumulating) (hmatch : s.matchLen = 0) (hy : y.g = true) :
    BeginsFrame s [y] [y.b] 1 := by
  have hr : s.inReady = true := inReady_iff.2 ⟨hc, by simp [hst]⟩
  have hop : selected s (some (.byte y)) = some .accAbort :=
    selected_accAbort_iff.2 ⟨hc, hst, gapm_eq_true.2 ⟨hm, hy⟩⟩
  have hpassed : Passed s 1 (raise .framing s) := ⟨rfl, rfl, rfl⟩
  refine ⟨raise .framing s, _, hpassed,
    feedAll_cons_of_effect hr hop ⟨Nat.zero_lt_of_lt (syncLen_lt_of_cfgOk hok), rfl⟩ (by simp [hst]) [], ?_⟩
  simp [frameBegun, beginStep, raise, emit, Memory.writeAll, hst, hmatch]

/-! ### The bytes of a frame and the verdict on it -/

/-- Bytes without a gap start that do not fill the frame are appended (R128). -/
theorem feedAll_frameBegun_of_lt {u : State} (hc : u.cfgError = false) (zs : List Symbol) : ∀ {bs : List Byte},
    (∀ z ∈ zs, gapm u z = false) → bs.length + zs.length < u.cfg.frameLen →
    feedAll zs (frameBegun bs u) = .next (frameBegun (bs ++ zs.map Symbol.b) u) := by
  induction zs with
  | nil => intro bs _ _; simp [feedAll]
  | cons z zs ih =>
    intro bs hgap hlen
    rw [List.length_cons] at hlen
    rw [feedAll_cons_frameBegun hc (hgap z (by simp)) (by omega), ih (fun z' hz' => hgap z' (by simp [hz'])) (by
      rw [List.length_append, List.length_singleton]; omega)]
    simp

theorem BeginsFrame.append {s : State} {ys : List Symbol} {bs : List Byte} {n : Nat} (h : BeginsFrame s ys bs n)
    (hc : s.cfgError = false) {zs : List Symbol} (hgap : ∀ z ∈ zs, gapm s z = false)
    (hlen : bs.length + zs.length < s.cfg.frameLen) : BeginsFrame s (ys ++ zs) (bs ++ zs.map Symbol.b) n := by
  by_cases hzs : zs = []
  · simpa [hzs] using h
  · obtain ⟨u, t, hpassed, hfeed, ht⟩ := h
    refine ⟨u, frameBegun (bs ++ zs.map Symbol.b) u, hpassed, ?_, rfl⟩
    rw [feedAll_append_of_next hfeed, ← feedAll_beginStep hzs, ht]
    exact feedAll_frameBegun_of_lt (hpassed.cfgError.trans hc) zs
      (fun z hz => (gapm_congr hpassed.cfg z).trans (hgap z hz)) (by rwa [hpassed.cfg])

/-- The event of a frame: its readings where the last byte is the sum of the others, and `ERR_CHECKSUM` otherwise
(R74, R131, R132). -/
def Verdict (cfg : Cfg) (frame : List Byte) (e : OutEvent) : Prop :=
  if frame.getLast? = some (sum8 frame.dropLast) then ∃ r, readFrame cfg frame = .ok r ∧ e = .readings r
  else e = .errChecksum

theorem Verdict.readings {cfg : Cfg} {frame : List Byte} {e : OutEvent} (h : Verdict cfg frame e)
    (hvalid : frame.getLast? = some (sum8 frame.dropLast)) : ∃ r, readFrame cfg frame = .ok r ∧ e = .readings r := by
  rwa [Verdict, if_pos hvalid] at h

theorem Verdict.eq_readings {cfg : Cfg} {frame : List Byte} {e : OutEvent} {r : Readings} (h : Verdict cfg frame e)
    (hvalid : frame.getLast? = some (sum8 frame.dropLast)) (hread : readFrame cfg frame = .ok r) : e = .readings r := by
  obtain ⟨r', hread', rfl⟩ := h.readings hvalid
  cases hread.symm.trans hread'
  rfl

theorem checksumOk_iff (frame : List Byte) :
    checksumOk frame = true ↔ frame.getLast? = some (sum8 frame.dropLast) := by
  rw [checksumOk, beq_iff_eq, List.getLast?_eq_getElem?, List.dropLast_eq_take]

/-- `t` comes after `s` with nothing held and seeks: `n` FramingErrors and then the event `e` of a frame. -/
structure FrameEnd (s : State) (n : Nat) (e : OutEvent) (t : State) : Prop where
  cfg : t.cfg = s.cfg
  cfgError : t.cfgError = s.cfgError
  st : t.st = .seekingStart
  count : t.count = 0
  matchLen : t.matchLen = 0
  seekCount : t.seekCount = 0
  out : t.out = [e]
  trace : t.trace = s.trace ++ List.replicate n .errFraming ++ [e]

/-- The internal step on a frame (R131, R132). -/
theorem exists_settle_frameHeld {s u : State} {n : Nat} {frame : List Byte} (h : Passed s n u)
    (hok : cfgOk s.cfg = true) (hc : s.cfgError = false) (hlen : frame.length = s.cfg.frameLen) :
    ∃ e t, settle (frameHeld frame u) = .next t ∧ Verdict s.cfg frame e ∧ FrameEnd s n e t := by
  obtain ⟨hcfg, hce, htrace⟩ := h
  have hcu := hce.trans hc
  have hlenu : frame.length = u.cfg.frameLen := by rw [hcfg, hlen]
  unfold Verdict
  cases hsum : checksumOk frame with
  | true =>
    have hread := readFrame_of_cfgOk hok hlen
    refine ⟨_, _, settle_frameHeld_pass hcu hlenu hsum (by rwa [hcfg]), ?_, hcfg, hce, rfl, rfl, rfl, rfl, rfl,
      congrArg (· ++ _) htrace⟩
    rw [if_pos ((checksumOk_iff frame).1 hsum)]
    exact ⟨_, hread, rfl⟩
  | false =>
    refine ⟨_, _, settle_frameHeld_fail hcu hlenu hsum, ?_, hcfg, hce, rfl, rfl, rfl, rfl, rfl,
      congrArg (· ++ _) htrace⟩
    rw [if_neg fun hvalid => by simp [(checksumOk_iff frame).2 hvalid] at hsum]

/-- The bytes that complete a frame, none of them a gap start (R128, R129). -/
theorem BeginsFrame.completes {s : State} {ys : List Symbol} {bs : List Byte} {n : Nat} (h : BeginsFrame s ys bs n)
    (hok : cfgOk s.cfg = true) (hc : s.cfgError = false) {zs : List Symbol} (hgap : ∀ z ∈ zs, gapm s z = false)
    (hroom : bs.length < s.cfg.frameLen) (hlen : bs.length + zs.length = s.cfg.frameLen) :
    ∃ e t, feedAll (ys ++ zs) s = .next t ∧ Verdict s.cfg (bs ++ zs.map Symbol.b) e ∧ FrameEnd s n e t := by
  obtain ⟨u, v, hpassed, hfeed, hv⟩ := h
  have hzs : zs ≠ [] := by rintro rfl; simp only [List.length_nil] at hlen; omega
  have hheld : feedAll zs (frameBegun bs u) = settle (frameHeld (bs ++ zs.map Symbol.b) u) := by
    have hgapu : ∀ z ∈ zs, gapm u z = false := fun z hz => (gapm_congr hpassed.cfg z).trans (hgap z hz)
    rw [← hpassed.cfg] at hlen
    rw [← List.dropLast_append_getLast hzs] at hlen hgapu ⊢
    refine feedAll_frameBegun (hpassed.cfgError.trans hc) _ _ hgapu ?_
    rwa [List.length_append, List.length_singleton, ← Nat.add_assoc] at hlen
  obtain ⟨e, t, hsettle, hverdict, hend⟩ := exists_settle_frameHeld (frame := bs ++ zs.map Symbol.b) hpassed hok hc
    (by rw [List.length_append, List.length_map, hlen])
  refine ⟨e, t, ?_, hverdict, hend⟩
  rw [feedAll_append_of_next hfeed, ← feedAll_beginStep hzs, hv, hheld, hsettle]

end Sys2Proof.Machine
end

section
/-! Proofs of the statements of spec/43_poll_cycle.md section 3: the checksum property, resynchronization, garbage between
frames and short streams (R177, R178, R182, R183). -/

namespace Sys2Proof.Machine

/-! ### A whole frame, in either start mode -/

theorem exec_pPoll_of_ne_nil {ys : List Symbol} (hys : ys ≠ []) (s : State) :
    exec (.pPoll ys) s = feedAll ys s :=
  (exec_pPoll ys s).trans (feedAll_beginStep hys s)

@[simp] theorem map_plainSymbols (bs : List Byte) : (plainSymbols bs).map Symbol.b = bs := by
  simp [plainSymbols, Function.comp_def]

@[simp] theorem length_plainSymbols (bs : List Byte) : (plainSymbols bs).length = bs.length :=
  List.length_map ..

theorem plainSymbols_append (bs cs : List Byte) : plainSymbols (bs ++ cs) = plainSymbols bs ++ plainSymbols cs :=
  List.map_append

theorem gapm_of_mem_plainSymbols {s : State} {bs : List Byte} {y : Symbol} (h : y ∈ plainSymbols bs) :
    gapm s y = false := by
  obtain ⟨b, -, rfl⟩ := List.mem_map.1 h
  simp [gapm]

/-- In sentinel mode, junk and a frame such that no signature begins before the frame's own, the match progress
counted in. -/
theorem exists_frame_of_sentinel {s : State} {junk frame : List Symbol} (hm : s.cfg.startMode = .sentinel)
    (hok : cfgOk s.cfg = true) (hc : s.cfgError = false) (hst : s.st = .seekingStart)
    (hmatch : s.matchLen < s.cfg.sync.length) (hlen : frame.length = s.cfg.frameLen)
    (hsync : s.cfg.sync <+: frame.map Symbol.b)
    (hno : ∀ k, k < s.matchLen + junk.length →
      ¬ s.cfg.sync <+: (s.cfg.sync.take s.matchLen ++ junk.map Symbol.b ++ frame.map Symbol.b).drop k) :
    ∃ e t, feedAll (junk ++ frame) s = .next t ∧ Verdict s.cfg (frame.map Symbol.b) e ∧
      FrameEnd s (flushCount s (junk.length + (s.cfg.sync.length - 1))) e t := by
  obtain ⟨hpos, hroom⟩ := sync_of_cfgOk_sentinel hok hm
  obtain ⟨head, y, rest, rfl, hhead, hheadLen⟩ := exists_signature_split hpos hsync
  have hnone : NoSignature s.cfg.sync (s.cfg.sync.take s.matchLen) ((junk ++ head).map Symbol.b) := by
    refine noSignature_of_drop (rest := (y :: rest).map Symbol.b) fun k hk => ?_
    rw [List.length_take_of_le hmatch.le, List.length_map, List.length_append] at hk
    simpa only [List.map_append, List.append_assoc] using hno k (by omega)
  have hends : s.cfg.sync <:+ s.cfg.sync.take s.matchLen ++ (junk ++ head).map Symbol.b ++ [y.b] := by
    refine ⟨s.cfg.sync.take s.matchLen ++ junk.map Symbol.b, ?_⟩
    rw [← hhead]
    simp
  have hbegins := beginsFrame_of_sentinel hm hok hc hst (matchProgress_take hmatch) hnone hends
  have hlenBytes : s.cfg.sync.length + rest.length = s.cfg.frameLen := by
    rw [← hlen, List.length_append, List.length_cons]; omega
  obtain ⟨e, t, hfeed, hverdict, hend⟩ := hbegins.completes hok hc (fun z _ => gapm_of_sentinel hm z) hroom hlenBytes
  have hcount : (junk ++ head).length = junk.length + (s.cfg.sync.length - 1) := by
    rw [List.length_append]; omega
  rw [sync_append_map hhead] at hverdict
  rw [hcount] at hend
  exact ⟨e, t, by simpa using hfeed, hverdict, hend⟩

/-- In gap mode, the bytes after the flagged one that begins a frame. -/
theorem BeginsFrame.completes_plain {s : State} {ys : List Symbol} {b : Byte} {bs : List Byte} {n : Nat}
    (h : BeginsFrame s (ys ++ [⟨b, true⟩]) [b] n) (hok : cfgOk s.cfg = true) (hc : s.cfgError = false)
    (hlen : (b :: bs).length = s.cfg.frameLen) :
    ∃ e t, feedAll (ys ++ flaggedFrame (b :: bs)) s = .next t ∧ Verdict s.cfg (b :: bs) e ∧ FrameEnd s n e t := by
  obtain ⟨h2, -⟩ := sizes_of_cfgOk hok
  obtain ⟨e, t, hfeed, hverdict, hend⟩ := h.completes hok hc (zs := plainSymbols bs)
    (fun z hz => gapm_of_mem_plainSymbols hz) h2 (by rw [← hlen]; simp; omega)
  exact ⟨e, t, by simpa [flaggedFrame] using hfeed, by simpa using hverdict, hend⟩

theorem exists_cons_of_length_eq {s : State} {frame : List Byte} (hok : cfgOk s.cfg = true)
    (hlen : frame.length = s.cfg.frameLen) : ∃ b bs, frame = b :: bs := by
  obtain ⟨h2, -⟩ := sizes_of_cfgOk hok
  exact List.exists_cons_of_ne_nil (List.ne_nil_of_length_pos (by omega))

/-- In gap mode, junk without a flag and a frame whose first byte alone is flagged. -/
theorem exists_frame_of_gap {s : State} {junk frame : List Byte} (hm : s.cfg.startMode = .gap)
    (hok : cfgOk s.cfg = true) (hc : s.cfgError = false) (hst : s.st = .seekingStart) (hmatch : s.matchLen = 0)
    (hlen : frame.length = s.cfg.frameLen) :
    ∃ e t, feedAll (plainSymbols junk ++ flaggedFrame frame) s = .next t ∧ Verdict s.cfg frame e ∧
      FrameEnd s (flushCount s junk.length) e t := by
  obtain ⟨b, bs, rfl⟩ := exists_cons_of_length_eq hok hlen
  have hbegins := beginsFrame_of_gap (ys := plainSymbols junk) (y := ⟨b, true⟩) hm hok hc hst hmatch
    (fun z hz => gapm_of_mem_plainSymbols hz) rfl
  rw [length_plainSymbols] at hbegins
  exact hbegins.completes_plain hok hc hlen

/-! ### The checksum property -/

/-- Settles O47: a flagged byte starts the frame at once, so no window is exceeded. -/
theorem checksumPropertyInGapMode : Obligations.ChecksumPropertyInGapMode := by
  intro s b bs hm hok hc hst hmatch hlen
  obtain ⟨e, t, hfeed, hverdict, hend⟩ := exists_frame_of_gap (junk := []) hm hok hc hst hmatch hlen
  have htrace := hend.trace
  simp only [List.length_nil, flushCount_zero, List.replicate_zero, List.append_nil] at htrace
  refine ⟨t, (exec_pPoll_of_ne_nil (by simp) s).trans hfeed, hend.st, hend.count, ?_⟩
  unfold Verdict at hverdict
  split_ifs at hverdict ⊢
  · obtain ⟨r, hread, rfl⟩ := hverdict
    exact ⟨r, hread, htrace⟩
  · rw [htrace, hverdict]

/-- Settles O48: the signature's bytes but the last are sought past. -/
theorem checksumPropertyInSentinelMode : Obligations.ChecksumPropertyInSentinelMode := by
  intro s ys hm hok hc hst hmatch hseek hlen hsync
  obtain ⟨hpos, hroom⟩ := sync_of_cfgOk_sentinel hok hm
  obtain ⟨e, t, hfeed, hverdict, hend⟩ := exists_frame_of_sentinel (junk := []) hm hok hc hst
    (by rw [hmatch]; exact hpos) hlen hsync (by simp [hmatch])
  have hne : ys ≠ [] := by rintro rfl; simp only [List.length_nil] at hlen; omega
  have htrace := hend.trace
  rw [flushCount_of_le hseek, List.length_nil, Nat.zero_add] at htrace
  refine ⟨t, (exec_pPoll_of_ne_nil hne s).trans hfeed, hend.st, hend.count, by rw [htrace, hend.out], ?_⟩
  rw [hend.out]
  unfold Verdict at hverdict
  split_ifs at hverdict ⊢
  · obtain ⟨r, hread, rfl⟩ := hverdict
    exact ⟨r, hread, rfl⟩
  · rw [hverdict]

/-! ### Resynchronization -/

theorem cfgOk_of_inv {s : State} (hinv : Inv s) (hc : s.cfgError = false) : cfgOk s.cfg = true := by
  obtain ⟨hagree, -⟩ := hinv
  simpa [CfgErrorAgrees, hc] using hagree

/-- Settles O49: no signature ends before the valid frame's own, so the matcher hits there. -/
theorem resynchronizesOnTheNextValidFrame : Obligations.ResynchronizesOnTheNextValidFrame := by
  intro s junk frame hinv hc hst hm hlen hsync hvalid hno
  have hok := cfgOk_of_inv hinv hc
  obtain ⟨-, -, -, ⟨hmatch, -, -⟩, -, -⟩ := hinv
  obtain ⟨hpos, hroom⟩ := sync_of_cfgOk_sentinel hok hm
  obtain ⟨e, t, hfeed, hverdict, hend⟩ := exists_frame_of_sentinel (junk := plainSymbols junk)
    (frame := plainSymbols frame) hm hok hc hst (Nat.lt_of_le_pred hpos hmatch) (by simpa using hlen)
    (by simpa using hsync) (by simpa using hno)
  obtain ⟨r, hread, rfl⟩ := hverdict.readings (by simpa using hvalid)
  have hne : plainSymbols (junk ++ frame) ≠ [] := by
    refine List.ne_nil_of_length_pos ?_
    rw [length_plainSymbols, List.length_append]
    omega
  rw [← plainSymbols_append] at hfeed
  rw [map_plainSymbols] at hread
  exact ⟨t, (exec_pPoll_of_ne_nil hne s).trans hfeed, hend.st, hend.count, hend.matchLen, hend.seekCount, _, r, hread,
    hend.trace⟩

/-- Settles O55: seeking, the flagged byte starts the frame; accumulating, it aborts the one in progress. -/
theorem resynchronizesOnTheNextFlaggedFrame : Obligations.ResynchronizesOnTheNextFlaggedFrame := by
  intro s junk frame hinv hc hm hlen hvalid
  have hok := cfgOk_of_inv hinv hc
  obtain ⟨-, -, -, ⟨hmatch, -, -⟩, -, -⟩ := hinv
  have hmatch : s.matchLen = 0 := by
    rw [syncLen, sync_of_cfgOk_gap hok hm] at hmatch
    exact Nat.le_zero.1 hmatch
  obtain ⟨b, bs, rfl⟩ := exists_cons_of_length_eq hok hlen
  refine ⟨_, readFrame_of_cfgOk hok hlen, fun hst => ?seeking, fun hst => ?accumulating⟩
  case seeking =>
    obtain ⟨e, t, hfeed, hverdict, hend⟩ := exists_frame_of_gap (junk := junk) hm hok hc hst hmatch hlen
    obtain rfl := hverdict.eq_readings hvalid (readFrame_of_cfgOk hok hlen)
    exact ⟨t, (exec_pPoll_of_ne_nil (by simp [flaggedFrame]) s).trans hfeed, hend.st, hend.count, hend.matchLen,
      hend.seekCount, _, hend.trace⟩
  case accumulating =>
    have hbegins : BeginsFrame s ([] ++ [⟨b, true⟩]) [b] 1 := beginsFrame_of_abort hm hok hc hst hmatch rfl
    obtain ⟨e, t, hfeed, hverdict, hend⟩ := hbegins.completes_plain hok hc hlen
    obtain rfl := hverdict.eq_readings hvalid (readFrame_of_cfgOk hok hlen)
    refine ⟨t, (exec_pPoll_of_ne_nil (by simp [flaggedFrame]) s).trans hfeed, hend.st, hend.count, hend.matchLen,
      hend.seekCount, ?_⟩
    simpa using hend.trace

/-! ### Garbage between two frames -/

/-- Two frames one after the other, each without an error before it. -/
theorem feedAll_two_frames {s t u : State} {xs ys : List Symbol} {e e' : OutEvent} (hxs : feedAll xs s = .next t)
    (hys : feedAll ys t = .next u) (ht : FrameEnd s 0 e t) (hu : FrameEnd t 0 e' u) (hne : xs ≠ []) :
    HasNext (exec (.pPoll (xs ++ ys)) s) fun v =>
      v.trace = s.trace ++ [e, e'] ∧ v.st = .seekingStart ∧ v.count = 0 := by
  refine ⟨u, ?_, ?_, hu.st, hu.count⟩
  · rw [exec_pPoll_of_ne_nil (by simp [hne]), feedAll_append_of_next hxs, hys]
  · rw [hu.trace, ht.trace]
    simp

/-- With room in the seek window nothing is flushed. -/
theorem flushCount_eq_zero {s : State} {k : Nat} (hseek : s.seekCount = 0) (hk : k ≤ s.cfg.seekWindow) :
    flushCount s k = 0 := by
  rw [flushCount_of_le (by omega), hseek, Nat.zero_add]
  exact Nat.div_eq_of_lt (Nat.lt_succ_of_le hk)

/-- Settles O53: after the first frame nothing is held, and the window has room for what comes before the second. -/
theorem garbageBetweenFramesIsHarmless : Obligations.GarbageBetweenFramesIsHarmless := by
  intro s v1 v2 j0 j1 j2 hok hc hst hmatch hseek hlen1 hlen2 hvalid1 hvalid2
  obtain ⟨r1, hread1⟩ : ∃ r, readFrame s.cfg v1 = .ok r := ⟨_, readFrame_of_cfgOk hok hlen1⟩
  obtain ⟨r2, hread2⟩ : ∃ r, readFrame s.cfg v2 = .ok r := ⟨_, readFrame_of_cfgOk hok hlen2⟩
  obtain ⟨b, bs, hv1⟩ := exists_cons_of_length_eq hok hlen1
  refine ⟨r1, r2, hread1, hread2, fun hm hwindow hsync1 hsync2 hno => ?sentinel, fun hm hwindow => ?gap⟩
  case sentinel =>
    have hpos : 1 ≤ s.cfg.sync.length := (sync_of_cfgOk_sentinel hok hm).1
    obtain ⟨e1, t, hfeed1, hverdict1, hend1⟩ := exists_frame_of_sentinel (junk := []) (frame := plainSymbols v1)
      hm hok hc hst (by rw [hmatch]; exact hpos) (by simpa using hlen1) (by simpa using hsync1) (by simp [hmatch])
    have hcfg := hend1.cfg
    obtain ⟨e2, u, hfeed2, hverdict2, hend2⟩ := exists_frame_of_sentinel (s := t) (junk := plainSymbols [j0, j1, j2])
      (frame := plainSymbols v2) (by rw [hcfg, hm]) (by rw [hcfg, hok]) (hend1.cfgError.trans hc) hend1.st
      (by rw [hend1.matchLen, hcfg]; exact hpos) (by simpa [hcfg] using hlen2) (by simpa [hcfg] using hsync2)
      (by simpa [hcfg, hend1.matchLen] using hno)
    rw [map_plainSymbols] at hverdict1
    rw [map_plainSymbols, hcfg] at hverdict2
    obtain rfl := hverdict1.eq_readings hvalid1 hread1
    obtain rfl := hverdict2.eq_readings hvalid2 hread2
    rw [flushCount_eq_zero hseek (by simp; omega)] at hend1
    rw [flushCount_eq_zero hend1.seekCount (by simp [hcfg]; omega)] at hend2
    rw [List.append_assoc, plainSymbols_append, plainSymbols_append]
    exact feedAll_two_frames hfeed1 hfeed2 hend1 hend2 (by simp [hv1, plainSymbols])
  case gap =>
    obtain ⟨e1, t, hfeed1, hverdict1, hend1⟩ := exists_frame_of_gap (junk := []) hm hok hc hst hmatch hlen1
    have hcfg := hend1.cfg
    obtain ⟨e2, u, hfeed2, hverdict2, hend2⟩ := exists_frame_of_gap (s := t) (junk := [j0, j1, j2])
      (by rw [hcfg, hm]) (by rw [hcfg, hok]) (hend1.cfgError.trans hc) hend1.st hend1.matchLen (by rw [hcfg, hlen2])
    rw [hcfg] at hverdict2
    obtain rfl := hverdict1.eq_readings hvalid1 hread1
    obtain rfl := hverdict2.eq_readings hvalid2 hread2
    rw [List.length_nil, flushCount_zero] at hend1
    rw [flushCount_eq_zero hend1.seekCount (by simpa [hcfg] using hwindow)] at hend2
    rw [List.append_assoc]
    exact feedAll_two_frames hfeed1 hfeed2 hend1 hend2 (by simp [hv1, flaggedFrame])

/-! ### Short streams -/

/-- Ticks change nothing but the record of the step before (R172). -/
theorem runInstrs_ticks (k : Nat) : ∀ s : State,
    ∃ u, runInstrs (List.replicate k .tick) s = .next u ∧ beginStep u = beginStep s := by
  induction k with
  | zero => exact fun s => ⟨s, rfl, rfl⟩
  | succ k ih => exact fun s => ih (beginStep s)

/-- In either start mode a frame begins with its start: the signature, or the flagged byte. -/
theorem exists_start {s : State} {ys : List Symbol} (hok : cfgOk s.cfg = true) (hc : s.cfgError = false)
    (hst : s.st = .seekingStart) (hmatch : s.matchLen = 0) (hlen : ys.length = s.cfg.frameLen)
    (hsync : s.cfg.sync <+: ys.map Symbol.b) (hflag : s.cfg.startMode = .gap → ∀ y ∈ ys.head?, y.g = true) :
    ∃ start rest n, ys = start ++ rest ∧ start.length = max 1 s.cfg.sync.length ∧
      BeginsFrame s start (start.map Symbol.b) n := by
  cases hm : s.cfg.startMode with
  | sentinel =>
    obtain ⟨hpos, hroom⟩ := sync_of_cfgOk_sentinel hok hm
    obtain ⟨head, y, rest, rfl, hhead, hheadLen⟩ := exists_signature_split hpos hsync
    have hprog : MatchProgress s.cfg.sync [] s.matchLen := by
      rw [hmatch]
      exact matchProgress_take hpos
    have hbegins := beginsFrame_of_sentinel (ys := head) (y := y) hm hok hc hst hprog
      (noSignature_of_length_lt (by simp; omega)) (by simp [hhead])
    refine ⟨head ++ [y], rest, flushCount s head.length, by simp, by simp; omega, ?_⟩
    rwa [← hhead, ← List.map_singleton, ← List.map_append] at hbegins
  | gap =>
    obtain ⟨h2, -⟩ := sizes_of_cfgOk hok
    obtain ⟨y, rest, rfl⟩ := List.exists_cons_of_ne_nil (List.ne_nil_of_length_pos (l := ys) (by omega))
    refine ⟨[y], rest, flushCount s 0, rfl, by simp [sync_of_cfgOk_gap hok hm], ?_⟩
    exact beginsFrame_of_gap (ys := []) hm hok hc hst hmatch (by simp) (hflag hm y rfl)

/-- What the core is like where a frame has begun. -/
theorem BeginsFrame.waits {s : State} {xs : List Symbol} {bs : List Byte} {n : Nat} (h : BeginsFrame s xs bs n) :
    ∃ t, feedAll xs s = .next t ∧ t.st = .accumulating ∧ t.count = bs.length ∧
      t.trace = s.trace ++ List.replicate n .errFraming := by
  obtain ⟨u, t, hpassed, hfeed, ht⟩ := h
  exact ⟨t, hfeed, congrArg State.st ht, congrArg State.count ht, (congrArg State.trace ht).trans hpassed.trace⟩

/-- Ticks between two parts of a stream play no part. -/
theorem hasNext_after_ticks {t v : State} {zs : List Symbol} {p : State → Prop} (k : Nat) (hzs : zs ≠ [])
    (hfeed : feedAll zs t = .next v) (hp : p v) :
    HasNext (runInstrs (List.replicate k .tick) t) fun u => quiet u = quiet t ∧ HasNext (exec (.pPoll zs) u) p := by
  obtain ⟨u, hrun, hu⟩ := runInstrs_ticks k t
  refine ⟨u, hrun, hu, v, ?_, hp⟩
  rw [exec_pPoll, hu, feedAll_beginStep hzs, hfeed]

/-- A stream that is cut in the frame, after its start. -/
theorem exists_cut_after_start {s : State} {ys : List Symbol} {n : Nat} (hok : cfgOk s.cfg = true)
    (hc : s.cfgError = false) (hst : s.st = .seekingStart) (hmatch : s.matchLen = 0)
    (hlen : ys.length = s.cfg.frameLen) (hsync : s.cfg.sync <+: ys.map Symbol.b)
    (hgap : ∀ y ∈ ys.tail, gapm s y = false) (hflag : s.cfg.startMode = .gap → ∀ y ∈ ys.head?, y.g = true)
    (hn : max 1 s.cfg.sync.length ≤ n) (hn' : n < s.cfg.frameLen) :
    ∃ k, BeginsFrame s (ys.take n) ((ys.take n).map Symbol.b) k := by
  obtain ⟨start, rest, k, rfl, hstart, hbegins⟩ := exists_start hok hc hst hmatch hlen hsync hflag
  obtain ⟨y, start, rfl⟩ := List.exists_cons_of_ne_nil (List.ne_nil_of_length_pos (l := start) (by omega))
  have hrest : ∀ z ∈ rest.take (n - (y :: start).length), gapm s z = false := fun z hz =>
    hgap z (List.mem_append_right start (List.mem_of_mem_take hz))
  refine ⟨k, ?_⟩
  rw [List.take_append, List.take_of_length_le (hstart.trans_le hn), List.map_append]
  refine hbegins.append hc hrest ?_
  rw [List.length_map, List.length_take]
  omega

/-- A stream that is cut in the signature (R183): the core waits in `SEEKING_START` with the match progress, and the
rest of the signature begins the frame. -/
theorem exists_cut_in_signature {s : State} {head : List Symbol} {y : Symbol} {n : Nat}
    (hm : s.cfg.startMode = .sentinel) (hok : cfgOk s.cfg = true) (hc : s.cfgError = false)
    (hst : s.st = .seekingStart) (hmatch : s.matchLen = 0) (hhead : head.map Symbol.b ++ [y.b] = s.cfg.sync)
    (hn : n ≤ head.length) :
    ∃ t k, feedAll (head.take n) s = .next t ∧ Sought s n t ∧ t.matchLen = n ∧
      BeginsFrame t (head.drop n ++ [y]) s.cfg.sync k := by
  have hheadLen : head.length + 1 = s.cfg.sync.length := by simpa using congrArg List.length hhead
  have hlt : n < s.cfg.sync.length := by omega
  have hnLen : (head.take n).length = n := List.length_take_of_le hn
  have htake : (head.take n).map Symbol.b = s.cfg.sync.take n := by
    rw [← hhead, List.take_append_of_le_length (by simpa using hn), List.map_take]
  have hprog : MatchProgress s.cfg.sync [] s.matchLen := by
    rw [hmatch]
    exact matchProgress_take (Nat.zero_lt_of_lt hlt)
  obtain ⟨t, hsought, hprogt, hfeed⟩ := exists_sought_of_sentinel (head.take n) hm hc hst hprog
    (noSignature_of_length_lt (by simp only [List.length_nil, List.length_map, hnLen]; omega))
  rw [List.nil_append, htake] at hprogt
  rw [hnLen] at hsought
  have hcfg := hsought.cfg
  have hbegins := beginsFrame_of_sentinel (s := t) (w := s.cfg.sync.take n) (ys := head.drop n) (y := y)
    (by rw [hcfg, hm]) (by rw [hcfg, hok]) (hsought.cfgError.trans hc) hsought.st (by rwa [hcfg])
    (noSignature_of_length_lt (by simp [hcfg]; omega))
    (by rw [← htake, ← List.map_append, List.take_append_drop, hhead, hcfg])
  rw [hcfg] at hbegins
  exact ⟨t, _, hfeed, hsought, hprogt.unique (matchProgress_take hlt), hbegins⟩

/-- Settles O54: a stream cut after the start of the frame, or in the signature. -/
theorem shortStreamCompletesLater : Obligations.ShortStreamCompletesLater := by
  intro s ys n ticks hcount hok hc hst hmatch hlen hsync hgap hflag hvalid
  obtain ⟨r, hread⟩ : ∃ r, readFrame s.cfg (ys.map Symbol.b) = .ok r :=
    ⟨_, readFrame_of_cfgOk hok (by rw [List.length_map, hlen])⟩
  have hrest : n < ys.length → ys.drop n ≠ [] := fun hn => by simpa using hn
  refine ⟨fun hn hn' => ?afterStart, fun hn => ?inSignature⟩
  case afterStart =>
    have hnLen : (ys.take n).length = n := List.length_take_of_le (by omega)
    obtain ⟨k, hbegins⟩ := exists_cut_after_start (s := beginStep s) hok hc hst hmatch hlen hsync hgap hflag hn hn'
    obtain ⟨t, hfeed, hstt, hcountt, htracet⟩ := hbegins.waits
    obtain ⟨m, rfl⟩ : ∃ m, n = m + 1 := ⟨n - 1, by omega⟩
    have hgap' : ∀ y ∈ ys.drop (m + 1), gapm (beginStep s) y = false := fun y hy =>
      hgap y (List.mem_of_mem_drop (i := m) (by rwa [List.drop_tail]))
    obtain ⟨e, v, hfeedv, hverdict, hend⟩ := hbegins.completes hok hc hgap'
      (by simp; omega) (by simp; omega)
    rw [feedAll_append_of_next hfeed] at hfeedv
    rw [← List.map_append, List.take_append_drop] at hverdict
    obtain rfl := hverdict.eq_readings hvalid hread
    refine ⟨t, hfeed, hstt, by rw [hcountt, List.length_map, hnLen],
      hasNext_after_ticks ticks (hrest (by omega)) hfeedv ⟨hend.st, hend.count, r, hread, ?_⟩⟩
    rw [hend.trace, htracet]
  case inSignature =>
    have hm : s.cfg.startMode = .sentinel := by
      cases hm : s.cfg.startMode with
      | sentinel => rfl
      | gap => simp [sync_of_cfgOk_gap hok hm] at hn
    obtain ⟨hpos, hroom⟩ := sync_of_cfgOk_sentinel hok hm
    obtain ⟨head, y, rest, rfl, hhead, hheadLen⟩ := exists_signature_split hpos hsync
    have hnhead : n ≤ head.length := by omega
    obtain ⟨t, k, hfeed, hsought, hmatcht, hbegins⟩ :=
      exists_cut_in_signature (s := beginStep s) hm hok hc hst hmatch hhead hnhead
    have hcfg : t.cfg = s.cfg := hsought.cfg
    obtain ⟨e, v, hfeedv, hverdict, hend⟩ := hbegins.completes (zs := rest) (by rw [hcfg, hok])
      (hsought.cfgError.trans hc) (fun z _ => gapm_of_sentinel (by rw [hcfg, hm]) z)
      (by rw [hcfg]; exact hroom) (by rw [hcfg, ← hlen]; simp; omega)
    rw [beginStep_cfg, sync_append_map hhead, hcfg] at hverdict
    obtain rfl := hverdict.eq_readings hvalid hread
    have hdrop : head.drop n ++ [y] ++ rest = (head ++ y :: rest).drop n := by
      rw [List.drop_append_of_le_length hnhead]
      simp
    rw [hdrop] at hfeedv
    obtain ⟨hcount0, -⟩ := hcount
    refine ⟨t, ?_, hsought.st, hsought.count.trans (hcount0 hst), hmatcht,
      hasNext_after_ticks ticks (hrest (by rw [hlen]; exact hn.trans hroom)) hfeedv
        ⟨hend.st, hend.count, k, r, hread, hend.trace⟩⟩
    rw [exec_pPoll, List.take_append_of_le_length hnhead, hfeed]

end Sys2Proof.Machine
end

section
/-! Proofs of the scenarios of spec/43_poll_cycle.md section 3: the reference frame of R180, and with any other last byte
(R181). -/

namespace Sys2Proof.Machine

/-- The fields of the scenario's frame with the checksum byte `k` (R71, R180). -/
def scenarioFrame (k : Byte) : RefFrame where
  u2 := 0
  u3 := 0
  u4 := 0
  a := 100
  b := 200
  c := 300
  d := 400
  e := 500
  f := 600
  u17 := 0
  u18 := 0
  u19 := 0
  statusHigh := 0
  r := 0b1101
  u21 := List.replicate 10 0
  k := k

/-- Its 32 bytes, as the scenario writes them. -/
theorem bytes_scenarioFrame (k : Byte) : (scenarioFrame k).bytes =
    [0xAA, 0x55, 0x00, 0x00, 0x00, 0x00, 0x64, 0x00, 0xC8, 0x01, 0x2C, 0x01, 0x90, 0x01, 0xF4, 0x02,
      0x58, 0x00, 0x00, 0x00, 0x0D, 0x00, 0x00, 0x00, 0x00, 0x00, 0x00, 0x00, 0x00, 0x00, 0x00, k] := by
  simp [RefFrame.bytes_eq, RefFrame.body, scenarioFrame, rawHigh, rawLow, List.replicate]

/-- The sum of the first 31. -/
theorem sum8_scenarioFrame (k : Byte) : sum8 ((scenarioFrame k).bytes.take 31) = 0x45 := by
  simp [bytes_scenarioFrame, sum8]

/-- What the reference frame's statement says of a poll from reset: the reset state has no record to clear. -/
theorem hasNext_scenario (k : Byte) :
    HasNext (exec (.pPoll (plainSymbols (scenarioFrame k).bytes)) State.reset) fun t =>
      t.st = .seekingStart ∧ t.count = 0 ∧ t.framingErrors = 0 ∧ t.trace = t.out ∧
      if k = 0x45 then
        t.out = [.readings { temps := [100, 200, 300, 400, 500, 600], relays := [true, false, true, true] }]
      else t.checksumErrors = 1 ∧ t.out = [.errChecksum] := by
  obtain ⟨t, hrun, hst, hcount, -, -, hframing, -, -, -, -, -, -, htrace, hevent⟩ :=
    referenceFrameDecodesToItsFields State.reset (scenarioFrame k) rfl (congrArg (!·) cfgOk_referenceCfg) rfl rfl
      (by decide) rfl
  refine ⟨t, hrun, hst, hcount, hframing, htrace, ?_⟩
  rw [sum8_scenarioFrame] at hevent
  change if k = 0x45 then _ else _ at hevent
  split_ifs at hevent ⊢
  · obtain ⟨-, hout⟩ := hevent
    simpa [scenarioFrame] using hout
  · exact hevent

/-- A whole number of degrees below `2^15` tenths; the sign convention plays no part there (R72, R153, D14). -/
theorem celsius_tempValue (cfg : Cfg) {raw : Raw} {n : Nat} (hmsb : raw.msb = false) (hraw : raw.toNat = n * 10) :
    celsius (tempValue cfg raw) = n := by
  have htenths : tempValue cfg raw = ((n * 10 : Nat) : Int) := by
    rw [tempValue, BitVec.toInt_eq_toNat_of_msb hmsb, ite_self, hraw]
  rw [celsius, htenths, Int.cast_natCast, Nat.cast_mul]
  exact mul_div_cancel_right₀ _ (by norm_num)

/-- Settles O51. -/
theorem referenceScenario : Obligations.ReferenceScenario := by
  obtain ⟨t, hrun, hst, hcount, -, htrace, hevent⟩ := hasNext_scenario 0x45
  rw [bytes_scenarioFrame] at hrun
  rw [if_pos rfl] at hevent
  refine ⟨t, hrun, htrace.trans hevent, ?_, hst, hcount⟩
  simp only [List.map_cons, List.map_nil]
  rw [celsius_tempValue t.cfg (n := 10) rfl rfl, celsius_tempValue t.cfg (n := 20) rfl rfl,
    celsius_tempValue t.cfg (n := 30) rfl rfl, celsius_tempValue t.cfg (n := 40) rfl rfl,
    celsius_tempValue t.cfg (n := 50) rfl rfl, celsius_tempValue t.cfg (n := 60) rfl rfl]
  norm_num

/-- Settles O52. -/
theorem corruptedChecksumScenario : Obligations.CorruptedChecksumScenario := by
  intro k hk
  obtain ⟨t, hrun, hst, hcount, hframing, htrace, hevent⟩ := hasNext_scenario k
  rw [bytes_scenarioFrame] at hrun
  rw [if_neg hk] at hevent
  obtain ⟨hchecksum, hout⟩ := hevent
  exact ⟨t, hrun, htrace.trans hout, hchecksum, hframing, hst, hcount⟩

end Sys2Proof.Machine
end

section
/-! Proof of the statement of spec/60_exceptions.md section 1: under `cfg_error` only `RESET` and `TICK` run, and the core
keeps its reset values (R190). -/

namespace Sys2Proof.Machine

/-- A step under `cfg_error` keeps the elements of the core and emits nothing (R190). -/
structure Inert (s t : State) : Prop where
  core : coreView t = coreView s
  funcResult : t.funcResult = s.funcResult
  out : t.out = []
  trace : t.trace = s.trace

/-- `in_ready` is 0 under `cfg_error` (R29). -/
theorem inReady_of_cfgError {s : State} (hc : s.cfgError = true) : s.inReady = false := by
  simp [State.inReady, hc]

/-- A host's call waits as bytes do (R190, log 9). -/
theorem takeInput_ne_call_of_cfgError {s : State} (hc : s.cfgError = true) (code : List Byte) (rest : List Input) :
    takeInput s ≠ some (.call code, rest) := fun hin =>
  nomatch (inReady_of_cfgError hc).symm.trans (inReady_of_takeInput hin rfl)

/-- Only `RESET` and `TICK` are selected under `cfg_error` (R83, R190). -/
theorem eq_reset_or_tick_of_cfgError {s : State} {ev : Option InEvent} {op : Operation} (hagree : CfgErrorAgrees s)
    (hc : s.cfgError = true) (hsel : selected s ev = some op) : op = .reset ∨ op = .tick := by
  by_contra hop
  obtain ⟨hreset, htick⟩ := not_or.1 hop
  have hok : cfgOk s.cfg = true := cfgOk_of_selected hagree hsel hreset htick
  simp [CfgErrorAgrees, hok, hc] at hagree

/-- An ill-formed configuration makes `RESET` raise `cfg_error` again, and every other element has its reset value
already (R36, R190). -/
theorem inert_reset_of_cfgError {s : State} (hinv : Inv s) (hc : s.cfgError = true) :
    Inert s { clearCore s with cfgError := !cfgOk s.cfg } := by
  obtain ⟨hagree, hinert, ⟨hcount, -⟩, -⟩ := hinv
  obtain ⟨hst, hframing, hchecksum, hmatch, hseek, hbuf, -⟩ := hinert hc
  refine ⟨?_, rfl, rfl, rfl⟩
  simp [coreView, hagree.symm, hst, hcount hst, hframing, hchecksum, hmatch, hseek, hbuf]

/-- What is selected under `cfg_error` is inert. -/
theorem OpEffect.inert_of_cfgError {op : Operation} {y : Symbol} {s t : State} {ev : Option InEvent} (hinv : Inv s)
    (hc : s.cfgError = true) (hsel : selected s ev = some op) (heff : OpEffect op y s t) : Inert s t := by
  have ⟨hagree, _⟩ := hinv
  rcases eq_reset_or_tick_of_cfgError hagree hc hsel with rfl | rfl
  · obtain rfl := heff
    exact inert_reset_of_cfgError hinv hc
  · obtain rfl := heff
    exact ⟨rfl, rfl, rfl, rfl⟩

/-- A step under `cfg_error` is `RESET`, `TICK` or the idle core's. -/
theorem inert_of_step {s t : State} (hinv : Inv s) (hc : s.cfgError = true) (h : step s = .next t) : Inert s t := by
  rcases step_cases_of_no_call (takeInput_ne_call_of_cfgError hc) h with
    ⟨e, rest, op, y, -, hop, heff⟩ | ⟨op, -, hop, heff⟩ | ⟨-, -, rfl⟩
  · obtain ⟨hcore, hfunc, hout, htrace⟩ := heff.inert_of_cfgError (s := { s with input := rest }) hinv hc hop
    exact ⟨hcore, hfunc, hout, htrace⟩
  · exact heff.inert_of_cfgError hinv hc hop
  · exact ⟨rfl, rfl, rfl, rfl⟩

/-- Settles O41: `cfg_error` is an element of the core and stays 1, and the trace is empty in every state of the
invariant under it. -/
theorem configurationErrorIsInert : Obligations.ConfigurationErrorIsInert := by
  intro s t hinv hc h
  obtain ⟨hcore, hfunc, hout, htrace⟩ := inert_of_step hinv hc h
  have hct : t.cfgError = true := (congrArg State.cfgError hcore).trans hc
  obtain ⟨-, hinert, -⟩ := hinv
  obtain ⟨-, -, -, -, -, -, hempty⟩ := hinert hc
  exact ⟨takeInput_ne_call_of_cfgError hc, hfunc, hcore, hout, htrace.trans hempty, inReady_of_cfgError hct,
    if_pos hct⟩

end Sys2Proof.Machine
end

section
/-! Proof of the statement of spec/70_reset_and_hazards.md: `RESET` in every state (R210). -/

namespace Sys2Proof.Machine

/-- Settles O10: the dispatch word's `RESET` bits alone select `RESET`, and its equation gives the next state, whose
`out` is empty because a step begins with no events. -/
theorem resetResult : Obligations.ResetResult := by
  intro s
  refine ⟨selected_reset s, { clearCore s with cfgError := !cfgOk s.cfg }, execReset_eq s, ?_⟩
  exact ⟨rfl, rfl, rfl, rfl, rfl, rfl, rfl, rfl, rfl, rfl⟩

end Sys2Proof.Machine
end
